-- ==== Sys2Proof/Word.lean ====
section
/-! DEFINITION. The words of the hardware: bytes, 32-bit values, command words and bit sequences
(00_scope.md R5, R6). -/

namespace Sys2Proof

/-- A byte, `BYTE_W` = 8 bits numbered 7 down to 0 (R5, R6). A Symbol is a byte (`SYM_W` = 8). -/
abbrev Byte := BitVec 8

/-- A `LEN_W` = `FREQ_W` = 32-bit unsigned value (R5). -/
abbrev Word32 := BitVec 32

/-- A command word, `CMD_W` = 48 bits (R5, 30_encoding.md R72). -/
abbrev CmdWord := BitVec 48

/-- A bit sequence `<b0 b1 ...>`, first bit in stream order first (R6); `true` is 1. -/
abbrev Bits := List Bool

end Sys2Proof
end

