-- ==== Sys2Proof/Syntax.lean ====
section
/-! DEFINITION. The operations of the hardware: one constructor for each row of the opcode table, and what
can stand on the command interface before it is decoded (30_encoding.md R70 to R72, R81 to R83). -/

namespace Sys2Proof

/-- One constructor per row of the opcode table. Operands have the types of their fields (R73), so that every
term is well formed: a bit is a `Bool`, a symbol a byte, a count or length 32 bits. The last three are the
compressed stream's items, not commands of the host (R81 to R83; log entry 5). -/
inductive Instr where
  | bpOpen
  | bpWriteBit (bit : Bool)
  | bpWriteLength (n : Word32)
  | bpBytes
  | bpClose
  | buOpen
  | buReadBit
  | buReadLength
  | buBytes
  | buClose
  | tsBuild
  | tsSerialize
  | tsDeserialize
  | tsSize
  | tsCodetable
  | tsFreqClear
  | tsFreqSet (sym : Byte) (count : Word32)
  | tsCodeGet (sym : Byte)
  | heCompress
  | hdDecompress
  | tokenInternal
  | tokenLeaf (sym : Byte)
  | lengthHeader (n : Word32)
  deriving DecidableEq, Repr

/-- What is presented to the decoder: a 48-bit command word (R72), or one item of the compressed stream, whose
widths are 1 or 9 bits for a tree token (R81, R82) and 32 bits for the length header (R83). -/
inductive Item where
  | command (w : CmdWord)
  | treeToken (bits : Bits)
  | header (w : Word32)
  deriving DecidableEq, Repr

end Sys2Proof
end

