-- ==== Sys2Proof/Machine/Access.lean ====
section
/-! DEFINITION. Which instruction may touch what: the writers of each register (10_state.md R29) and the users of each
stream (20_memory.md R48). -/

namespace Sys2Proof.Machine

/-- The commands that write the bit_packer's registers or touch SINK (10_state.md R29, 20_memory.md R48), and the three
stream items (log entry 5). -/
def drivesPacker : Instr → Bool
  | .bpOpen => true
  | .bpWriteBit _ => true
  | .bpWriteLength _ => true
  | .bpBytes => false
  | .bpClose => true
  | .buOpen => false
  | .buReadBit => false
  | .buReadLength => false
  | .buBytes => false
  | .buClose => false
  | .tsBuild => false
  | .tsSerialize => true
  | .tsDeserialize => false
  | .tsSize => false
  | .tsCodetable => false
  | .tsFreqClear => false
  | .tsFreqSet _ _ => false
  | .tsCodeGet _ => false
  | .heCompress => true
  | .hdDecompress => false
  | .tokenInternal => true
  | .tokenLeaf _ => true
  | .lengthHeader _ => true

/-- The commands that write `bu_buf`, `bu_avail`, `bu_bytes` or move the cursor of SRC (R29, R48). -/
def drivesUnpacker : Instr → Bool
  | .bpOpen => false
  | .bpWriteBit _ => false
  | .bpWriteLength _ => false
  | .bpBytes => false
  | .bpClose => false
  | .buOpen => true
  | .buReadBit => true
  | .buReadLength => true
  | .buBytes => false
  | .buClose => false
  | .tsBuild => false
  | .tsSerialize => false
  | .tsDeserialize => true
  | .tsSize => false
  | .tsCodetable => false
  | .tsFreqClear => false
  | .tsFreqSet _ _ => false
  | .tsCodeGet _ => false
  | .heCompress => false
  | .hdDecompress => true
  | .tokenInternal => false
  | .tokenLeaf _ => false
  | .lengthHeader _ => false

/-- The commands that write `bu_status` or attach and release SRC (R29, R48). -/
def switchesUnpacker : Instr → Bool
  | .bpOpen => false
  | .bpWriteBit _ => false
  | .bpWriteLength _ => false
  | .bpBytes => false
  | .bpClose => false
  | .buOpen => true
  | .buReadBit => false
  | .buReadLength => false
  | .buBytes => false
  | .buClose => true
  | .tsBuild => false
  | .tsSerialize => false
  | .tsDeserialize => false
  | .tsSize => false
  | .tsCodetable => false
  | .tsFreqClear => false
  | .tsFreqSet _ _ => false
  | .tsCodeGet _ => false
  | .heCompress => false
  | .hdDecompress => false
  | .tokenInternal => false
  | .tokenLeaf _ => false
  | .lengthHeader _ => false

/-- The commands that write `freq` (R29, R48). -/
def writesFreq : Instr → Bool
  | .bpOpen => false
  | .bpWriteBit _ => false
  | .bpWriteLength _ => false
  | .bpBytes => false
  | .bpClose => false
  | .buOpen => false
  | .buReadBit => false
  | .buReadLength => false
  | .buBytes => false
  | .buClose => false
  | .tsBuild => false
  | .tsSerialize => false
  | .tsDeserialize => false
  | .tsSize => false
  | .tsCodetable => false
  | .tsFreqClear => true
  | .tsFreqSet _ _ => true
  | .tsCodeGet _ => false
  | .heCompress => true
  | .hdDecompress => false
  | .tokenInternal => false
  | .tokenLeaf _ => false
  | .lengthHeader _ => false

/-- The commands that write `tree` (R29, R48). -/
def writesTree : Instr → Bool
  | .bpOpen => false
  | .bpWriteBit _ => false
  | .bpWriteLength _ => false
  | .bpBytes => false
  | .bpClose => false
  | .buOpen => false
  | .buReadBit => false
  | .buReadLength => false
  | .buBytes => false
  | .buClose => false
  | .tsBuild => true
  | .tsSerialize => false
  | .tsDeserialize => true
  | .tsSize => false
  | .tsCodetable => false
  | .tsFreqClear => false
  | .tsFreqSet _ _ => false
  | .tsCodeGet _ => false
  | .heCompress => true
  | .hdDecompress => true
  | .tokenInternal => false
  | .tokenLeaf _ => false
  | .lengthHeader _ => false

/-- The commands that write `code` (R29, R48). -/
def writesCode : Instr → Bool
  | .bpOpen => false
  | .bpWriteBit _ => false
  | .bpWriteLength _ => false
  | .bpBytes => false
  | .bpClose => false
  | .buOpen => false
  | .buReadBit => false
  | .buReadLength => false
  | .buBytes => false
  | .buClose => false
  | .tsBuild => true
  | .tsSerialize => false
  | .tsDeserialize => true
  | .tsSize => false
  | .tsCodetable => true
  | .tsFreqClear => false
  | .tsFreqSet _ _ => false
  | .tsCodeGet _ => false
  | .heCompress => true
  | .hdDecompress => true
  | .tokenInternal => false
  | .tokenLeaf _ => false
  | .lengthHeader _ => false

/-- HE_COMPRESS alone: it writes `he_len` and moves the cursor of RAWIN (R29, R48). -/
def compresses : Instr → Bool
  | .bpOpen => false
  | .bpWriteBit _ => false
  | .bpWriteLength _ => false
  | .bpBytes => false
  | .bpClose => false
  | .buOpen => false
  | .buReadBit => false
  | .buReadLength => false
  | .buBytes => false
  | .buClose => false
  | .tsBuild => false
  | .tsSerialize => false
  | .tsDeserialize => false
  | .tsSize => false
  | .tsCodetable => false
  | .tsFreqClear => false
  | .tsFreqSet _ _ => false
  | .tsCodeGet _ => false
  | .heCompress => true
  | .hdDecompress => false
  | .tokenInternal => false
  | .tokenLeaf _ => false
  | .lengthHeader _ => false

/-- HD_DECOMPRESS alone: it writes `hd_remaining` and RAWOUT (R29, R48). -/
def decompresses : Instr → Bool
  | .bpOpen => false
  | .bpWriteBit _ => false
  | .bpWriteLength _ => false
  | .bpBytes => false
  | .bpClose => false
  | .buOpen => false
  | .buReadBit => false
  | .buReadLength => false
  | .buBytes => false
  | .buClose => false
  | .tsBuild => false
  | .tsSerialize => false
  | .tsDeserialize => false
  | .tsSize => false
  | .tsCodetable => false
  | .tsFreqClear => false
  | .tsFreqSet _ _ => false
  | .tsCodeGet _ => false
  | .heCompress => false
  | .hdDecompress => true
  | .tokenInternal => false
  | .tokenLeaf _ => false
  | .lengthHeader _ => false

/-- The commands that call a primitive the host may fail (R41 to R48). -/
def asksTheHost : Instr → Bool
  | .bpOpen => true
  | .bpWriteBit _ => true
  | .bpWriteLength _ => true
  | .bpBytes => false
  | .bpClose => true
  | .buOpen => true
  | .buReadBit => false
  | .buReadLength => false
  | .buBytes => false
  | .buClose => false
  | .tsBuild => false
  | .tsSerialize => true
  | .tsDeserialize => false
  | .tsSize => false
  | .tsCodetable => false
  | .tsFreqClear => false
  | .tsFreqSet _ _ => false
  | .tsCodeGet _ => false
  | .heCompress => true
  | .hdDecompress => true
  | .tokenInternal => true
  | .tokenLeaf _ => true
  | .lengthHeader _ => true

end Sys2Proof.Machine
end

