-- ==== Sys2Proof/Config.lean ====
section
/-! DEFINITION. What an implementation fixes (00_scope.md R5) and what the host answers freely
(20_memory.md R41 to R47). -/

namespace Sys2Proof

/-- The two open parameters of the hardware (R5, D5, D18). They are constants of a run; no operation writes
them (log entry 3). -/
structure Params where
  /-- `CNT_W`, the width of the byte counters. -/
  cntW     : Nat
  /-- `MAX_NODES`, the capacity of the tree store in nodes; odd and at least 3. -/
  maxNodes : Nat
  deriving DecidableEq, Repr

/-- The defaults of R5. -/
def Params.default : Params := { cntW := 64, maxNodes := 511 }

/-- The condition D18 sets on `MAX_NODES`. -/
def Params.wf (p : Params) : Bool := p.maxNodes % 2 == 1 && decide (3 ≤ p.maxNodes)

/-- The largest value of a byte counter, `2^CNT_W - 1` (R14, R107). -/
def Params.counterMax (p : Params) : Nat := 2 ^ p.cntW - 1

/-- `MAX_DEPTH` = (`MAX_NODES` - 1) / 2, the longest root-to-leaf path (R5). -/
def Params.maxDepth (p : Params) : Nat := (p.maxNodes - 1) / 2

/-- What the host answers to a primitive that may fail. A failing answer carries what the spec leaves open
after it: `left` is what SINK.data or RAWOUT.data holds after a failing write (U5, U7: any value), `durable`
what SINK.durable is after a failing flush (U15: any value). Which of the two is used depends on the primitive
that failed (log entries 2 and 11). -/
inductive HostAnswer where
  | ok
  | fail (left : List Byte) (durable : Bool)
  deriving DecidableEq, Repr, Inhabited

/-- FREE VALUE. The host's answer at call number `k` where its script says nothing: no body, so that no proof
can see it ("free inputs the host draws at each call", 10_state.md R33; log entry 1). -/
opaque Config.hostAnswer : Nat → HostAnswer

end Sys2Proof
end

