-- ==== Sys2Proof/WellFormed.lean ====
section
/-! DEFINITION. Which command words and stream items are legal, written from the masks and match values of the
opcode table (30_encoding.md R75), apart from the decoder. A term of `Instr` needs no further check: its
operands have the types of their fields (R73). -/

namespace Sys2Proof

/-- A row of the opcode table: a word belongs to it when its bits under `mask` are `pattern` (R75). -/
structure TableRow where
  pattern : CmdWord
  mask    : CmdWord
  deriving DecidableEq, Repr

/-- The word belongs to the row. -/
def TableRow.covers (r : TableRow) (w : CmdWord) : Bool := w &&& r.mask == r.pattern

/-- The twenty command rows of the opcode table, in its order (R71, R75). -/
def commandRows : List TableRow :=
  [ ⟨0x100000000000, 0xFFFFFFFFFFFF⟩,
    ⟨0x110000000000, 0xFFFEFFFFFFFF⟩,
    ⟨0x120000000000, 0xFFFF00000000⟩,
    ⟨0x130000000000, 0xFFFFFFFFFFFF⟩,
    ⟨0x140000000000, 0xFFFFFFFFFFFF⟩,
    ⟨0x200000000000, 0xFFFFFFFFFFFF⟩,
    ⟨0x210000000000, 0xFFFFFFFFFFFF⟩,
    ⟨0x220000000000, 0xFFFFFFFFFFFF⟩,
    ⟨0x230000000000, 0xFFFFFFFFFFFF⟩,
    ⟨0x240000000000, 0xFFFFFFFFFFFF⟩,
    ⟨0x300000000000, 0xFFFFFFFFFFFF⟩,
    ⟨0x310000000000, 0xFFFFFFFFFFFF⟩,
    ⟨0x320000000000, 0xFFFFFFFFFFFF⟩,
    ⟨0x330000000000, 0xFFFFFFFFFFFF⟩,
    ⟨0x340000000000, 0xFFFFFFFFFFFF⟩,
    ⟨0x350000000000, 0xFFFFFFFFFFFF⟩,
    ⟨0x360000000000, 0xFF0000000000⟩,
    ⟨0x370000000000, 0xFF00FFFFFFFF⟩,
    ⟨0x400000000000, 0xFFFFFFFFFFFF⟩,
    ⟨0x500000000000, 0xFFFFFFFFFFFF⟩ ]

/-- A command word is legal exactly when it belongs to a row of the table; every other word is reserved (R75). -/
def legalWord (w : CmdWord) : Bool := commandRows.any (·.covers w)

/-- A tree token is `0`, or `1` and eight symbol bits (R81, R82). -/
def legalToken : Bits → Bool
  | [] => false
  | tag :: rest => if tag then rest.length == 8 else rest.length == 0

/-- An item is legal: its word or token is; every 32-bit header value is legal (R87). -/
def Item.legal : Item → Bool
  | .command w => legalWord w
  | .treeToken bits => legalToken bits
  | .header _ => true

end Sys2Proof
end

