-- ==== Sys2Proof/Decode.lean ====
section
/-! DEFINITION. The decoder of the command interface and of the compressed stream's items, its encoder, and the
reading of a table row's bits (30_encoding.md R71 to R75, R81 to R83). -/

namespace Sys2Proof

/-- Why an item is refused by the decoder: each is a reserved encoding of R75, or no token at all (R87). -/
inductive DecodeError where
  /-- `OP` is none of the twenty opcodes of R71. -/
  | reservedOpcode
  /-- A reserved bit of `A` or `B` is not zero (R75). -/
  | reservedOperandBits
  /-- The bits are neither the token `0` nor `1` and eight symbol bits (R81, R82). -/
  | noToken
  deriving DecidableEq, Repr

/-- `OP` = w[47:40] (R72). -/
def opField (w : CmdWord) : Byte := w.extractLsb' 40 8

/-- `A` = w[39:32] (R72). -/
def aField (w : CmdWord) : Byte := w.extractLsb' 32 8

/-- `B` = w[31:0] (R72). -/
def bField (w : CmdWord) : Word32 := w.extractLsb' 0 32

/-- `v` if the reserved bits are zero, else the refusal by name (R75). -/
def guardReserved (ok : Bool) (v : Instr) : Except DecodeError Instr :=
  if ok then .ok v else .error .reservedOperandBits

/-- A command without operands: `A` and `B` are reserved (R75). -/
def noOperands (w : CmdWord) (v : Instr) : Except DecodeError Instr :=
  guardReserved (aField w == 0 && bField w == 0) v

/-- The decoder of command words (R71 to R75). -/
def decodeCommand (w : CmdWord) : Except DecodeError Instr :=
  match (opField w).toNat with
  | 0x10 => noOperands w .bpOpen
  | 0x11 => guardReserved (aField w >>> 1 == 0 && bField w == 0) (.bpWriteBit ((aField w).getLsbD 0))
  | 0x12 => guardReserved (aField w == 0) (.bpWriteLength (bField w))
  | 0x13 => noOperands w .bpBytes
  | 0x14 => noOperands w .bpClose
  | 0x20 => noOperands w .buOpen
  | 0x21 => noOperands w .buReadBit
  | 0x22 => noOperands w .buReadLength
  | 0x23 => noOperands w .buBytes
  | 0x24 => noOperands w .buClose
  | 0x30 => noOperands w .tsBuild
  | 0x31 => noOperands w .tsSerialize
  | 0x32 => noOperands w .tsDeserialize
  | 0x33 => noOperands w .tsSize
  | 0x34 => noOperands w .tsCodetable
  | 0x35 => noOperands w .tsFreqClear
  | 0x36 => .ok (.tsFreqSet (aField w) (bField w))
  | 0x37 => guardReserved (bField w == 0) (.tsCodeGet (aField w))
  | 0x40 => noOperands w .heCompress
  | 0x50 => noOperands w .hdDecompress
  | _ => .error .reservedOpcode

/-- The value of a bit sequence read most significant bit first, in 8 bits: the inverse of `msb8` (R6). -/
def byteOfBits (bits : Bits) : Byte :=
  bits.foldl (fun acc b => (acc <<< 1) ||| (BitVec.ofBool b).setWidth 8) 0

/-- `msb8(s)` = `<s[7] s[6] ... s[0]>` (R6). -/
def msb8 (s : Byte) : Bits :=
  [s.getLsbD 7, s.getLsbD 6, s.getLsbD 5, s.getLsbD 4, s.getLsbD 3, s.getLsbD 2, s.getLsbD 1, s.getLsbD 0]

/-- The tokens of the serialized tree (R81, R82, R87). -/
def decodeToken : Bits → Except DecodeError Instr
  | [] => .error .noToken
  | true :: rest => if rest.length = 8 then .ok (.tokenLeaf (byteOfBits rest)) else .error .noToken
  | false :: rest => if rest = [] then .ok .tokenInternal else .error .noToken

/-- The decoder, total on every item: every other encoding is refused by name (R75, R214). -/
def decode : Item → Except DecodeError Instr
  | .command w => decodeCommand w
  | .treeToken bits => decodeToken bits
  | .header w => .ok (.lengthHeader w)

/-- `OP A B` as one 48-bit word (R72). -/
def commandWord (op a : Byte) (b : Word32) : CmdWord := (op ++ a ++ b : BitVec (8 + 8 + 32))

/-- The encoder, written from the tables of R71, R81, R82 and R83. -/
def encode : Instr → Item
  | .bpOpen          => .command (commandWord 0x10 0 0)
  | .bpWriteBit b    => .command (commandWord 0x11 ((BitVec.ofBool b).setWidth 8) 0)
  | .bpWriteLength n => .command (commandWord 0x12 0 n)
  | .bpBytes         => .command (commandWord 0x13 0 0)
  | .bpClose         => .command (commandWord 0x14 0 0)
  | .buOpen          => .command (commandWord 0x20 0 0)
  | .buReadBit       => .command (commandWord 0x21 0 0)
  | .buReadLength    => .command (commandWord 0x22 0 0)
  | .buBytes         => .command (commandWord 0x23 0 0)
  | .buClose         => .command (commandWord 0x24 0 0)
  | .tsBuild         => .command (commandWord 0x30 0 0)
  | .tsSerialize     => .command (commandWord 0x31 0 0)
  | .tsDeserialize   => .command (commandWord 0x32 0 0)
  | .tsSize          => .command (commandWord 0x33 0 0)
  | .tsCodetable     => .command (commandWord 0x34 0 0)
  | .tsFreqClear     => .command (commandWord 0x35 0 0)
  | .tsFreqSet s c   => .command (commandWord 0x36 s c)
  | .tsCodeGet s     => .command (commandWord 0x37 s 0)
  | .heCompress      => .command (commandWord 0x40 0 0)
  | .hdDecompress    => .command (commandWord 0x50 0 0)
  | .tokenInternal   => .treeToken [false]
  | .tokenLeaf s     => .treeToken (true :: msb8 s)
  | .lengthHeader n  => .header n

/-- The lowest `k` bits of `w`, the highest of them first: the stream order of a token's bits, whose first bit
is the highest of the number the table writes (R6, R82). -/
def bitsOfNat (k w : Nat) : Bits := ((List.range k).map w.testBit).reverse

/-- The item a table row's bits stand for. A command word has 48 bits, a length header 32, a leaf token 9 and
an internal token 1; `nbits` is rounded up to whole bytes, and the bits that the rounding adds belong to no
token (log entry 6). -/
def tableItem (nbits w : Nat) : Item :=
  if nbits ≤ 8 then .treeToken (bitsOfNat 1 w)
  else if nbits ≤ 16 then .treeToken (bitsOfNat 9 w)
  else if nbits ≤ 32 then .header (BitVec.ofNat 32 w)
  else .command (BitVec.ofNat 48 w)

/-- The instruction the decoder reads from a table row's bits; none where it refuses them. -/
def decodeTableWord (nbits w : Nat) : Option Instr := (decode (tableItem nbits w)).toOption

end Sys2Proof
end

