-- ==== Sys2Proof/Machine/State.lean ====
section
/-! DEFINITION. The state of the machine as plain data: the core's registers and tables (10_state.md R10 to R24),
the host-side streams (R33), the result of the last command (30_encoding.md R74), and what the host has in store:
its coming moves and answers (70_reset_and_hazards.md R251). -/

namespace Sys2Proof.Machine

/-- The code tree: a full binary tree of symbols (00_scope.md R8, 10_state.md R20). -/
inductive Tree where
  | leaf (sym : Byte)
  | internal (left right : Tree)
  deriving DecidableEq, Repr, Inhabited

/-- `bp_status` (R11). -/
inductive BpStatus where
  | idle
  | opened
  | failed
  deriving DecidableEq, Repr

/-- `bu_status` (R15). -/
inductive BuStatus where
  | idle
  | opened
  deriving DecidableEq, Repr

/-- The statuses of 60_exceptions.md R201. -/
inductive Status where
  | ok
  | openFailure
  | writeFailure
  | truncatedStream
  | malformedTree
  | inputTooLong
  | endOfData
  deriving DecidableEq, Repr

/-- The result value of a command (R71, R74): `none` where the spec defines no value (log entry 18). The code
entry is (valid, length, bits), the bits left-aligned in `MAX_DEPTH` bits (R149). -/
inductive Value where
  | none
  | bit (b : Bool)
  | count (n : Nat)
  | length (n : Word32)
  | size (n : Nat)
  | code (valid : Bool) (length : Nat) (bits : Bits)
  deriving DecidableEq, Repr

/-- A result is a pair `(status, value)` (R74). -/
structure Result where
  status : Status
  value  : Value
  deriving DecidableEq, Repr

/-- SINK, the compressed output (R33, R41 to R43). -/
structure Sink where
  data     : List Byte
  attached : Bool
  durable  : Bool
  deriving DecidableEq, Repr

/-- SRC, the compressed input (R33, R44, R45). -/
structure Src where
  data     : List Byte
  pos      : Nat
  attached : Bool
  deriving DecidableEq, Repr

/-- RAWIN, the raw input (R33, R46). -/
structure RawIn where
  data : List Byte
  pos  : Nat
  deriving DecidableEq, Repr

/-- Where a reset that cuts a command leaves the host-side streams (93_implementation_defined.md U8: any prefix
of what the command appends, any cursor move); the host names them, `cutAdmissible` checks them (log entry 9). -/
structure Cut where
  sink   : Sink
  src    : Src
  rawIn  : RawIn
  rawOut : List Byte
  deriving DecidableEq, Repr

/-- One move of the host (70_reset_and_hazards.md R251; log entries 4, 9, 13). -/
inductive HostMove where
  /-- Present a command word (or, for the rows of the opcode table that are no commands, a stream item). -/
  | issue (item : Item)
  /-- Assert and release reset between two commands (R230). -/
  | reset
  /-- Issue an item and assert reset before it has ended (R230, U8). -/
  | resetDuring (item : Item) (cut : Cut)
  /-- Choose the bytes of SRC for the next BU_OPEN (R45). -/
  | presentSrc (data : List Byte)
  /-- Choose the raw input (R46). -/
  | presentRawIn (data : List Byte)
  /-- Supply an empty RAWOUT (R47, R231). -/
  | supplyRawOut
  /-- Release a SINK that a reset left attached (R230). -/
  | releaseSink
  /-- Release a SRC that a reset left attached (R230). -/
  | releaseSrc
  deriving DecidableEq, Repr

/-- The host's coming answers to the primitives that may fail, in call order (log entry 1): first `queue`, then
`rest` for ever, or, where `rest` is none, free values drawn with the counter `draws`. -/
structure HostScript where
  queue : List HostAnswer
  rest  : Option HostAnswer
  draws : Nat
  deriving DecidableEq, Repr

/-- The whole state. -/
structure State where
  /-- `bp_status` (R11). -/
  bpStatus : BpStatus
  /-- `bp_buf`, 8 bits (R12). -/
  bpBuf : Byte
  /-- `bp_free`, 0 to 8 (R13). -/
  bpFree : Nat
  /-- `bp_bytes` (R14). -/
  bpBytes : Nat
  /-- `bu_status` (R15). -/
  buStatus : BuStatus
  /-- `bu_buf`, 8 bits (R16). -/
  buBuf : Byte
  /-- `bu_avail`, 0 to 8 (R17). -/
  buAvail : Nat
  /-- `bu_bytes` (R18). -/
  buBytes : Nat
  /-- `freq[0..255]`, 32 bits each (R19). -/
  freq : Vector Word32 256
  /-- `tree`, NONE or a tree (R20). -/
  tree : Option Tree
  /-- `code[0..255]`, each NONE or a bit sequence (R21). -/
  code : Vector (Option Bits) 256
  /-- `he_len`, 32 bits (R23). -/
  heLen : Word32
  /-- `hd_remaining`, 32 bits (R24). -/
  hdRemaining : Word32
  /-- SINK (R33). -/
  sink : Sink
  /-- SRC (R33). -/
  src : Src
  /-- RAWIN (R33). -/
  rawIn : RawIn
  /-- RAWOUT.data (R33). -/
  rawOut : List Byte
  /-- The model's own field: the result of the last command (R70, R74; log entry 7). -/
  result : Option Result
  /-- The model's own field: the parameters, never written (log entry 3). -/
  params : Params
  /-- The model's own field: the host's coming moves, one a step (log entry 4). -/
  inbox : List HostMove
  /-- The model's own field: the host's coming answers (log entry 1). -/
  host : HostScript
  deriving DecidableEq, Repr

/-- Why the machine stops with a fault. There is no such reason: every error of this hardware is a status that a
command returns (60_exceptions.md R200), and nothing in it is stuck (93_implementation_defined.md, part 1). -/
inductive Fault where
  deriving DecidableEq, Repr

/-- Why the model gives a step no meaning. Apart from `notModelled` each is a row of the refusal table R215 (or a
host move the spec says the host is assumed never to make), and each is SAFE: nothing is proved of such a run. -/
inductive Refusal where
  /-- An instruction without a meaning; raised by no arm of `exec`. Safe. -/
  | notModelled (mnemonic : String)
  /-- A reserved command word or a bit sequence that is no token (R75); raised by `step`. Safe. -/
  | reservedEncoding (why : DecodeError)
  /-- A data command or close with `bp_status` = IDLE (R102, R103, R105, R152, R171). Safe. -/
  | writeChannelIdle
  /-- BP_OPEN with `bp_status` not IDLE (R101). Safe. -/
  | writeChannelInUse
  /-- A data command or close with `bu_status` = IDLE (R122, R123, R125, R153, R186). Safe. -/
  | readChannelIdle
  /-- BU_OPEN with `bu_status` not IDLE (R121). Safe. -/
  | readChannelInUse
  /-- TS_SERIALIZE, TS_SIZE or TS_CODETABLE with `tree` = NONE (R148, R152, R156). Safe. -/
  | noTree
  /-- TS_BUILD needing more than `MAX_NODES` nodes (R143). Safe. -/
  | treeStoreTooSmall
  /-- A step that would carry a byte counter past `2^CNT_W - 1` (R107, R120). Safe. -/
  | byteCounterFull
  /-- A symbol without a code in step 6 of HE_COMPRESS (R171, R175). Safe. -/
  | symbolWithoutCode
  /-- A host move the spec gives the host no leave for (R245, R251): changing an attached SRC, releasing a stream
  a unit still owns, or a cut that is at no point of the command; raised by `step`. Safe. -/
  | notAHostMove
  deriving DecidableEq, Repr

/-- The machine right after reset: the registers as R34 gives them. The host-side streams, which reset does not
touch, are empty and detached (log entry 8); the model's own fields as log entries 1, 3, 4 and 7 say. -/
def State.reset : State where
  bpStatus := .idle
  bpBuf := 0
  bpFree := 8
  bpBytes := 0
  buStatus := .idle
  buBuf := 0
  buAvail := 0
  buBytes := 0
  freq := Vector.replicate 256 0
  tree := none
  code := Vector.replicate 256 none
  heLen := 0
  hdRemaining := 0
  sink := ⟨[], false, false⟩
  src := ⟨[], 0, false⟩
  rawIn := ⟨[], 0⟩
  rawOut := []
  result := none
  params := Params.default
  inbox := []
  host := ⟨[], none, 0⟩

end Sys2Proof.Machine
end

