-- ==== Sys2Proof/Machine/Ops.lean ====
section
/-! DEFINITION. The named operations: the one place where each register is written, how a command ends, and the ten
storage primitives of 20_memory.md R41 to R47. -/

namespace Sys2Proof.Machine

/-! ## Register writes, one function a register (or a pair that the rules always write together) -/

/-- Write `bp_status`. -/
def State.setBpStatus (s : State) (v : BpStatus) : State := { s with bpStatus := v }
/-- Write `bp_buf` and `bp_free`. -/
def State.setBpBuffer (s : State) (buf : Byte) (free : Nat) : State := { s with bpBuf := buf, bpFree := free }
/-- Write `bp_bytes`. -/
def State.setBpBytes (s : State) (v : Nat) : State := { s with bpBytes := v }
/-- Write `bu_status`. -/
def State.setBuStatus (s : State) (v : BuStatus) : State := { s with buStatus := v }
/-- Write `bu_buf` and `bu_avail`. -/
def State.setBuBuffer (s : State) (buf : Byte) (avail : Nat) : State := { s with buBuf := buf, buAvail := avail }
/-- Write `bu_bytes`. -/
def State.setBuBytes (s : State) (v : Nat) : State := { s with buBytes := v }
/-- Write the table `freq`. -/
def State.setFreq (s : State) (v : Vector Word32 256) : State := { s with freq := v }
/-- Write `tree`. -/
def State.setTree (s : State) (v : Option Tree) : State := { s with tree := v }
/-- Write the table `code`. -/
def State.setCode (s : State) (v : Vector (Option Bits) 256) : State := { s with code := v }
/-- Write `he_len`. -/
def State.setHeLen (s : State) (v : Word32) : State := { s with heLen := v }
/-- Write `hd_remaining`. -/
def State.setHdRemaining (s : State) (v : Word32) : State := { s with hdRemaining := v }
/-- Change SINK. -/
def State.setSink (s : State) (v : Sink) : State := { s with sink := v }
/-- Change SRC. -/
def State.setSrc (s : State) (v : Src) : State := { s with src := v }
/-- Change RAWIN. -/
def State.setRawIn (s : State) (v : RawIn) : State := { s with rawIn := v }
/-- Change RAWOUT. -/
def State.setRawOut (s : State) (v : List Byte) : State := { s with rawOut := v }
/-- Record the result of a command. -/
def State.setResult (s : State) (v : Option Result) : State := { s with result := v }
/-- Change what the host will do next. -/
def State.setInbox (s : State) (v : List HostMove) : State := { s with inbox := v }
/-- Change what the host will answer next. -/
def State.setHost (s : State) (v : HostScript) : State := { s with host := v }

/-- `freq[sym]`. -/
def State.freqAt (s : State) (sym : Byte) : Word32 := s.freq[sym.toNat]'sym.isLt
/-- `freq[sym] <- v`. -/
def State.setFreqAt (s : State) (sym : Byte) (v : Word32) : State := s.setFreq (s.freq.set sym.toNat v sym.isLt)
/-- `code[sym]`. -/
def State.codeAt (s : State) (sym : Byte) : Option Bits := s.code[sym.toNat]'sym.isLt
/-- `for s in 0..255: code[s] <- NONE` (R143, R153). -/
def State.clearCode (s : State) : State := s.setCode (Vector.replicate 256 none)

/-! ## How a piece of pseudocode ends (00_scope.md R7, 60_exceptions.md R206, R214) -/

/-- A piece of pseudocode runs on to the next line with a value (`ret`), ends the command with a status (`raise`,
R206), or comes to a line that has no meaning (`refuse`, R214); each with the state reached so far. The state at a
`refuse` is seen by nothing but a reset that cuts the command ahead of that line (R230). -/
inductive Flow (α : Type) where
  | ret (a : α) (s : State)
  | raise (e : Status) (s : State)
  | refuse (r : Refusal) (s : State)

/-- The next line of the pseudocode: it runs only after a `ret`; a `raise` or `refuse` of a sub-operation ends the
composite command too (R7). -/
def Flow.bind {α β : Type} (x : Flow α) (f : α → State → Flow β) : Flow β :=
  match x with
  | .ret a s => f a s
  | .raise e s => .raise e s
  | .refuse r s => .refuse r s

/-- The end of a command: its result is recorded and the state is what the lines that ran have made of it. This is
all that "taking an exception" is on this hardware (R206: nothing is saved, no handler, no mode); there is no
return from one (R211). -/
def Flow.finish (x : Flow Value) : Host.Outcome State Fault Refusal :=
  match x with
  | .ret v s => .next (s.setResult (some ⟨.ok, v⟩))
  | .raise e s => .next (s.setResult (some ⟨e, .none⟩))
  | .refuse r _ => .refused r

/-- The state the lines that ran have reached. -/
def Flow.reached {α : Type} (x : Flow α) : State :=
  match x with
  | .ret _ s => s
  | .raise _ s => s
  | .refuse _ s => s

/-! ## The host's answers -/

/-- The answer the host gives to the next primitive that may fail. -/
def HostScript.answer (h : HostScript) : HostAnswer :=
  match h.queue with
  | a :: _ => a
  | [] =>
    match h.rest with
    | some a => a
    | none => Config.hostAnswer h.draws

/-- The script after that answer. -/
def HostScript.advance (h : HostScript) : HostScript := { h with queue := h.queue.tail, draws := h.draws + 1 }

/-- The script of a storage that never fails. -/
def HostScript.allOk : HostScript := ⟨[], some .ok, 0⟩

/-- The answer drawn by the next primitive. -/
def State.answer (s : State) : HostAnswer := s.host.answer

/-- The state after one answer has been drawn. -/
def State.drawn (s : State) : State := s.setHost s.host.advance

/-! ## The storage primitives (20_memory.md R41 to R47): the answer (`true` is ok) and the state after it -/

/-- `SinkOpen()` (R41): on ok an empty attached stream, on fail SINK is unchanged. -/
def State.sinkOpen (s : State) : Bool × State :=
  match s.answer with
  | .ok => (true, s.drawn.setSink ⟨[], true, false⟩)
  | .fail _ _ => (false, s.drawn)

/-- `SinkWrite(b)` (R42): on ok the byte is appended; on fail SINK.data is what the host's answer says (U5). -/
def State.sinkWrite (s : State) (b : Byte) : Bool × State :=
  match s.answer with
  | .ok => (true, s.drawn.setSink { s.sink with data := s.sink.data ++ [b], durable := false })
  | .fail left _ => (false, s.drawn.setSink { s.sink with data := left })

/-- `SinkFlush()` (R43): on ok every byte is in storage; on fail SINK.durable is what the host's answer says (U15). -/
def State.sinkFlush (s : State) : Bool × State :=
  match s.answer with
  | .ok => (true, s.drawn.setSink { s.sink with durable := true })
  | .fail _ durable => (false, s.drawn.setSink { s.sink with durable := durable })

/-- `SinkRelease()` (R43): always succeeds. -/
def State.sinkRelease (s : State) : State := s.setSink { s.sink with attached := false }

/-- `SrcOpen()` (R45): on ok SRC is attached with its cursor at 0. -/
def State.srcOpen (s : State) : Bool × State :=
  match s.answer with
  | .ok => (true, s.drawn.setSrc { s.src with pos := 0, attached := true })
  | .fail _ _ => (false, s.drawn)

/-- `SrcRead()` (R44): the next byte, or none at the end of the stream, which changes nothing. -/
def State.srcRead (s : State) : Option Byte × State :=
  match s.src.data[s.src.pos]? with
  | some b => (some b, s.setSrc { s.src with pos := s.src.pos + 1 })
  | none => (none, s)

/-- `SrcRelease()` (R45): always succeeds. -/
def State.srcRelease (s : State) : State := s.setSrc { s.src with attached := false }

/-- `RawInRewind()` (R46). -/
def State.rawInRewind (s : State) : State := s.setRawIn { s.rawIn with pos := 0 }

/-- `RawInRead()` (R46): the next byte, or none at the end of the input, which changes nothing. -/
def State.rawInRead (s : State) : Option Byte × State :=
  match s.rawIn.data[s.rawIn.pos]? with
  | some b => (some b, s.setRawIn { s.rawIn with pos := s.rawIn.pos + 1 })
  | none => (none, s)

/-- `RawOutWrite(b)` (R47): on ok the byte is appended; on fail RAWOUT.data is what the host's answer says (U7). -/
def State.rawOutWrite (s : State) (b : Byte) : Bool × State :=
  match s.answer with
  | .ok => (true, s.drawn.setRawOut (s.rawOut ++ [b]))
  | .fail left _ => (false, s.drawn.setRawOut left)

end Sys2Proof.Machine
end

