-- ==== Sys2Proof/Machine/Flags.lean ====
section
/-! DEFINITION. The hardware has no flag register; what takes its place are the predicates of 10_state.md R28, which
are functions of the state, and the counter guard of 40_bit_packer.md R107 and 41_bit_unpacker.md R120. -/

namespace Sys2Proof.Machine

/-- "buffer full": `bp_free = 0` (R28). -/
def State.bufferFull (s : State) : Bool := s.bpFree == 0

/-- "bits accumulated since the last flush": `bp_free < 8` (R28). -/
def State.bitsAccumulated (s : State) : Bool := decide (s.bpFree < 8)

/-- "no bits remain buffered": `bu_avail = 0` (R28). -/
def State.noBitsBuffered (s : State) : Bool := s.buAvail == 0

/-- "tree valid": `tree != NONE` (R28). -/
def State.treeValid (s : State) : Bool := s.tree.isSome

/-- `bp_bytes` cannot be incremented within its width (R107). -/
def State.bpCounterFull (s : State) : Bool := decide (s.params.counterMax ≤ s.bpBytes)

/-- `bu_bytes` cannot be incremented within its width: `guard_bu_bytes` refuses (R120). -/
def State.buCounterFull (s : State) : Bool := decide (s.params.counterMax ≤ s.buBytes)

end Sys2Proof.Machine
end

