-- ==== Sys2Proof/Machine/Operands.lean ====
section
/-! DEFINITION. Operand and value forms: the bytes of a length (20_memory.md R51), one bit in a byte position
(40_bit_packer.md R102), the packing of bits into bytes (00_scope.md R8) the code entry of TS_CODE_GET
(R149) and the numbers of the statuses (30_encoding.md R74). -/

namespace Sys2Proof.Machine

/-- `be32(n)` = `n[31:24] n[23:16] n[15:8] n[7:0]` (R6, R51). -/
def be32 (n : Word32) : List Byte :=
  [n.extractLsb' 24 8, n.extractLsb' 16 8, n.extractLsb' 8 8, n.extractLsb' 0 8]

/-- `bit << k` in a byte (R102). -/
def bitAt (b : Bool) (k : Nat) : Byte := (BitVec.ofBool b).setWidth 8 <<< k

/-- `(n << 8) | r` in 32 bits (R123). -/
def appendByte (n : Word32) (r : Byte) : Word32 := (n <<< 8) ||| r.setWidth 32

/-- Byte `k` of `pack(bits)`: bit position `7 - j` holds `bits[8k + j]`, and 0 past the end (R8). -/
def packByte (bits : Bits) (k : Nat) : Byte :=
  byteOfBits ((List.range 8).map fun j => bits.getD (8 * k + j) false)

/-- `pack(bits)`: ceil(|bits| / 8) bytes (R8). -/
def pack (bits : Bits) : List Byte := (List.range ((bits.length + 7) / 8)).map (packByte bits)

/-- `code[sym]` left-aligned in `width` bits, zero filled (R149). -/
def leftAligned (width : Nat) (bits : Bits) : Bits := bits ++ List.replicate (width - bits.length) false

/-- The value TS_CODE_GET returns for an entry of the code table (R74, R149). -/
def codeValue (maxDepth : Nat) : Option Bits → Value
  | none => .code false 0 (List.replicate maxDepth false)
  | some bits => .code true bits.length (leftAligned maxDepth bits)

/-- The numeric code of a status (30_encoding.md R74, 60_exceptions.md R201, D22). -/
def Status.code : Status → Nat
  | .ok => 0
  | .openFailure => 1
  | .writeFailure => 2
  | .truncatedStream => 3
  | .malformedTree => 4
  | .inputTooLong => 5
  | .endOfData => 6

end Sys2Proof.Machine
end

