-- ==== Sys2Proof/Machine/Packer.lean ====
section
/-! DEFINITION. The bit_packer's commands (40_bit_packer.md R100 to R107), and the three stream items whose meaning
is their emission through it (30_encoding.md R81 to R83). -/

namespace Sys2Proof.Machine

/-- `BpFlush()` (R100): the buffered byte goes to SINK; on a failing write only `bp_status` changes. -/
def bpFlush (s : State) : Flow Unit :=
  if s.bpCounterFull then .refuse .byteCounterFull s
  else
    match s.sinkWrite s.bpBuf with
    | (true, s) => .ret () ((s.setBpBytes (s.bpBytes + 1)).setBpBuffer 0 8)
    | (false, s) => .raise .writeFailure (s.setBpStatus .failed)

/-- The test that opens BP_WRITE_BIT and BP_WRITE_LENGTH: refused on an IDLE channel, `WriteFailure` without any
storage access on a FAILED one (R102, R103, R106). -/
def bpWritable (s : State) : Flow Unit :=
  match s.bpStatus with
  | .idle => .refuse .writeChannelIdle s
  | .failed => .raise .writeFailure s
  | .opened => .ret () s

/-- The insertion of R102: the bit goes to position `bp_free - 1`. -/
def insertBit (b : Bool) (s : State) : State := s.setBpBuffer (s.bpBuf ||| bitAt b (s.bpFree - 1)) (s.bpFree - 1)

/-- BP_WRITE_BIT as a sub-operation (R102). -/
def writeBit (b : Bool) (s : State) : Flow Unit :=
  (bpWritable s).bind fun _ s =>
    (if s.bufferFull then bpFlush s else .ret () s).bind fun _ s => .ret () (insertBit b s)

/-- A run of BP_WRITE_BIT, stopping at the first that does not return OK (R76, R152, R171). -/
def writeBits : Bits → State → Flow Unit
  | [], s => .ret () s
  | b :: bs, s => (writeBit b s).bind fun _ s => writeBits bs s

/-- One byte of a length, straight to SINK (R103). -/
def writeByte (b : Byte) (s : State) : Flow Unit :=
  if s.bpCounterFull then .refuse .byteCounterFull s
  else
    match s.sinkWrite b with
    | (true, s) => .ret () (s.setBpBytes (s.bpBytes + 1))
    | (false, s) => .raise .writeFailure (s.setBpStatus .failed)

/-- The bytes of a length in order (R103). -/
def writeBytes : List Byte → State → Flow Unit
  | [], s => .ret () s
  | b :: bs, s => (writeByte b s).bind fun _ s => writeBytes bs s

/-- BP_WRITE_LENGTH as a sub-operation (R103): align, then four bytes, most significant first. -/
def writeLength (n : Word32) (s : State) : Flow Unit :=
  (bpWritable s).bind fun _ s =>
    (if s.bitsAccumulated then bpFlush s else .ret () s).bind fun _ s => writeBytes (be32 n) s

/-- The release that ends every BP_CLOSE (R105). -/
def bpRelease (s : State) : State := s.sinkRelease.setBpStatus .idle

/-- The last byte of BP_CLOSE, if bits have been accumulated since the last flush (R105). -/
def closeLastByte (s : State) : Flow Unit :=
  if s.bitsAccumulated then
    if s.bpCounterFull then .refuse .byteCounterFull s
    else
      match s.sinkWrite s.bpBuf with
      | (true, s) => .ret () ((s.setBpBytes (s.bpBytes + 1)).setBpBuffer 0 8)
      | (false, s) => .raise .writeFailure (bpRelease s)
  else .ret () s

/-- The storage flush and release of BP_CLOSE (R105). -/
def closeStorage (s : State) : Flow Unit :=
  match s.sinkFlush with
  | (true, s) => .ret () (bpRelease s)
  | (false, s) => .raise .writeFailure (bpRelease s)

/-- BP_CLOSE as a sub-operation (R105). -/
def bpClose (s : State) : Flow Unit :=
  match s.bpStatus with
  | .idle => .refuse .writeChannelIdle s
  | .failed => .raise .writeFailure (bpRelease s)
  | .opened => (closeLastByte s).bind fun _ s => closeStorage s

/-! ## The commands -/

/-- What BP_OPEN does once the channel is known to be IDLE (R101). -/
def bpOpened (s : State) : Bool × State :=
  match s.sinkOpen with
  | (true, s) => (true, ((s.setBpStatus .opened).setBpBuffer 0 8).setBpBytes 0)
  | (false, s) => (false, s)

/-- BP_OPEN (R101). Whether it returns OK or `OpenFailure`, the command ends with a result. -/
def execBpOpen (s : State) : Host.Outcome State Fault Refusal :=
  match s.bpStatus with
  | .idle =>
    .next ((bpOpened s).2.setResult
      (some ⟨match (bpOpened s).1 with | true => .ok | false => .openFailure, .none⟩))
  | .opened => .refused .writeChannelInUse
  | .failed => .refused .writeChannelInUse

/-- BP_WRITE_BIT (R102): the result is the bit written. -/
def execBpWriteBit (bit : Bool) (s : State) : Host.Outcome State Fault Refusal :=
  ((writeBit bit s).bind fun _ s => .ret (.bit bit) s).finish

/-- BP_WRITE_LENGTH (R103). -/
def execBpWriteLength (n : Word32) (s : State) : Host.Outcome State Fault Refusal :=
  ((writeLength n s).bind fun _ s => .ret .none s).finish

/-- BP_BYTES (R104): legal in every `bp_status`. -/
def execBpBytes (s : State) : Host.Outcome State Fault Refusal := (Flow.ret (.count s.bpBytes) s).finish

/-- BP_CLOSE (R105). -/
def execBpClose (s : State) : Host.Outcome State Fault Refusal :=
  ((bpClose s).bind fun _ s => .ret .none s).finish

/-! ## The stream items (log entry 5) -/

/-- Emit an Internal node's token: "a single `0` bit" (R81, R152). -/
def emitInternal (s : State) : Flow Unit := writeBit false s

/-- Emit a Leaf's token: a `1` bit, then the symbol's eight bits, most significant first (R82, R152). -/
def emitLeaf (sym : Byte) (s : State) : Flow Unit :=
  (writeBit true s).bind fun _ s => writeBits (msb8 sym) s

/-- TOKEN_INTERNAL (R81): the item is emitted on the write channel. -/
def execTokenInternal (s : State) : Host.Outcome State Fault Refusal :=
  ((emitInternal s).bind fun _ s => .ret .none s).finish

/-- TOKEN_LEAF (R82): the item is emitted on the write channel. -/
def execTokenLeaf (sym : Byte) (s : State) : Host.Outcome State Fault Refusal :=
  ((emitLeaf sym s).bind fun _ s => .ret .none s).finish

/-- LENGTH_HEADER (R83): the header is written as four whole bytes on a byte boundary, as R103 does it. -/
def execLengthHeader (n : Word32) (s : State) : Host.Outcome State Fault Refusal :=
  ((writeLength n s).bind fun _ s => .ret .none s).finish

end Sys2Proof.Machine
end

