-- ==== Sys2Proof/Machine/Tree.lean ====
section
/-! DEFINITION. The pure functions on trees (00_scope.md R8) and the build from frequencies
(42_canonical_tree_serializer.md R143 to R146). -/

namespace Sys2Proof.Machine

/-- `nodes(t)` (R8). -/
def Tree.nodes : Tree → Nat
  | .leaf _ => 1
  | .internal l r => 1 + l.nodes + r.nodes

/-- `leaves(t)` (R8). -/
def Tree.leaves : Tree → Nat
  | .leaf _ => 1
  | .internal l r => l.leaves + r.leaves

/-- `depth(t)` (R8). -/
def Tree.depth : Tree → Nat
  | .leaf _ => 0
  | .internal l r => 1 + max l.depth r.depth

/-- `ser(t)`, the pre-order bit form (R8, R81, R82). -/
def Tree.ser : Tree → Bits
  | .leaf s => true :: msb8 s
  | .internal l r => false :: (l.ser ++ r.ser)

/-- `size(t)` = `nodes(t) + 8 * leaves(t)` (R8, R156). -/
def Tree.size (t : Tree) : Nat := t.nodes + 8 * t.leaves

/-- `paths(t)`: each leaf's symbol and path in pre-order, 0 for left and 1 for right (R8). -/
def Tree.paths : Tree → List (Byte × Bits)
  | .leaf s => [(s, [])]
  | .internal l r =>
    l.paths.map (fun e => (e.1, false :: e.2)) ++ r.paths.map (fun e => (e.1, true :: e.2))

/-- `table(t)(s)`: the path of the first leaf that holds `s`, or none (R8, R148). -/
def Tree.table (t : Tree) (s : Byte) : Option Bits :=
  match t.paths.find? (fun e => e.1 == s) with
  | some e => some e.2
  | none => none

/-- The whole code table of a tree (R148). -/
def Tree.codeTable (t : Tree) : Vector (Option Bits) 256 := Vector.ofFn fun i => t.table (BitVec.ofFin i)

/-! ## The build -/

/-- An entry of the build's priority list (R26, R144): frequency (exact, log entry 17), sequence number, subtree. -/
structure Entry where
  f    : Nat
  seq  : Nat
  tree : Tree
  deriving DecidableEq, Repr

/-- `a` comes before `b`: by frequency, then by sequence number (R144). -/
def Entry.before (a b : Entry) : Bool := a.f < b.f || (a.f == b.f && a.seq < b.seq)

/-- The least entry of `e :: rest` and the list without it (R144: "remove a from L"). -/
def extractLeast (e : Entry) : List Entry → Entry × List Entry
  | [] => (e, [])
  | x :: rest =>
    if x.before e then ((extractLeast x rest).1, e :: (extractLeast x rest).2)
    else ((extractLeast e rest).1, x :: (extractLeast e rest).2)

/-- The loop of R144 on the list `e :: rest` with the next sequence number: one round joins the two least entries,
the first extracted on the left. The first argument counts the rounds left, one fewer than the entries. -/
def combine : Nat → Nat → Entry → List Entry → Tree
  | 0, _, e, _ => e.tree
  | k + 1, next, e, rest =>
    match extractLeast e rest with
    | (a, []) => a.tree
    | (a, x :: more) =>
      combine k (next + 1)
        ⟨a.f + (extractLeast x more).1.f, next, .internal a.tree (extractLeast x more).1.tree⟩
        (extractLeast x more).2

/-- The symbols of a frequency table in ascending order: the indexes `s` with `freq[s] > 0` (R143). -/
def symbolsOf (freq : Vector Word32 256) : List Byte :=
  (freq.toList.zipIdx.filter fun e => e.1 != 0).map fun e => BitVec.ofNat 8 e.2

/-- The placeholder tree on one symbol (R145, R146). -/
def placeholder (s : Byte) : Tree := .internal (.leaf s) (.leaf s)

/-- The leaves as first entries: in ascending symbol order, numbered from `k` (R144). -/
def leafEntries (freq : Vector Word32 256) : Nat → List Byte → List Entry
  | _, [] => []
  | k, s :: rest => ⟨(freq[s.toNat]'s.isLt).toNat, k, .leaf s⟩ :: leafEntries freq (k + 1) rest

/-- The tree TS_BUILD makes of a list of symbols and their frequencies (R144 to R146). -/
def treeOfSymbols (freq : Vector Word32 256) : List Byte → Tree
  | [] => placeholder 0
  | [s] => placeholder s
  | s :: s' :: rest =>
    combine (rest.length + 1) (rest.length + 2) ⟨(freq[s.toNat]'s.isLt).toNat, 0, .leaf s⟩
      (leafEntries freq 1 (s' :: rest))

/-- The tree TS_BUILD makes of a frequency table (R143). -/
def buildTree (freq : Vector Word32 256) : Tree := treeOfSymbols freq (symbolsOf freq)

/-! ## The file -/

/-- The code words of a symbol sequence, one after the other (R80); a symbol without a code adds nothing. -/
def codeWords (t : Tree) (syms : List Byte) : Bits := syms.flatMap fun s => (t.table s).getD []

/-- `file(S, t)` = `pack(ser(t)) ++ be32(N) ++ pack(code words)` (R80). -/
def fileOf (t : Tree) (syms : List Byte) : List Byte :=
  pack t.ser ++ be32 (BitVec.ofNat 32 syms.length) ++ pack (codeWords t syms)

end Sys2Proof.Machine
end

