-- ==== Sys2Proof/Machine/Unpacker.lean ====
section
/-! DEFINITION. The bit_unpacker's commands (41_bit_unpacker.md R120 to R125). -/

namespace Sys2Proof.Machine

/-- The test that opens the data commands: refused on an IDLE channel (R122, R123, R125). -/
def buReadable (s : State) : Flow Unit :=
  match s.buStatus with
  | .idle => .refuse .readChannelIdle s
  | .opened => .ret () s

/-- The fetch of BU_READ_BIT (R122): true when a byte stands in the buffer, false at the end of the stream, which
changes nothing. -/
def fetchByte (s : State) : Flow Bool :=
  if s.buCounterFull then .refuse .byteCounterFull s
  else
    match s.srcRead with
    | (some r, s) => .ret true ((s.setBuBuffer r 8).setBuBytes (s.buBytes + 1))
    | (none, s) => .ret false s

/-- The extraction of BU_READ_BIT (R122): bit 7 out, the buffer shifted left by one. -/
def extractBit (s : State) : Flow (Option Bool) :=
  .ret (some (s.buBuf.getLsbD 7)) (s.setBuBuffer (s.buBuf <<< 1) (s.buAvail - 1))

/-- BU_READ_BIT as a sub-operation (R122): the bit, or none for the signal `EndOfData`, which a composite command
receives as an ordinary answer (R7). -/
def readBit (s : State) : Flow (Option Bool) :=
  (buReadable s).bind fun _ s =>
    (if s.noBitsBuffered then fetchByte s else .ret true s).bind fun more s =>
      if more then extractBit s else .ret none s

/-- The bytes of BU_READ_LENGTH (R123): `k` of them are still to be taken. -/
def takeLengthBytes : Nat → Word32 → State → Flow Word32
  | 0, n, s => .ret n s
  | k + 1, n, s =>
    if s.buCounterFull then .refuse .byteCounterFull s
    else
      match s.srcRead with
      | (some r, s) => takeLengthBytes k (appendByte n r) (s.setBuBytes (s.buBytes + 1))
      | (none, s) => .raise .truncatedStream s

/-- BU_READ_LENGTH as a sub-operation (R123): drop the unread bits, then take four bytes. -/
def readLength (s : State) : Flow Word32 :=
  (buReadable s).bind fun _ s => takeLengthBytes 4 0 (s.setBuBuffer 0 0)

/-- BU_CLOSE as a sub-operation (R125): the handle is released, the other registers keep their values. -/
def buClose (s : State) : Flow Unit :=
  (buReadable s).bind fun _ s => .ret () (s.srcRelease.setBuStatus .idle)

/-! ## The commands -/

/-- What BU_OPEN does once the channel is known to be IDLE (R121). -/
def buOpened (s : State) : Bool × State :=
  match s.srcOpen with
  | (true, s) => (true, ((s.setBuStatus .opened).setBuBuffer 0 0).setBuBytes 0)
  | (false, s) => (false, s)

/-- BU_OPEN (R121). Whether it returns OK or `OpenFailure`, the command ends with a result. -/
def execBuOpen (s : State) : Host.Outcome State Fault Refusal :=
  match s.buStatus with
  | .idle =>
    .next ((buOpened s).2.setResult
      (some ⟨match (buOpened s).1 with | true => .ok | false => .openFailure, .none⟩))
  | .opened => .refused .readChannelInUse

/-- BU_READ_BIT (R122): the bit, or the status `EndOfData`. -/
def execBuReadBit (s : State) : Host.Outcome State Fault Refusal :=
  ((readBit s).bind fun r s =>
    match r with
    | some b => .ret (.bit b) s
    | none => .raise .endOfData s).finish

/-- BU_READ_LENGTH (R123). -/
def execBuReadLength (s : State) : Host.Outcome State Fault Refusal :=
  ((readLength s).bind fun n s => .ret (.length n) s).finish

/-- BU_BYTES (R124): legal in every `bu_status`. -/
def execBuBytes (s : State) : Host.Outcome State Fault Refusal := (Flow.ret (.count s.buBytes) s).finish

/-- BU_CLOSE (R125). -/
def execBuClose (s : State) : Host.Outcome State Fault Refusal :=
  ((buClose s).bind fun _ s => .ret .none s).finish

end Sys2Proof.Machine
end

