-- ==== Sys2Proof/Machine/Serializer.lean ====
section
/-! DEFINITION. The canonical_tree_serializer's commands (42_canonical_tree_serializer.md R140 to R156). -/

namespace Sys2Proof.Machine

/-- TS_FREQ_CLEAR as a sub-operation (R141). -/
def freqCleared (s : State) : State := s.setFreq (Vector.replicate 256 0)

/-- TS_BUILD as a sub-operation (R143): `code` is cleared with every write of `tree` (R21). -/
def build (s : State) : Flow Unit :=
  if 2 * (symbolsOf s.freq).length > s.params.maxNodes + 1 then .refuse .treeStoreTooSmall s
  else .ret () (s.clearCode.setTree (some (buildTree s.freq)))

/-- The tree, refused where there is none (R148, R152, R156). -/
def theTree (s : State) : Flow Tree :=
  match s.tree with
  | none => .refuse .noTree s
  | some t => .ret t s

/-- `emit(t)` of R152: the pre-order walk, one token a node. -/
def emit : Tree → State → Flow Unit
  | .leaf sym, s => emitLeaf sym s
  | .internal l r, s => (emitInternal s).bind fun _ s => (emit l s).bind fun _ s => emit r s

/-- TS_SERIALIZE as a sub-operation (R152). -/
def serialize (s : State) : Flow Unit := (theTree s).bind fun t s => emit t s

/-- TS_CODETABLE as a sub-operation (R148). -/
def makeCodeTable (s : State) : Flow Unit := (theTree s).bind fun t s => .ret () (s.setCode t.codeTable)

/-- The symbol bits of a leaf token, `k` of them still to be read into `acc`, most significant first; the end of the
stream among them is `MalformedTree` (R153). -/
def readSymbol : Nat → Byte → State → Flow Byte
  | 0, acc, s => .ret acc s
  | k + 1, acc, s =>
    (readBit s).bind fun r s =>
      match r with
      | none => .raise .malformedTree s
      | some b => readSymbol k ((acc <<< 1) ||| bitAt b 0) s

/-- `parse()` of R153, with the count of nodes begun so far; it answers the subtree and the count after it. The
first argument bounds the depth of the recursion: it is never used up when it exceeds `MAX_NODES - count`, since
the capacity test (R154) comes first (log entry 12). -/
def parse : Nat → Nat → State → Flow (Tree × Nat)
  | 0, _, s => .raise .malformedTree s
  | fuel + 1, count, s =>
    (readBit s).bind fun r s =>
      match r with
      | none => .raise .truncatedStream s
      | some tag =>
        if count ≥ s.params.maxNodes then .raise .malformedTree s
        else if tag then (readSymbol 8 0 s).bind fun sym s => .ret (.leaf sym, count + 1) s
        else
          (parse fuel (count + 1) s).bind fun l s =>
            (parse fuel l.2 s).bind fun r s => .ret (.internal l.1 r.1, r.2) s

/-- TS_DESERIALIZE as a sub-operation (R153); it answers the tree it has stored. -/
def deserialize (s : State) : Flow Tree :=
  (buReadable s).bind fun _ s =>
    (parse (s.params.maxNodes + 1) 0 (s.setTree none).clearCode).bind fun t s => .ret t.1 (s.setTree (some t.1))

/-! ## The commands -/

/-- TS_FREQ_CLEAR (R141). -/
def execTsFreqClear (s : State) : Host.Outcome State Fault Refusal := (Flow.ret .none (freqCleared s)).finish

/-- TS_FREQ_SET (R142). -/
def execTsFreqSet (sym : Byte) (count : Word32) (s : State) : Host.Outcome State Fault Refusal :=
  (Flow.ret .none (s.setFreqAt sym count)).finish

/-- TS_BUILD (R143). -/
def execTsBuild (s : State) : Host.Outcome State Fault Refusal := ((build s).bind fun _ s => .ret .none s).finish

/-- TS_CODETABLE (R148). -/
def execTsCodetable (s : State) : Host.Outcome State Fault Refusal :=
  ((makeCodeTable s).bind fun _ s => .ret .none s).finish

/-- TS_CODE_GET (R149): the table as it stands. -/
def execTsCodeGet (sym : Byte) (s : State) : Host.Outcome State Fault Refusal :=
  (Flow.ret (codeValue s.params.maxDepth (s.codeAt sym)) s).finish

/-- TS_SERIALIZE (R152). -/
def execTsSerialize (s : State) : Host.Outcome State Fault Refusal :=
  ((serialize s).bind fun _ s => .ret .none s).finish

/-- TS_DESERIALIZE (R153, R154). -/
def execTsDeserialize (s : State) : Host.Outcome State Fault Refusal :=
  ((deserialize s).bind fun _ s => .ret .none s).finish

/-- TS_SIZE (R156). -/
def execTsSize (s : State) : Host.Outcome State Fault Refusal :=
  ((theTree s).bind fun t s => .ret (.size t.size) s).finish

end Sys2Proof.Machine
end

