-- ==== Sys2Proof/Machine/Codec.lean ====
section
/-! DEFINITION. The huffman_encoder (43_huffman_encoder.md R171) and the huffman_decoder (44_huffman_decoder.md R186,
R187). -/

namespace Sys2Proof.Machine

/-! ## HE_COMPRESS -/

/-- The loop of step 1 of R171 over the bytes RAWIN still has to give: each round is one RawInRead, and the end of
the list is its EOS. -/
def scan : List Byte → State → Flow Unit
  | [], s => .ret () s
  | r :: rest, s =>
    if s.heLen = BitVec.allOnes 32 then .raise .inputTooLong s.rawInRead.2
    else
      scan rest ((s.rawInRead.2.setHeLen (s.heLen + 1)).setFreqAt r (s.freqAt r + 1))

/-- Step 1 of R171: clear `freq` and `he_len`, rewind, count. -/
def scanInput (s : State) : Flow Unit :=
  let s := ((freqCleared s).setHeLen 0).rawInRewind
  scan s.rawIn.data s

/-- The loop of step 6 of R171 over the bytes RAWIN still has to give. -/
def encodeSymbols : List Byte → State → Flow Unit
  | [], s => .ret () s
  | r :: rest, s =>
    match s.codeAt r with
    | none => .refuse .symbolWithoutCode s
    | some bits => (writeBits bits s.rawInRead.2).bind fun _ s => encodeSymbols rest s

/-- Step 6 of R171. -/
def encodeInput (s : State) : Flow Unit :=
  let s := s.rawInRewind
  encodeSymbols s.rawIn.data s

/-- The test that opens HE_COMPRESS: refused on an IDLE channel (R171); a FAILED one fails later, at step 3 (R176). -/
def notIdle (s : State) : Flow Unit :=
  match s.bpStatus with
  | .idle => .refuse .writeChannelIdle s
  | .opened => .ret () s
  | .failed => .ret () s

/-- The seven steps of R171. -/
def compress (s : State) : Flow Unit :=
  (notIdle s).bind fun _ s =>
  (scanInput s).bind fun _ s =>
  (build s).bind fun _ s =>
  (serialize s).bind fun _ s =>
  (writeLength s.heLen s).bind fun _ s =>
  (makeCodeTable s).bind fun _ s =>
  (encodeInput s).bind fun _ s => bpClose s

/-- HE_COMPRESS (R171). -/
def execHeCompress (s : State) : Host.Outcome State Fault Refusal :=
  ((compress s).bind fun _ s => .ret .none s).finish

/-! ## HD_DECOMPRESS -/

/-- `DecodeOne()` of R187 from a node: the test for a leaf comes before each read. -/
def decodeOne : Tree → State → Flow Byte
  | .leaf sym, s => .ret sym s
  | .internal l r, s =>
    (readBit s).bind fun b s =>
      match b with
      | none => .raise .truncatedStream s
      | some false => decodeOne l s
      | some true => decodeOne r s

/-- Step 3 of R186 with `k` symbols to go: decode, emit, count down. -/
def decodeSymbols (t : Tree) : Nat → State → Flow Unit
  | 0, s => .ret () s
  | k + 1, s =>
    (decodeOne t s).bind fun sym s =>
      match s.rawOutWrite sym with
      | (true, s) => decodeSymbols t k (s.setHdRemaining (s.hdRemaining - 1))
      | (false, s) => .raise .writeFailure s

/-- The four steps of R186. `tree` is NONE where step 1 fails, and the deserialized tree where step 2 or 3 does: R190
(a) and (b), 10_state.md R20, and the column "`tree` after" of 95_test_vectors.md V44 (b), rows 7 to 13. DEDUCED (log
entry 19): the summary sentence of 70_reset_and_hazards.md R248, "a failed TS_DESERIALIZE or HD_DECOMPRESS leaves `tree =
NONE`", is read as said of a failure in the tree part. -/
def decompress (s : State) : Flow Unit :=
  (deserialize s).bind fun t s =>
  (readLength s).bind fun n s => decodeSymbols t n.toNat (s.setHdRemaining n)

/-- HD_DECOMPRESS (R186). -/
def execHdDecompress (s : State) : Host.Outcome State Fault Refusal :=
  ((decompress s).bind fun _ s => .ret .none s).finish

end Sys2Proof.Machine
end

