-- ==== Sys2Proof/Machine/HostMoves.lean ====
section
/-! DEFINITION. What the host can do besides issuing a command: reset (70_reset_and_hazards.md R230) and the handling of
the streams (R246, R251). -/

namespace Sys2Proof.Machine

/-- Reset (R230, R34): every register of the core takes its reset value; the host-side streams, the parameters and
the host's own plans stay. No command has a result any more (log entry 7). -/
def resetCore (s : State) : State :=
  { State.reset with
    sink := s.sink, src := s.src, rawIn := s.rawIn, rawOut := s.rawOut
    params := s.params, inbox := s.inbox, host := s.host }

/-- Present the bytes of SRC, while no read channel is attached to it (R45, R245). -/
def presentSrc (data : List Byte) (s : State) : Host.Outcome State Fault Refusal :=
  if s.src.attached then .refused .notAHostMove else .next (s.setSrc ⟨data, 0, false⟩)

/-- Present the raw input (R46); commands are atomic, so both scans of HE_COMPRESS see the same bytes (R246). -/
def presentRawIn (data : List Byte) (s : State) : Host.Outcome State Fault Refusal := .next (s.setRawIn ⟨data, 0⟩)

/-- Supply an empty RAWOUT (R47, R231). -/
def supplyRawOut (s : State) : Host.Outcome State Fault Refusal := .next (s.setRawOut [])

/-- Release a SINK that a reset left attached (R230): only while no write channel owns it (R49). -/
def hostReleasesSink (s : State) : Host.Outcome State Fault Refusal :=
  match s.bpStatus with
  | .idle => .next s.sinkRelease
  | .opened => .refused .notAHostMove
  | .failed => .refused .notAHostMove

/-- Release a SRC that a reset left attached (R230): only while no read channel owns it (R49). -/
def hostReleasesSrc (s : State) : Host.Outcome State Fault Refusal :=
  match s.buStatus with
  | .idle => .next s.srcRelease
  | .opened => .refused .notAHostMove

end Sys2Proof.Machine
end

