-- ==== Sys2Proof/Machine/Cut.lean ====
section
/-! DEFINITION. A reset that cuts a command: "a command in progress when reset is asserted is abandoned at an unspecified
point of its pseudocode" (70_reset_and_hazards.md R230); its streams then hold some prefix of what the whole command
appends, and its cursors may stand anywhere on their way (93_implementation_defined.md U8; log entry 9). -/

namespace Sys2Proof.Machine

/-- The state that the pseudocode of an instruction has reached when it ends, with whichever status, or comes to a line
that is refused. -/
def reachedBy (i : Instr) (s : State) : State :=
  match i with
  | .bpOpen =>
    match s.bpStatus with
    | .idle => (bpOpened s).2
    | .opened => s
    | .failed => s
  | .bpWriteBit bit => (writeBit bit s).reached
  | .bpWriteLength n => (writeLength n s).reached
  | .bpBytes => s
  | .bpClose => (bpClose s).reached
  | .buOpen =>
    match s.buStatus with
    | .idle => (buOpened s).2
    | .opened => s
  | .buReadBit => (readBit s).reached
  | .buReadLength => (readLength s).reached
  | .buBytes => s
  | .buClose => (buClose s).reached
  | .tsBuild => (build s).reached
  | .tsSerialize => (serialize s).reached
  | .tsDeserialize => (deserialize s).reached
  | .tsSize => s
  | .tsCodetable => (makeCodeTable s).reached
  | .tsFreqClear => freqCleared s
  | .tsFreqSet sym count => s.setFreqAt sym count
  | .tsCodeGet _ => s
  | .heCompress => (compress s).reached
  | .hdDecompress => (decompress s).reached
  | .tokenInternal => (emitInternal s).reached
  | .tokenLeaf sym => (emitLeaf sym s).reached
  | .lengthHeader n => (writeLength n s).reached

/-! ## The streams at the points of a command

`before` is the state the command starts from, `whole` the one its pseudocode reaches, and `full` the one it would reach
on a storage that never fails: the bytes it appends until its first failing write are the first of those it appends
there. -/

/-- `c` lies between `before` and `after`, each a prefix of the next. -/
def between (before c after : List Byte) : Bool := before.isPrefixOf c && c.isPrefixOf after

/-- What SINK holds when the last SinkWrite that answered ok has been made: `bp_bytes` counts those (10_state.md R14). -/
def sinkGiven (full whole : State) : List Byte :=
  full.sink.data.take (full.sink.data.length - (full.bpBytes - whole.bpBytes))

/-- What RAWOUT holds when the last RawOutWrite that answered ok has been made: `hd_remaining` counts down with those
(10_state.md R24). -/
def rawOutGiven (full whole : State) : List Byte :=
  full.rawOut.take (full.rawOut.length - (whole.hdRemaining.toNat - full.hdRemaining.toNat))

/-- SINK at a point of a command that drives the packer: as before, as the whole command leaves it, the same before its
release, or with some of the bytes appended and no flush yet (R41 to R43). -/
def sinkPoint (before full whole : State) (c : Sink) : Bool :=
  c == before.sink || c == whole.sink ||
  (!whole.sink.attached && c == ⟨whole.sink.data, before.sink.attached, whole.sink.durable⟩) ||
  (c.attached == before.sink.attached && !c.durable && decide (before.sink.data.length < c.data.length) &&
    between before.sink.data c.data (sinkGiven full whole))

/-- SRC at a point of a command that opens, reads or closes it: as before, as the whole command leaves it, or with the
cursor on the way (R44, R45; a cursor lies within its stream, 10_state.md R33). -/
def srcPoint (before whole : State) (c : Src) : Bool :=
  c == before.src ||
  (c.data == before.src.data && decide (c.pos ≤ c.data.length) &&
    (c == whole.src || (c.attached == before.src.attached && decide (before.src.pos ≤ c.pos) &&
      decide (c.pos ≤ whole.src.pos))))

/-- RAWIN at a point of HE_COMPRESS: as before, or, once the channel is known not to be IDLE, with the cursor anywhere
that the first scan comes by (R46, 43_huffman_encoder.md R171, R173). -/
def rawInPoint (before : State) (c : RawIn) : Bool :=
  c == before.rawIn ||
  (before.bpStatus != .idle && c.data == before.rawIn.data && decide (c.pos ≤ c.data.length) &&
    decide (c.pos ≤ 2 ^ 32))

/-- RAWOUT at a point of HD_DECOMPRESS: as the whole command leaves it, or with some of the bytes appended (R47). -/
def rawOutPoint (before full whole : State) (c : List Byte) : Bool :=
  c == whole.rawOut || between before.rawOut c (rawOutGiven full whole)

/-- The streams `c` are possible after a reset that cuts instruction `i` (U8): each stream the instruction uses
(20_memory.md R48) stands at a point of it, and every other stream is as before. -/
def cutAdmissible (i : Instr) (before : State) (c : Cut) : Bool :=
  let whole := reachedBy i before
  let full := reachedBy i (before.setHost .allOk)
  (if drivesPacker i then sinkPoint before full whole c.sink else c.sink == before.sink) &&
  (if drivesUnpacker i || switchesUnpacker i then srcPoint before whole c.src else c.src == before.src) &&
  (if compresses i then rawInPoint before c.rawIn else c.rawIn == before.rawIn) &&
  (if decompresses i then rawOutPoint before full whole c.rawOut else c.rawOut == before.rawOut)

/-- The machine after the reset: the registers at their reset values, the streams where the host says, the host's
answers those behind the whole command's (log entry 9). -/
def cutReset (i : Instr) (before : State) (c : Cut) : State :=
  ((((resetCore before).setHost (reachedBy i before).host).setSink c.sink).setSrc c.src).setRawIn c.rawIn
    |>.setRawOut c.rawOut

/-- The refusals that a command's opening tests give, before anything is done ("decided before the command touches any
state or stream", 60_exceptions.md R214): all but the byte counter and the table miss, which R214 excepts, and the tree
store, whose test stands behind other lines in R143 and behind the first scan in R171 (log entry 9). -/
def Refusal.atOpening (r : Refusal) : Bool :=
  r != .treeStoreTooSmall && r != .byteCounterFull && r != .symbolWithoutCode

/-- The reset at a point where the streams are `c`, if there is such a point (U8). -/
def cutAt (i : Instr) (before : State) (c : Cut) : Host.Outcome State Fault Refusal :=
  if cutAdmissible i before c then .next (cutReset i before c) else .refused .notAHostMove

/-- A cut command, of which `whole` is the uncut outcome. A command refused at its opening tests is refused; a line that
refuses later may lie behind the cut. -/
def cutCommand (i : Instr) (before : State) (c : Cut) (whole : Host.Outcome State Fault Refusal) :
    Host.Outcome State Fault Refusal :=
  match whole with
  | .next _ => cutAt i before c
  | .fault f => .fault f
  | .refused r => if r.atOpening then .refused r else cutAt i before c

end Sys2Proof.Machine
end

