-- ==== Sys2Proof/Machine/Dispatch.lean ====
section
/-! DEFINITION. One arm per constructor of Instr, in the order of the opcode table. -/

namespace Sys2Proof.Machine

def exec (i : Instr) (s : State) : Host.Outcome State Fault Refusal :=
  match i with
  | .bpOpen => Sys2Proof.Machine.execBpOpen s
  | .bpWriteBit bit => Sys2Proof.Machine.execBpWriteBit bit s
  | .bpWriteLength n => Sys2Proof.Machine.execBpWriteLength n s
  | .bpBytes => Sys2Proof.Machine.execBpBytes s
  | .bpClose => Sys2Proof.Machine.execBpClose s
  | .buOpen => Sys2Proof.Machine.execBuOpen s
  | .buReadBit => Sys2Proof.Machine.execBuReadBit s
  | .buReadLength => Sys2Proof.Machine.execBuReadLength s
  | .buBytes => Sys2Proof.Machine.execBuBytes s
  | .buClose => Sys2Proof.Machine.execBuClose s
  | .tsBuild => Sys2Proof.Machine.execTsBuild s
  | .tsSerialize => Sys2Proof.Machine.execTsSerialize s
  | .tsDeserialize => Sys2Proof.Machine.execTsDeserialize s
  | .tsSize => Sys2Proof.Machine.execTsSize s
  | .tsCodetable => Sys2Proof.Machine.execTsCodetable s
  | .tsFreqClear => Sys2Proof.Machine.execTsFreqClear s
  | .tsFreqSet sym count => Sys2Proof.Machine.execTsFreqSet sym count s
  | .tsCodeGet sym => Sys2Proof.Machine.execTsCodeGet sym s
  | .heCompress => Sys2Proof.Machine.execHeCompress s
  | .hdDecompress => Sys2Proof.Machine.execHdDecompress s
  | .tokenInternal => Sys2Proof.Machine.execTokenInternal s
  | .tokenLeaf sym => Sys2Proof.Machine.execTokenLeaf sym s
  | .lengthHeader n => Sys2Proof.Machine.execLengthHeader n s

end Sys2Proof.Machine
end

