-- ==== Sys2Proof/Machine/Perform.lean ====
section
/-! DEFINITION. What one move of the host does: a decoded item runs (30_encoding.md R70), and the moves of
70_reset_and_hazards.md R251 are carried out. -/

namespace Sys2Proof.Machine

/-- The core runs the item's instruction to its end; a reserved encoding is refused (R70, R75). -/
def runItem (item : Item) (s : State) : Host.Outcome State Fault Refusal :=
  match decode item with
  | .ok i => exec i s
  | .error e => .refused (.reservedEncoding e)

/-- A reset cuts the item's instruction (R230, U8). -/
def runItemCut (item : Item) (c : Cut) (s : State) : Host.Outcome State Fault Refusal :=
  match decode item with
  | .ok i => cutCommand i s c (exec i s)
  | .error e => .refused (.reservedEncoding e)

/-- Carry out one move of the host (R251). -/
def perform (m : HostMove) (s : State) : Host.Outcome State Fault Refusal :=
  match m with
  | .issue item => runItem item s
  | .reset => .next (resetCore s)
  | .resetDuring item c => runItemCut item c s
  | .presentSrc data => presentSrc data s
  | .presentRawIn data => presentRawIn data s
  | .supplyRawOut => supplyRawOut s
  | .releaseSink => hostReleasesSink s
  | .releaseSrc => hostReleasesSrc s

end Sys2Proof.Machine
end

