-- ==== Sys2Proof/Machine/Step.lean ====
section
/-! DEFINITION. One step: the host's next move is taken from the inbox and carried out. There is no program counter
and no fetch (10_state.md R30); the core waits while the inbox is empty (70_reset_and_hazards.md R230). -/

namespace Sys2Proof.Machine

/-- One step of the machine. -/
def step (s : State) : Host.Outcome State Fault Refusal :=
  match s.inbox with
  | [] => .next s
  | m :: rest => perform m (s.setInbox rest)

/-- The state with a table row's item as the host's next move (log entry 4). -/
def State.withFetchWord (s : State) (nbits w : Nat) : State := s.setInbox (.issue (tableItem nbits w) :: s.inbox)

end Sys2Proof.Machine
end

