-- ==== Sys2Proof/Safety.lean ====
section
/-! DEFINITION. The terms claims are stated in: what a good state is, what a fresh channel is, a host whose storage
never fails, runs of commands, and the bits a stream holds. -/

namespace Sys2Proof.Machine

/-! ## What every reachable state satisfies -/

/-- The positions below `bp_free` are zero, and `bp_free` is 0 to 8 (R12, R13). -/
def State.BpBufferOk (s : State) : Prop := s.bpFree ≤ 8 ∧ ∀ i < s.bpFree, s.bpBuf.getLsbD i = false

/-- The positions below `8 - bu_avail` are zero, and `bu_avail` is 0 to 8 (R16, R17). -/
def State.BuBufferOk (s : State) : Prop := s.buAvail ≤ 8 ∧ ∀ i < 8 - s.buAvail, s.buBuf.getLsbD i = false

/-- The byte counters fit their width (R14, R18). -/
def State.CountersOk (s : State) : Prop := s.bpBytes ≤ s.params.counterMax ∧ s.buBytes ≤ s.params.counterMax

/-- The stored tree fits the tree store (R20). -/
def State.TreeFits (s : State) : Prop := ∀ t, s.tree = some t → t.nodes ≤ s.params.maxNodes

/-- The code table is empty or the table of the stored tree: "a stale table never outlives its tree" (R21). -/
def State.CodeFollowsTree (s : State) : Prop :=
  (∀ sym, s.codeAt sym = none) ∨ ∃ t, s.tree = some t ∧ ∀ sym, s.codeAt sym = t.table sym

/-- A unit that is not IDLE holds its stream attached (R41, R45, R49), and the write channel's stream is then not
yet durable (R43, R61). -/
def State.ChannelsAttached (s : State) : Prop :=
  (s.bpStatus ≠ .idle → s.sink.attached = true ∧ s.sink.durable = false) ∧
  (s.buStatus ≠ .idle → s.src.attached = true)

/-- The cursors lie within their streams (R33). -/
def State.CursorsOk (s : State) : Prop :=
  s.src.pos ≤ s.src.data.length ∧ s.rawIn.pos ≤ s.rawIn.data.length

/-- While a channel is OPEN its byte count is what its stream has moved: the bytes in SINK (R14, R108), the cursor of
SRC (R18, R126). -/
def State.CountsAreTrue (s : State) : Prop :=
  (s.bpStatus = .opened → s.bpBytes = s.sink.data.length) ∧
  (s.buStatus = .opened → s.buBytes = s.src.pos)

/-- The invariant of the machine. -/
structure State.Inv (s : State) : Prop where
  bpBuffer : s.BpBufferOk
  buBuffer : s.BuBufferOk
  counters : s.CountersOk
  treeFits : s.TreeFits
  codeTree : s.CodeFollowsTree
  attached : s.ChannelsAttached
  cursors  : s.CursorsOk
  counts   : s.CountsAreTrue
  params   : s.params.wf = true

/-- A step is safe when it ends in a next state: no refusal stops the run (R214). -/
def SafeStep (s : State) : Prop := ∃ t, step s = .next t

/-! ## Fresh channels and a storage that never fails -/

/-- The write channel is just after a successful BP_OPEN (R101). -/
structure State.FreshWrite (s : State) : Prop where
  status : s.bpStatus = .opened
  buf    : s.bpBuf = 0
  free   : s.bpFree = 8
  bytes  : s.bpBytes = 0
  data   : s.sink.data = []

/-- The read channel is just after a successful BU_OPEN (R121). -/
structure State.FreshRead (s : State) : Prop where
  status : s.buStatus = .opened
  buf    : s.buBuf = 0
  avail  : s.buAvail = 0
  bytes  : s.buBytes = 0
  pos    : s.src.pos = 0

/-- Every answer the host has in store is ok. -/
def HostScript.NeverFails (h : HostScript) : Prop := (∀ a ∈ h.queue, a = .ok) ∧ h.rest = some .ok

/-- The next `k` answers are ok. -/
def HostScript.OkFor : Nat → HostScript → Prop
  | 0, _ => True
  | k + 1, h => h.answer = .ok ∧ h.advance.OkFor k

/-- The script after `k` answers. -/
def HostScript.after : Nat → HostScript → HostScript
  | 0, h => h
  | k + 1, h => h.advance.after k

/-! ## Runs of commands -/

/-- The commands of a list one after the other, each on the state the one before has left (R60). -/
def execAll : List Instr → State → Host.Outcome State Fault Refusal
  | [], s => .next s
  | i :: rest, s =>
    match exec i s with
    | .next t => execAll rest t
    | .fault f => .fault f
    | .refused r => .refused r

/-- The bits a byte sequence holds, bit 7 of the first byte first (R50, R126). -/
def streamBits (d : List Byte) : Bits := d.flatMap msb8

/-- The number of times a symbol occurs, in 32 bits (R171, R172). -/
def occurrences (sym : Byte) (syms : List Byte) : Word32 := BitVec.ofNat 32 (syms.count sym)

/-- The frequency table of a byte sequence (R171 step 1). -/
def frequencies (syms : List Byte) : Vector Word32 256 :=
  Vector.ofFn fun i => occurrences (BitVec.ofFin i) syms

/-- The commands of a list one after the other, as long as each returns OK; none as soon as one does not. -/
def runOk : List Instr → State → Option State
  | [], s => some s
  | i :: rest, s =>
    match exec i s with
    | .next t =>
      match t.result with
      | some ⟨.ok, _⟩ => runOk rest t
      | _ => none
    | .fault _ => none
    | .refused _ => none

/-- The bits the read channel has still to deliver: the unread ones of the buffered byte, then those of the bytes of
SRC not yet taken (R16, R126). -/
def State.unread (s : State) : Bits :=
  (msb8 s.buBuf).take s.buAvail ++ streamBits (s.src.data.drop s.src.pos)

/-- The bytes of SRC not yet taken (R33). -/
def State.untaken (s : State) : List Byte := s.src.data.drop s.src.pos

/-- The write channel's commands for a bit sequence (`BP_WRITE_BITS`, 30_encoding.md R76). -/
def writeBitCommands (bits : Bits) : List Instr := bits.map .bpWriteBit

/-- The write commands of R108: a run of bits, then for each pair a length and the run that follows it. -/
def channelCommands (r : Bits) (segments : List (Word32 × Bits)) : List Instr :=
  writeBitCommands r ++ segments.flatMap fun p => .bpWriteLength p.1 :: writeBitCommands p.2

/-- The bytes before the last run of R108's sequence, and that run. -/
def channelContents (r : Bits) : List (Word32 × Bits) → List Byte × Bits
  | [] => ([], r)
  | p :: rest =>
    (pack r ++ be32 p.1 ++ (channelContents p.2 rest).1, (channelContents p.2 rest).2)

/-- The leaves' symbols of a tree in pre-order (00_scope.md R8). -/
def Tree.symbols : Tree → List Byte
  | .leaf s => [s]
  | .internal l r => l.symbols ++ r.symbols

/-- The tokens of a serialized tree in pre-order: an internal node (none) or a leaf with its symbol (R81, R82). -/
def Tree.tokens : Tree → List (Option Byte)
  | .leaf s => [some s]
  | .internal l r => none :: (l.tokens ++ r.tokens)

/-- The bits of one token (R81, R82). -/
def tokenBits : Option Byte → Bits
  | none => [false]
  | some s => true :: msb8 s

/-! ## How many bytes a command moves (70_reset_and_hazards.md R250) -/

/-- The most SinkWrite calls a command makes: one for every eight bits that find the buffer full, one for an alignment or
a close, four for a length. -/
def writesAtMost (i : Instr) (s : State) : Nat :=
  match i with
  | .bpOpen => 0
  | .bpWriteBit _ => 1
  | .bpWriteLength _ => 5
  | .bpBytes => 0
  | .bpClose => 1
  | .buOpen => 0
  | .buReadBit => 0
  | .buReadLength => 0
  | .buBytes => 0
  | .buClose => 0
  | .tsBuild => 0
  | .tsSerialize => ((s.tree.map (·.size)).getD 0 + 7) / 8
  | .tsDeserialize => 0
  | .tsSize => 0
  | .tsCodetable => 0
  | .tsFreqClear => 0
  | .tsFreqSet _ _ => 0
  | .tsCodeGet _ => 0
  | .heCompress =>
    let t := buildTree (frequencies s.rawIn.data)
    (t.size + 7) / 8 + 5 + ((codeWords t s.rawIn.data).length + 7) / 8 + 1
  | .hdDecompress => 0
  | .tokenInternal => 1
  | .tokenLeaf _ => 2
  | .lengthHeader _ => 5

/-- The most SrcRead calls a command makes: one for a bit, four for a length, and for a tree or a file one for every byte
of SRC not yet taken and one that finds its end. -/
def readsAtMost (i : Instr) (s : State) : Nat :=
  match i with
  | .bpOpen => 0
  | .bpWriteBit _ => 0
  | .bpWriteLength _ => 0
  | .bpBytes => 0
  | .bpClose => 0
  | .buOpen => 0
  | .buReadBit => 1
  | .buReadLength => 4
  | .buBytes => 0
  | .buClose => 0
  | .tsBuild => 0
  | .tsSerialize => 0
  | .tsDeserialize => s.untaken.length + 1
  | .tsSize => 0
  | .tsCodetable => 0
  | .tsFreqClear => 0
  | .tsFreqSet _ _ => 0
  | .tsCodeGet _ => 0
  | .heCompress => 0
  | .hdDecompress => s.untaken.length + 1
  | .tokenInternal => 0
  | .tokenLeaf _ => 0
  | .lengthHeader _ => 0

end Sys2Proof.Machine
end

