-- ==== Sys2Proof/Certificates/Slice0/Obligations.lean ====
section
/-! DEFINITION. The statements for the provers, from the numbered rules of the spec. -/

open Sys2Proof Sys2Proof.Machine

/-! ## Encodings and steps -/

/-- Some command words of 95_test_vectors.md V80 decode to the commands they stand for. -/
def Obligations.KnownCommandWordsDecode : Prop :=
  decode (.command 0x100000000000) = .ok .bpOpen ∧
  decode (.command 0x110100000000) = .ok (.bpWriteBit true) ∧
  decode (.command 0x12000000000B) = .ok (.bpWriteLength 11) ∧
  decode (.command 0x220000000000) = .ok .buReadLength ∧
  decode (.command 0x366100000005) = .ok (.tsFreqSet 0x61 5) ∧
  decode (.command 0x376200000000) = .ok (.tsCodeGet 0x62) ∧
  decode (.command 0x400000000000) = .ok .heCompress ∧
  decode (.command 0x500000000000) = .ok .hdDecompress ∧
  decode (.command 0x110200000000) = .error .reservedOperandBits ∧
  decode (.command 0x150000000000) = .error .reservedOpcode

/-- Decoding what the encoder writes gives the instruction back, with every operand at every value (R71 to R73,
R81 to R83). -/
def Obligations.DecodeInvertsEncode : Prop := ∀ i : Instr, decode (encode i) = .ok i

/-- Every item the decoder accepts is the encoding of what it reads: no two items mean one instruction. -/
def Obligations.EncodeInvertsDecode : Prop := ∀ (x : Item) (i : Instr), decode x = .ok i → encode i = x

/-- R75: a command word is legal exactly when its `OP` is one of the twenty opcodes and every reserved bit is zero,
as the masks of the opcode table say; every other word is refused. -/
def Obligations.LegalCommandWordsAreTheTable : Prop :=
  ∀ w : CmdWord,
    let op := w.extractLsb' 40 8
    let a := w.extractLsb' 32 8
    let b := w.extractLsb' 0 32
    ((∃ i, decode (.command w) = .ok i) ↔
      (op ∈ ([0x10, 0x13, 0x14, 0x20, 0x21, 0x22, 0x23, 0x24, 0x30, 0x31, 0x32, 0x33, 0x34, 0x35, 0x40, 0x50] :
          List Byte) ∧ a = 0 ∧ b = 0) ∨
      (op = 0x11 ∧ a.extractLsb' 1 7 = 0 ∧ b = 0) ∨ (op = 0x12 ∧ a = 0) ∨ op = 0x36 ∨ (op = 0x37 ∧ b = 0)) ∧
    ((∃ i, decode (.command w) = .ok i) ↔ legalWord w = true) ∧
    (legalWord w = false → ∀ (s : State) (rest : List HostMove), s.inbox = .issue (.command w) :: rest →
      ∃ why, step s = .refused (.reservedEncoding why))

/-- R70: when the host's next move issues an item that decodes to an instruction, the step is that instruction on the
state without the move; nothing else is done around it. -/
def Obligations.StepRunsTheDecodedItem : Prop :=
  ∀ (s : State) (x : Item) (rest : List HostMove) (i : Instr),
    s.inbox = .issue x :: rest → decode x = .ok i → step s = exec i { s with inbox := rest }

/-- R230: "after reset the core waits for the first command": with no move of the host nothing changes. -/
def Obligations.AnEmptyInboxWaits : Prop := ∀ s : State, s.inbox = [] → step s = .next s

/-! ## Reset -/

/-- R34: what reset leaves in every register, in the first state and after a reset by the host from any state, which
does not touch the host-side objects. -/
def Obligations.ResetGivesTheStatedValues : Prop :=
  let stated (t : State) : Prop :=
    t.bpStatus = .idle ∧ t.bpBuf = 0 ∧ t.bpFree = 8 ∧ t.bpBytes = 0 ∧ t.buStatus = .idle ∧ t.buBuf = 0 ∧
    t.buAvail = 0 ∧ t.buBytes = 0 ∧ (∀ sym, t.freqAt sym = 0) ∧ t.tree = none ∧ (∀ sym, t.codeAt sym = none) ∧
    t.heLen = 0 ∧ t.hdRemaining = 0
  stated State.reset ∧
  ∀ (s : State) (rest : List HostMove), s.inbox = .reset :: rest →
    ∃ t, step s = .next t ∧ stated t ∧ t.sink = s.sink ∧ t.src = s.src ∧ t.rawIn = s.rawIn ∧ t.rawOut = s.rawOut

/-- R230 and U8: a command cut by reset leaves the registers at their reset values, SRC.data and RAWIN.data and every
stream it does not use as they were; if it is one that ends, SINK and RAWOUT hold some prefix of what it appends on a
storage that never fails (`u`), or, behind a failing write, what the whole command (`w`) leaves there; and on such a
storage every prefix is possible. (That the host says which prefix is the model's form of U8's "any value", log entry 9.) -/
def Obligations.ResetCutsACommand : Prop :=
  (∀ (s t : State) (x : Item) (c : Cut) (rest : List HostMove),
    s.inbox = .resetDuring x c :: rest → step s = .next t →
    t.bpStatus = .idle ∧ t.bpBuf = 0 ∧ t.bpFree = 8 ∧ t.bpBytes = 0 ∧ t.buStatus = .idle ∧ t.buBuf = 0 ∧
    t.buAvail = 0 ∧ t.buBytes = 0 ∧ (∀ sym, t.freqAt sym = 0) ∧ t.tree = none ∧ (∀ sym, t.codeAt sym = none) ∧
    t.heLen = 0 ∧ t.hdRemaining = 0 ∧ t.src.data = s.src.data ∧ t.rawIn.data = s.rawIn.data ∧
    ∃ i : Instr, decode x = .ok i ∧
      (drivesPacker i = false → t.sink = s.sink) ∧
      (drivesUnpacker i = false → switchesUnpacker i = false → t.src = s.src) ∧
      (compresses i = false → t.rawIn = s.rawIn) ∧
      (decompresses i = false → t.rawOut = s.rawOut) ∧
      (∀ u w : State, exec i { s with inbox := rest, host := .allOk } = .next u →
        exec i { s with inbox := rest } = .next w →
        (t.sink.data = s.sink.data ∨ t.sink.data = w.sink.data ∨
          (s.sink.data <+: t.sink.data ∧ t.sink.data <+: u.sink.data)) ∧
        (t.sink.durable = true → s.sink.durable = true ∨ w.sink.durable = true) ∧
        (t.rawOut = w.rawOut ∨ (s.rawOut <+: t.rawOut ∧ t.rawOut <+: u.rawOut)))) ∧
  (∀ (s u : State) (x : Item) (i : Instr) (rest : List HostMove) (l : List Byte),
    s.host = .allOk → decode x = .ok i → exec i { s with inbox := rest } = .next u →
    (i ≠ .bpOpen → s.sink.data <+: l → l <+: u.sink.data →
      ∃ (c : Cut) (t : State), step { s with inbox := .resetDuring x c :: rest } = .next t ∧ t.sink.data = l) ∧
    (s.rawOut <+: l → l <+: u.rawOut →
      ∃ (c : Cut) (t : State), step { s with inbox := .resetDuring x c :: rest } = .next t ∧ t.rawOut = l))

/-! ## Invariants and rules for the whole machine -/

/-- Every step keeps the invariant: buffers, counters, tree store, code table, attachments, cursors, byte counts (R12
to R14, R16 to R18, R20, R21, R33, R108, R126). -/
def Obligations.StepKeepsTheInvariant : Prop := ∀ s t : State, s.Inv → step s = .next t → t.Inv

/-- The invariant holds at reset. -/
def Obligations.ResetMeetsTheInvariant : Prop := State.reset.Inv

/-- No step changes the parameters `CNT_W` and `MAX_NODES` (R5). -/
def Obligations.ParametersAreConstant : Prop := ∀ s t : State, step s = .next t → t.params = s.params

/-- R246: no command changes SRC.data or RAWIN.data, nor what the host will do next. -/
def Obligations.CommandsLeaveInputsAlone : Prop :=
  ∀ (i : Instr) (s t : State), exec i s = .next t →
    t.src.data = s.src.data ∧ t.rawIn.data = s.rawIn.data ∧ t.inbox = s.inbox

/-- R29: each register is written by the commands its row names, and by no other; each instruction's frame. -/
def Obligations.RegistersHaveTheirWriters : Prop :=
  ∀ (i : Instr) (s t : State), exec i s = .next t →
    (drivesPacker i = false →
      t.bpStatus = s.bpStatus ∧ t.bpBuf = s.bpBuf ∧ t.bpFree = s.bpFree ∧ t.bpBytes = s.bpBytes) ∧
    (switchesUnpacker i = false → t.buStatus = s.buStatus) ∧
    (drivesUnpacker i = false →
      t.buBuf = s.buBuf ∧ t.buAvail = s.buAvail ∧ t.buBytes = s.buBytes) ∧
    (writesFreq i = false → t.freq = s.freq) ∧
    (writesTree i = false → t.tree = s.tree) ∧
    (writesCode i = false → t.code = s.code) ∧
    (compresses i = false → t.heLen = s.heLen) ∧
    (decompresses i = false → t.hdRemaining = s.hdRemaining)

/-- R48: each stream is touched by the commands its column names, and by no other; the host is asked by no command
that calls no primitive. -/
def Obligations.StreamsHaveTheirUsers : Prop :=
  ∀ (i : Instr) (s t : State), exec i s = .next t →
    (drivesPacker i = false → t.sink = s.sink) ∧
    (drivesUnpacker i = false → switchesUnpacker i = false → t.src = s.src) ∧
    (switchesUnpacker i = false → t.src.attached = s.src.attached) ∧
    (compresses i = false → t.rawIn = s.rawIn) ∧
    (decompresses i = false → t.rawOut = s.rawOut) ∧
    (asksTheHost i = false → t.host = s.host)

/-- R55: on a storage that never fails no command but BP_OPEN removes or rewrites a byte of SINK or RAWOUT. -/
def Obligations.OutputOnlyGrows : Prop :=
  ∀ (i : Instr) (s t : State), s.host.NeverFails → i ≠ .bpOpen → exec i s = .next t →
    s.sink.data <+: t.sink.data ∧ s.rawOut <+: t.rawOut

/-- R106: the `FAILED` state. A failed write sets it (BP_CLOSE releases the channel instead, and HE_COMPRESS may end in
its close), only BP_CLOSE leaves it, SINK is not touched in it, and each of the packer's commands behaves in it as the
rule says, without asking the host. (That the content SINK was left with at the failing write, which U5 calls any value,
stays the same is the model's choice, log entry 2; that the stream items are among the packer's commands, log entry 5.) -/
def Obligations.FailedChannelIsSticky : Prop :=
  (∀ (i : Instr) (s t : State) (v : Value), drivesPacker i = true → i ≠ .bpClose → i ≠ .heCompress →
    exec i s = .next t → t.result = some ⟨.writeFailure, v⟩ → t.bpStatus = .failed) ∧
  (∀ (s t : State) (v : Value), exec .heCompress s = .next t → t.result = some ⟨.writeFailure, v⟩ →
    t.bpStatus = .failed ∨ (t.bpStatus = .idle ∧ t.sink.attached = false)) ∧
  ∀ s : State, s.bpStatus = .failed →
    (∀ (i : Instr) (t : State), i ≠ .bpClose → exec i s = .next t →
      t.bpStatus = .failed ∧ t.sink = s.sink ∧ t.bpBytes = s.bpBytes) ∧
    (∀ b, exec (.bpWriteBit b) s = .next { s with result := some ⟨.writeFailure, .none⟩ }) ∧
    (∀ n, exec (.bpWriteLength n) s = .next { s with result := some ⟨.writeFailure, .none⟩ }) ∧
    exec .bpBytes s = .next { s with result := some ⟨.ok, .count s.bpBytes⟩ } ∧
    exec .bpClose s = .next { s with
      bpStatus := .idle, sink := ⟨s.sink.data, false, s.sink.durable⟩, result := some ⟨.writeFailure, .none⟩ } ∧
    exec .bpOpen s = .refused .writeChannelInUse

/-- R215: a command is refused only in the situations of the refusal table: for the commands a row names, in the state it
names. (Refusals of the three stream items are those of the bit writes and the length write they stand for, log entry 5.) -/
def Obligations.RefusalsAreTheTable : Prop :=
  ∀ (i : Instr) (s : State) (r : Refusal), exec i s = .refused r →
    (r = .writeChannelIdle ∧ s.bpStatus = .idle ∧ drivesPacker i = true ∧ i ≠ .bpOpen) ∨
    (r = .writeChannelInUse ∧ s.bpStatus ≠ .idle ∧ i = .bpOpen) ∨
    (r = .readChannelIdle ∧ s.buStatus = .idle ∧ ((drivesUnpacker i = true ∧ i ≠ .buOpen) ∨ i = .buClose)) ∨
    (r = .readChannelInUse ∧ s.buStatus ≠ .idle ∧ i = .buOpen) ∨
    (r = .noTree ∧ s.tree = none ∧ (i = .tsSerialize ∨ i = .tsSize ∨ i = .tsCodetable)) ∨
    (r = .treeStoreTooSmall ∧
      ((i = .tsBuild ∧ s.params.maxNodes + 1 < 2 * (symbolsOf s.freq).length) ∨
        (i = .heCompress ∧ s.params.maxNodes + 1 < 2 * (symbolsOf (frequencies s.rawIn.data)).length))) ∨
    (r = .byteCounterFull ∧
      ((drivesPacker i = true ∧ i ≠ .bpOpen ∧ s.params.counterMax < s.bpBytes + writesAtMost i s) ∨
        (drivesUnpacker i = true ∧ i ≠ .buOpen ∧ s.params.counterMax < s.buBytes + readsAtMost i s)))

/-- R74, R200 and R201: the codes of the statuses; every command that ends records a result; each status comes only from
the commands its row of the table names, and only `OK` carries a value. -/
def Obligations.StatusesAreTheTable : Prop :=
  (Status.ok.code = 0 ∧ Status.openFailure.code = 1 ∧ Status.writeFailure.code = 2 ∧ Status.truncatedStream.code = 3 ∧
    Status.malformedTree.code = 4 ∧ Status.inputTooLong.code = 5 ∧ Status.endOfData.code = 6) ∧
  ∀ (i : Instr) (s t : State), exec i s = .next t → ∃ r, t.result = some r ∧
    (r.status ≠ .ok → r.value = .none) ∧
    (r.status = .openFailure → i = .bpOpen ∨ i = .buOpen) ∧
    (r.status = .writeFailure → (drivesPacker i = true ∧ i ≠ .bpOpen) ∨ i = .hdDecompress) ∧
    (r.status = .truncatedStream → i = .buReadLength ∨ i = .tsDeserialize ∨ i = .hdDecompress) ∧
    (r.status = .malformedTree → i = .tsDeserialize ∨ i = .hdDecompress) ∧
    (r.status = .inputTooLong → i = .heCompress) ∧
    (r.status = .endOfData → i = .buReadBit)

/-- R175: the table miss of step 6 of HE_COMPRESS is unreachable. -/
def Obligations.TableMissIsUnreachable : Prop :=
  ∀ s : State, exec .heCompress s ≠ .refused .symbolWithoutCode

/-! ## bit_packer -/

/-- R101: BP_OPEN. -/
def Obligations.BpOpenOpensAFreshChannel : Prop :=
  decode (.command 0x100000000000) = .ok .bpOpen ∧
  ∀ s : State,
    (s.bpStatus = .idle → s.host.answer = .ok →
      exec .bpOpen s = .next { s with
        bpStatus := .opened, bpBuf := 0, bpFree := 8, bpBytes := 0, sink := ⟨[], true, false⟩
        host := s.host.advance, result := some ⟨.ok, .none⟩ }) ∧
    (∀ l d, s.bpStatus = .idle → s.host.answer = .fail l d →
      exec .bpOpen s = .next { s with host := s.host.advance, result := some ⟨.openFailure, .none⟩ }) ∧
    (s.bpStatus ≠ .idle → exec .bpOpen s = .refused .writeChannelInUse)

/-- R102: BP_WRITE_BIT, in every state of the channel: the deferred flush, the insertion, the failures. (What a failing
write leaves in SINK, the host's value in `data` and the flags as they were, is the model's choice, log entries 2 and
11.) -/
def Obligations.BpWriteBitInsertsTheBit : Prop :=
  decode (.command 0x110000000000) = .ok (.bpWriteBit false) ∧
  decode (.command 0x110100000000) = .ok (.bpWriteBit true) ∧
  ∀ (s : State) (b : Bool),
    (s.bpStatus = .idle → exec (.bpWriteBit b) s = .refused .writeChannelIdle) ∧
    (s.bpStatus = .failed →
      exec (.bpWriteBit b) s = .next { s with result := some ⟨.writeFailure, .none⟩ }) ∧
    (s.bpStatus = .opened → s.bpFree ≠ 0 →
      exec (.bpWriteBit b) s = .next { s with
        bpBuf := s.bpBuf ||| ((BitVec.ofBool b).setWidth 8 <<< (s.bpFree - 1)), bpFree := s.bpFree - 1
        result := some ⟨.ok, .bit b⟩ }) ∧
    (s.bpStatus = .opened → s.bpFree = 0 → s.params.counterMax ≤ s.bpBytes →
      exec (.bpWriteBit b) s = .refused .byteCounterFull) ∧
    (s.bpStatus = .opened → s.bpFree = 0 → s.bpBytes < s.params.counterMax → s.host.answer = .ok →
      exec (.bpWriteBit b) s = .next { s with
        bpBuf := (BitVec.ofBool b).setWidth 8 <<< 7, bpFree := 7, bpBytes := s.bpBytes + 1
        sink := ⟨s.sink.data ++ [s.bpBuf], s.sink.attached, false⟩, host := s.host.advance
        result := some ⟨.ok, .bit b⟩ }) ∧
    (∀ l d, s.bpStatus = .opened → s.bpFree = 0 → s.bpBytes < s.params.counterMax → s.host.answer = .fail l d →
      exec (.bpWriteBit b) s = .next { s with
        bpStatus := .failed, sink := ⟨l, s.sink.attached, s.sink.durable⟩, host := s.host.advance
        result := some ⟨.writeFailure, .none⟩ })

/-- R103: BP_WRITE_LENGTH: the alignment flush, four bytes most significant first, the first failing write, the
counter guard. (What a failing write leaves in SINK is the model's choice, log entries 2 and 11.) -/
def Obligations.BpWriteLengthAlignsAndWrites : Prop :=
  ∀ (s : State) (n : Word32),
    let bytes : List Byte := (if s.bpFree < 8 then [s.bpBuf] else []) ++
      [n.extractLsb' 24 8, n.extractLsb' 16 8, n.extractLsb' 8 8, n.extractLsb' 0 8]
    (s.bpStatus = .idle → exec (.bpWriteLength n) s = .refused .writeChannelIdle) ∧
    (s.bpStatus = .failed →
      exec (.bpWriteLength n) s = .next { s with result := some ⟨.writeFailure, .none⟩ }) ∧
    (s.bpStatus = .opened → s.BpBufferOk → s.host.OkFor bytes.length →
      s.bpBytes + bytes.length ≤ s.params.counterMax →
      exec (.bpWriteLength n) s = .next { s with
        bpBuf := 0, bpFree := 8, bpBytes := s.bpBytes + bytes.length
        sink := ⟨s.sink.data ++ bytes, s.sink.attached, false⟩, host := s.host.after bytes.length
        result := some ⟨.ok, .none⟩ }) ∧
    (∀ j l d, s.bpStatus = .opened → s.BpBufferOk → j < bytes.length → s.host.OkFor j →
      (s.host.after j).answer = .fail l d → s.bpBytes + j < s.params.counterMax →
      exec (.bpWriteLength n) s = .next { s with
        bpStatus := .failed
        bpBuf := if j = 0 then s.bpBuf else 0, bpFree := if j = 0 then s.bpFree else 8
        bpBytes := s.bpBytes + j
        sink := ⟨l, s.sink.attached, if j = 0 then s.sink.durable else false⟩
        host := s.host.after (j + 1), result := some ⟨.writeFailure, .none⟩ }) ∧
    (∀ j, s.bpStatus = .opened → j < bytes.length → s.host.OkFor j → s.bpBytes + j = s.params.counterMax →
      exec (.bpWriteLength n) s = .refused .byteCounterFull)

/-- R104: BP_BYTES, legal in every state. -/
def Obligations.BpBytesReturnsTheCount : Prop :=
  decode (.command 0x130000000000) = .ok .bpBytes ∧
  ∀ s : State, exec .bpBytes s = .next { s with result := some ⟨.ok, .count s.bpBytes⟩ }

/-- R105: BP_CLOSE: the last byte, the storage flush, the release on every path. (What a failing write leaves in SINK, and
that a failing flush leaves the host's value in `durable`, is the model's choice, log entries 2 and 11.) -/
def Obligations.BpCloseReleasesOnEveryPath : Prop :=
  decode (.command 0x140000000000) = .ok .bpClose ∧
  ∀ s : State,
    let last : List Byte := if s.bpFree < 8 then [s.bpBuf] else []
    (s.bpStatus = .idle → exec .bpClose s = .refused .writeChannelIdle) ∧
    (s.bpStatus = .failed → exec .bpClose s = .next { s with
      bpStatus := .idle, sink := ⟨s.sink.data, false, s.sink.durable⟩, result := some ⟨.writeFailure, .none⟩ }) ∧
    (s.bpStatus = .opened → s.BpBufferOk → s.host.OkFor (last.length + 1) →
      s.bpBytes + last.length ≤ s.params.counterMax →
      exec .bpClose s = .next { s with
        bpStatus := .idle, bpBuf := 0, bpFree := 8, bpBytes := s.bpBytes + last.length
        sink := ⟨s.sink.data ++ last, false, true⟩, host := s.host.after (last.length + 1)
        result := some ⟨.ok, .none⟩ }) ∧
    (∀ l d, s.bpStatus = .opened → s.bpFree < 8 → s.bpBytes < s.params.counterMax → s.host.answer = .fail l d →
      exec .bpClose s = .next { s with
        bpStatus := .idle, sink := ⟨l, false, s.sink.durable⟩, host := s.host.advance
        result := some ⟨.writeFailure, .none⟩ }) ∧
    (∀ l d, s.bpStatus = .opened → s.BpBufferOk → s.host.OkFor last.length →
      s.bpBytes + last.length ≤ s.params.counterMax → (s.host.after last.length).answer = .fail l d →
      exec .bpClose s = .next { s with
        bpStatus := .idle, bpBuf := 0, bpFree := 8, bpBytes := s.bpBytes + last.length
        sink := ⟨s.sink.data ++ last, false, d⟩, host := s.host.after (last.length + 1)
        result := some ⟨.writeFailure, .none⟩ }) ∧
    (s.bpStatus = .opened → s.bpFree < 8 → s.params.counterMax ≤ s.bpBytes →
      exec .bpClose s = .refused .byteCounterFull)

/-- R108: what SINK and the buffer hold after runs of bits separated by lengths, before and after the close; and that
on a storage that never fails all of it returns OK. -/
def Obligations.SinkHoldsThePackedRuns : Prop :=
  ∀ (s : State) (r : Bits) (segments : List (Word32 × Bits)), s.FreshWrite →
    let before := (channelContents r segments).1
    let last := (channelContents r segments).2
    (∀ t, runOk (channelCommands r segments) s = some t →
      t.sink.data = before ++ (pack last).take ((last.length + 7) / 8 - 1) ∧ t.bpBytes = t.sink.data.length ∧
      t.bpFree = (if last = [] then 8 else 8 - ((last.length - 1) % 8 + 1)) ∧
      t.bpBuf = (if last = [] then 0 else (pack last).getD ((last.length + 7) / 8 - 1) 0)) ∧
    (∀ t, runOk (channelCommands r segments ++ [.bpClose]) s = some t →
      t.sink.data = before ++ pack last ∧ t.bpBytes = t.sink.data.length ∧ t.sink.durable = true) ∧
    (s.host.NeverFails → before.length + (pack last).length ≤ s.params.counterMax →
      (runOk (channelCommands r segments ++ [.bpClose]) s).isSome = true)

/-! ## bit_unpacker -/

/-- R121: BU_OPEN. -/
def Obligations.BuOpenOpensAFreshChannel : Prop :=
  decode (.command 0x200000000000) = .ok .buOpen ∧
  ∀ s : State,
    (s.buStatus = .idle → s.host.answer = .ok →
      exec .buOpen s = .next { s with
        buStatus := .opened, buBuf := 0, buAvail := 0, buBytes := 0, src := ⟨s.src.data, 0, true⟩
        host := s.host.advance, result := some ⟨.ok, .none⟩ }) ∧
    (∀ l d, s.buStatus = .idle → s.host.answer = .fail l d →
      exec .buOpen s = .next { s with host := s.host.advance, result := some ⟨.openFailure, .none⟩ }) ∧
    (s.buStatus ≠ .idle → exec .buOpen s = .refused .readChannelInUse)

/-- R122: BU_READ_BIT: bit 7 of the buffer, or of a fetched byte, or the signal, which changes nothing. -/
def Obligations.BuReadBitTakesTheTopBit : Prop :=
  decode (.command 0x210000000000) = .ok .buReadBit ∧
  ∀ s : State,
    (s.buStatus = .idle → exec .buReadBit s = .refused .readChannelIdle) ∧
    (s.buStatus = .opened → s.buAvail ≠ 0 →
      exec .buReadBit s = .next { s with
        buBuf := s.buBuf <<< 1, buAvail := s.buAvail - 1, result := some ⟨.ok, .bit (s.buBuf.getLsbD 7)⟩ }) ∧
    (s.buStatus = .opened → s.buAvail = 0 → s.params.counterMax ≤ s.buBytes →
      exec .buReadBit s = .refused .byteCounterFull) ∧
    (∀ r, s.buStatus = .opened → s.buAvail = 0 → s.buBytes < s.params.counterMax →
      s.src.data[s.src.pos]? = some r →
      exec .buReadBit s = .next { s with
        buBuf := r <<< 1, buAvail := 7, buBytes := s.buBytes + 1
        src := ⟨s.src.data, s.src.pos + 1, s.src.attached⟩, result := some ⟨.ok, .bit (r.getLsbD 7)⟩ }) ∧
    (s.buStatus = .opened → s.buAvail = 0 → s.buBytes < s.params.counterMax → s.src.data[s.src.pos]? = none →
      exec .buReadBit s = .next { s with result := some ⟨.endOfData, .none⟩ })

/-- R123: BU_READ_LENGTH: the discard, four bytes most significant first, the truncated header, the guard. -/
def Obligations.BuReadLengthRealignsAndReads : Prop :=
  decode (.command 0x220000000000) = .ok .buReadLength ∧
  ∀ s : State,
    (s.buStatus = .idle → exec .buReadLength s = .refused .readChannelIdle) ∧
    (∀ b0 b1 b2 b3 rest, s.buStatus = .opened → s.untaken = b0 :: b1 :: b2 :: b3 :: rest →
      s.buBytes + 4 ≤ s.params.counterMax →
      exec .buReadLength s = .next { s with
        buBuf := 0, buAvail := 0, buBytes := s.buBytes + 4
        src := ⟨s.src.data, s.src.pos + 4, s.src.attached⟩
        result := some ⟨.ok, .length (BitVec.ofNat 32
          (b0.toNat * 2 ^ 24 + b1.toNat * 2 ^ 16 + b2.toNat * 2 ^ 8 + b3.toNat))⟩ }) ∧
    (s.buStatus = .opened → s.untaken.length < 4 → s.buBytes + s.untaken.length < s.params.counterMax →
      exec .buReadLength s = .next { s with
        buBuf := 0, buAvail := 0, buBytes := s.buBytes + s.untaken.length
        src := ⟨s.src.data, s.src.pos + s.untaken.length, s.src.attached⟩
        result := some ⟨.truncatedStream, .none⟩ }) ∧
    (∀ j, s.buStatus = .opened → j < 4 → j ≤ s.untaken.length → s.buBytes + j = s.params.counterMax →
      exec .buReadLength s = .refused .byteCounterFull)

/-- R124: BU_BYTES, legal in every state. -/
def Obligations.BuBytesReturnsTheCount : Prop :=
  decode (.command 0x230000000000) = .ok .buBytes ∧
  ∀ s : State, exec .buBytes s = .next { s with result := some ⟨.ok, .count s.buBytes⟩ }

/-- R125: BU_CLOSE. -/
def Obligations.BuCloseReleasesTheStream : Prop :=
  decode (.command 0x240000000000) = .ok .buClose ∧
  ∀ s : State,
    (s.buStatus = .idle → exec .buClose s = .refused .readChannelIdle) ∧
    (s.buStatus = .opened → exec .buClose s = .next { s with
      buStatus := .idle, src := ⟨s.src.data, s.src.pos, false⟩, result := some ⟨.ok, .none⟩ })

/-- R126: what a fresh read channel delivers: after `k` reads, the k-th bit of SRC as the last result, the counts, the
signal after the last bit, the bytes a length read then takes. -/
def Obligations.ReadChannelDeliversTheStream : Prop :=
  ∀ (s : State) (k : Nat), s.FreshRead → s.src.data.length < s.params.counterMax → k ≤ 8 * s.src.data.length →
    ∃ t, execAll (List.replicate k .buReadBit) s = .next t ∧
      t.unread = (streamBits s.src.data).drop k ∧ t.buBytes = (k + 7) / 8 ∧ t.buAvail = 8 * ((k + 7) / 8) - k ∧
      (0 < k → t.result = some ⟨.ok, .bit ((streamBits s.src.data).getD (k - 1) false)⟩) ∧
      (k = 8 * s.src.data.length →
        exec .buReadBit t = .next { t with result := some ⟨.endOfData, .none⟩ }) ∧
      (∀ b0 b1 b2 b3 rest, s.src.data.drop ((k + 7) / 8) = b0 :: b1 :: b2 :: b3 :: rest →
        ∃ u, exec .buReadLength t = .next u ∧ u.untaken = rest ∧
          u.result = some ⟨.ok, .length (BitVec.ofNat 32
            (b0.toNat * 2 ^ 24 + b1.toNat * 2 ^ 16 + b2.toNat * 2 ^ 8 + b3.toNat))⟩)

/-- The bits of a packed run are the run and zeros up to the byte boundary (R8, R50, last sentences of R126). -/
def Obligations.PackedBitsReadBack : Prop :=
  ∀ r : Bits, (pack r).length = (r.length + 7) / 8 ∧
    streamBits (pack r) = r ++ List.replicate (8 * ((r.length + 7) / 8) - r.length) false

/-! ## canonical_tree_serializer -/

/-- R141: TS_FREQ_CLEAR. -/
def Obligations.FreqClearZeroesTheTable : Prop :=
  decode (.command 0x350000000000) = .ok .tsFreqClear ∧
  ∀ s : State, ∃ t, exec .tsFreqClear s = .next t ∧ (∀ sym, t.freqAt sym = 0) ∧
    t = { s with freq := t.freq, result := some ⟨.ok, .none⟩ }

/-- R142: TS_FREQ_SET writes one entry. -/
def Obligations.FreqSetWritesOneEntry : Prop :=
  (∀ (sym : Byte) (count : Word32), decode (.command (commandWord 0x36 sym count)) = .ok (.tsFreqSet sym count)) ∧
  ∀ (s : State) (sym : Byte) (count : Word32), ∃ t, exec (.tsFreqSet sym count) s = .next t ∧
    t.freqAt sym = count ∧ (∀ other, other ≠ sym → t.freqAt other = s.freqAt other) ∧
    t = { s with freq := t.freq, result := some ⟨.ok, .none⟩ }

/-- R143: TS_BUILD: the symbols with a non-zero count in ascending order, the capacity refusal, the tree (of no
symbol, one, or more), the cleared code table. -/
def Obligations.BuildStoresTheTree : Prop :=
  ∀ s : State,
    (∀ sym, sym ∈ symbolsOf s.freq ↔ s.freqAt sym ≠ 0) ∧
    (symbolsOf s.freq).Pairwise (fun a b => a.toNat < b.toNat) ∧
    (2 * (symbolsOf s.freq).length > s.params.maxNodes + 1 → exec .tsBuild s = .refused .treeStoreTooSmall) ∧
    (2 * (symbolsOf s.freq).length ≤ s.params.maxNodes + 1 →
      ∃ t, exec .tsBuild s = .next t ∧ t.tree = some (buildTree s.freq) ∧ (∀ sym, t.codeAt sym = none) ∧
        t = { s with tree := t.tree, code := t.code, result := some ⟨.ok, .none⟩ }) ∧
    (symbolsOf s.freq = [] → buildTree s.freq = .internal (.leaf 0) (.leaf 0)) ∧
    (∀ a, symbolsOf s.freq = [a] → buildTree s.freq = .internal (.leaf a) (.leaf a))

/-- R144: the loop of the build: which list it starts from and what its entries are; that one round joins the two least
entries by frequency and then sequence number, the first as the left child, with the summed frequency and the next
number; that one entry left is the tree; and that the order of the list does not matter. -/
def Obligations.BuildJoinsTheTwoLeast : Prop :=
  (∀ (freq : Vector Word32 256) (s s' : Byte) (rest : List Byte), symbolsOf freq = s :: s' :: rest →
    buildTree freq = combine (rest.length + 1) (rest.length + 2)
      ⟨(freq[s.toNat]'s.isLt).toNat, 0, .leaf s⟩ (leafEntries freq 1 (s' :: rest))) ∧
  (∀ (freq : Vector Word32 256) (k : Nat) (syms : List Byte),
    (leafEntries freq k syms).length = syms.length ∧
    ∀ (j : Nat) (h : j < syms.length), (leafEntries freq k syms)[j]? =
      some ⟨(freq[syms[j].toNat]'syms[j].isLt).toNat, k + j, .leaf syms[j]⟩) ∧
  (∀ (next : Nat) (e a b : Entry) (rest others : List Entry),
    (e :: rest).Perm (a :: b :: others) → (∀ x ∈ e :: rest, x.seq < next) → ((e :: rest).map (·.seq)).Nodup →
    (∀ x ∈ b :: others, a.f < x.f ∨ (a.f = x.f ∧ a.seq < x.seq)) →
    (∀ x ∈ others, b.f < x.f ∨ (b.f = x.f ∧ b.seq < x.seq)) →
    combine rest.length next e rest =
      combine others.length (next + 1) ⟨a.f + b.f, next, .internal a.tree b.tree⟩ others) ∧
  (∀ (next : Nat) (e : Entry), combine 0 next e [] = e.tree) ∧
  (∀ (next : Nat) (e e' : Entry) (rest rest' : List Entry),
    (e :: rest).Perm (e' :: rest') → (∀ x ∈ e :: rest, x.seq < next) → ((e :: rest).map (·.seq)).Nodup →
    combine rest.length next e rest = combine rest'.length next e' rest')

/-- R22 and R147: the tree of two or more symbols has exactly one leaf a symbol and no other, is full, fits the
default store, and its code table is prefix-free with no empty code. -/
def Obligations.BuiltTreesMeetTheInvariants : Prop :=
  ∀ freq : Vector Word32 256, 2 ≤ (symbolsOf freq).length →
    let t := buildTree freq
    t.symbols.Nodup ∧ (∀ sym, sym ∈ t.symbols ↔ (freq[sym.toNat]'sym.isLt) ≠ 0) ∧
    t.leaves = (symbolsOf freq).length ∧ t.leaves ≤ 256 ∧ t.nodes + 1 = 2 * t.leaves ∧ t.nodes ≤ 511 ∧
    t.depth ≤ 255 ∧
    (∀ sym p, t.table sym = some p → p ≠ []) ∧
    (∀ a b p q, a ≠ b → t.table a = some p → t.table b = some q → ¬ p <+: q)

/-- R145 and R146: the serialized form, the size and the code of a placeholder tree. -/
def Obligations.PlaceholderTreesHaveOneBitCodes : Prop :=
  ∀ a : Byte,
    (placeholder a).ser = [false, true] ++ msb8 a ++ [true] ++ msb8 a ∧ (placeholder a).size = 19 ∧
    (placeholder a).table a = some [false] ∧ (∀ b, b ≠ a → (placeholder a).table b = none) ∧
    pack (placeholder 0x41).ser = [0x50, 0x68, 0x20] ∧ pack (placeholder 0).ser = [0x40, 0x20, 0x00]

/-- The worked example of R144 and the ties of 95_test_vectors.md V31 and V36. -/
def Obligations.BuildWorkedExamples : Prop :=
  let freq (l : List (Byte × Word32)) : Vector Word32 256 :=
    l.foldl (fun v e => v.set e.1.toNat e.2 e.1.isLt) (Vector.replicate 256 0)
  buildTree (freq [(0x61, 5), (0x62, 2), (0x63, 1), (0x64, 1), (0x72, 2)]) =
    .internal (.leaf 0x61) (.internal (.internal (.leaf 0x63) (.leaf 0x64)) (.internal (.leaf 0x62) (.leaf 0x72))) ∧
  buildTree (freq [(0x61, 1), (0x62, 1), (0x63, 2)]) =
    .internal (.leaf 0x63) (.internal (.leaf 0x61) (.leaf 0x62)) ∧
  buildTree (freq [(0x10, 1), (0x20, 1), (0x30, 1)]) =
    .internal (.leaf 0x30) (.internal (.leaf 0x10) (.leaf 0x20))

/-- R148: TS_CODETABLE stores for each symbol the path of the first leaf in pre-order that holds it. -/
def Obligations.CodetableStoresThePaths : Prop :=
  decode (.command 0x340000000000) = .ok .tsCodetable ∧
  ∀ s : State,
    (s.tree = none → exec .tsCodetable s = .refused .noTree) ∧
    (∀ t, s.tree = some t → ∃ u, exec .tsCodetable s = .next u ∧
      (∀ sym, u.codeAt sym = (t.paths.find? (fun e => e.1 == sym)).map (·.2)) ∧
      u = { s with code := u.code, result := some ⟨.ok, .none⟩ })

/-- R149: TS_CODE_GET answers from the table as it stands, left-aligned in `MAX_DEPTH` bits. -/
def Obligations.CodeGetReadsTheTable : Prop :=
  (∀ sym : Byte, decode (.command (commandWord 0x37 sym 0)) = .ok (.tsCodeGet sym)) ∧
  ∀ (s : State) (sym : Byte),
    (s.codeAt sym = none → exec (.tsCodeGet sym) s = .next { s with
      result := some ⟨.ok, .code false 0 (List.replicate s.params.maxDepth false)⟩ }) ∧
    (∀ p, s.codeAt sym = some p → exec (.tsCodeGet sym) s = .next { s with
      result := some ⟨.ok, .code true p.length (p ++ List.replicate (s.params.maxDepth - p.length) false)⟩ })

/-- R152: TS_SERIALIZE writes exactly the bits `ser(tree)`, as that many BP_WRITE_BIT commands would, and stops at the first
of them that fails or is refused; its own refusals and the failed channel. -/
def Obligations.SerializeWritesTheTreeBits : Prop :=
  ∀ s : State,
    (s.tree = none → exec .tsSerialize s = .refused .noTree) ∧
    (∀ t, s.tree = some t → s.bpStatus = .idle → exec .tsSerialize s = .refused .writeChannelIdle) ∧
    (∀ t, s.tree = some t → s.bpStatus = .failed →
      exec .tsSerialize s = .next { s with result := some ⟨.writeFailure, .none⟩ }) ∧
    (∀ t u, s.tree = some t → runOk (writeBitCommands t.ser) s = some u →
      exec .tsSerialize s = .next { u with result := some ⟨.ok, .none⟩ }) ∧
    (∀ t, s.tree = some t → s.bpStatus = .opened → s.host.NeverFails →
      s.bpBytes + t.size ≤ s.params.counterMax →
      ∃ u, runOk (writeBitCommands t.ser) s = some u ∧
        exec .tsSerialize s = .next { u with result := some ⟨.ok, .none⟩ }) ∧
    (∀ t p q b u v, s.tree = some t → t.ser = p ++ b :: q → runOk (writeBitCommands p) s = some u →
      exec (.bpWriteBit b) u = .next v → v.result = some ⟨.writeFailure, .none⟩ → exec .tsSerialize s = .next v) ∧
    (∀ t p q b u r, s.tree = some t → t.ser = p ++ b :: q → runOk (writeBitCommands p) s = some u →
      exec (.bpWriteBit b) u = .refused r → exec .tsSerialize s = .refused r)

/-- R155: parsing `ser(t) ++ x` yields `t`, consumes exactly `ser(t)`, and clears the code table. -/
def Obligations.DeserializeRecoversTheTree : Prop :=
  ∀ (s : State) (t : Tree) (x : Bits),
    s.buStatus = .opened → s.BuBufferOk → s.CursorsOk → s.CountsAreTrue →
    s.src.data.length ≤ s.params.counterMax → t.nodes ≤ s.params.maxNodes → s.unread = t.ser ++ x →
    ∃ u, exec .tsDeserialize s = .next u ∧ u.result = some ⟨.ok, .none⟩ ∧ u.tree = some t ∧
      (∀ sym, u.codeAt sym = none) ∧ u.unread = x ∧ u.buStatus = .opened

/-- R153: a stream that ends between two nodes of a tree gives `TruncatedStream`, one that ends inside a leaf gives
`MalformedTree`; both leave no tree, no code, and nothing unread. -/
def Obligations.DeserializeReportsTheEnd : Prop :=
  ∀ (s : State) (t : Tree) (k : Nat),
    s.buStatus = .opened → s.BuBufferOk → s.CursorsOk → s.CountsAreTrue →
    s.src.data.length < s.params.counterMax → k < t.tokens.length →
    (k ≤ s.params.maxNodes → s.unread = (t.tokens.take k).flatMap tokenBits →
      ∃ u, exec .tsDeserialize s = .next u ∧ u.result = some ⟨.truncatedStream, .none⟩ ∧ u.tree = none ∧
        (∀ sym, u.codeAt sym = none) ∧ u.unread = []) ∧
    (∀ sym j, k < s.params.maxNodes → t.tokens[k]? = some (some sym) → j < 8 →
      s.unread = (t.tokens.take k).flatMap tokenBits ++ true :: (msb8 sym).take j →
      ∃ u, exec .tsDeserialize s = .next u ∧ u.result = some ⟨.malformedTree, .none⟩ ∧ u.tree = none ∧
        (∀ sym, u.codeAt sym = none) ∧ u.unread = [])

/-- R154: when the tag bit of node number `MAX_NODES + 1` has been read, TS_DESERIALIZE gives `MalformedTree` and
leaves no tree. -/
def Obligations.DeserializeHasACapacity : Prop :=
  ∀ (s : State) (t : Tree) (tag : Bool) (x : Bits),
    s.buStatus = .opened → s.BuBufferOk → s.CursorsOk → s.CountsAreTrue →
    s.src.data.length ≤ s.params.counterMax → s.params.maxNodes < t.tokens.length →
    s.unread = (t.tokens.take s.params.maxNodes).flatMap tokenBits ++ tag :: x →
    ∃ u, exec .tsDeserialize s = .next u ∧ u.result = some ⟨.malformedTree, .none⟩ ∧ u.tree = none ∧ u.unread = x

/-- R155: a tree that TS_SERIALIZE wrote on a fresh channel, closed with `OK`, is the tree TS_DESERIALIZE reads back, and
its code table is the same. -/
def Obligations.SerializedTreesAreReadBack : Prop :=
  ∀ (s u s' : State) (t : Tree),
    s.FreshWrite → s.tree = some t → runOk [.tsSerialize, .bpClose] s = some u →
    s'.FreshRead → s'.src.data = u.sink.data → s'.src.data.length ≤ s'.params.counterMax →
    t.nodes ≤ s'.params.maxNodes →
    ∃ v w w', exec .tsDeserialize s' = .next v ∧ v.result = some ⟨.ok, .none⟩ ∧ v.tree = some t ∧
      exec .tsCodetable v = .next w ∧ exec .tsCodetable u = .next w' ∧ w.code = w'.code

/-- R156 and R88: TS_SIZE returns `nodes + 8 * leaves`, which is the length of the serialized form, `10 * leaves - 1`. -/
def Obligations.SizeIsTheSerializedLength : Prop :=
  decode (.command 0x330000000000) = .ok .tsSize ∧
  (∀ s : State, s.tree = none → exec .tsSize s = .refused .noTree) ∧
  (∀ (s : State) (t : Tree), s.tree = some t →
    exec .tsSize s = .next { s with result := some ⟨.ok, .size (t.nodes + 8 * t.leaves)⟩ }) ∧
  (∀ t : Tree, t.ser.length = t.nodes + 8 * t.leaves ∧ t.nodes + 8 * t.leaves + 1 = 10 * t.leaves ∧
    (pack t.ser).length = (10 * t.leaves + 6) / 8)

/-- The stream items (R81 to R83; that they run as emissions is the model's choice, log entry 5): a token is written
as its bits would be by BP_WRITE_BIT, a length header as BP_WRITE_LENGTH writes it. -/
def Obligations.StreamItemsAreEmitted : Prop :=
  ∀ (s : State),
    (s.bpStatus = .opened → s.host.NeverFails → s.bpBytes + 9 ≤ s.params.counterMax →
      (∃ u, runOk (writeBitCommands [false]) s = some u ∧
        exec .tokenInternal s = .next { u with result := some ⟨.ok, .none⟩ }) ∧
      ∀ sym, ∃ u, runOk (writeBitCommands (true :: msb8 sym)) s = some u ∧
        exec (.tokenLeaf sym) s = .next { u with result := some ⟨.ok, .none⟩ }) ∧
    (∀ n, s.bpStatus = .opened → s.BpBufferOk → s.host.NeverFails → s.bpBytes + 5 ≤ s.params.counterMax →
      ∃ u, exec (.lengthHeader n) s = .next u ∧ u.result = some ⟨.ok, .none⟩ ∧ u.bpFree = 8 ∧
        u.sink.data = s.sink.data ++ (if s.bpFree < 8 then [s.bpBuf] else []) ++ be32 n)

/-! ## huffman_encoder -/

/-- R172 and R176: what a successful HE_COMPRESS leaves on a channel that has taken runs of bits separated by lengths (R108)
since it was opened: the file on a fresh channel (`r = []`, `segments = []`), else what those commands wrote followed by
it, the tree's bits going on in the current byte; and that on a storage that never fails it succeeds, changing nothing
else. -/
def Obligations.CompressWritesTheFile : Prop :=
  ∀ (s₀ s : State) (r : Bits) (segments : List (Word32 × Bits)),
    let before := (channelContents r segments).1
    let last := (channelContents r segments).2
    let freq := frequencies s.rawIn.data
    let t := buildTree freq
    let file := before ++ pack (last ++ t.ser) ++ be32 (BitVec.ofNat 32 s.rawIn.data.length) ++
      pack (codeWords t s.rawIn.data)
    s₀.FreshWrite → runOk (channelCommands r segments) s₀ = some s →
    (∀ u, exec .heCompress s = .next u → u.result = some ⟨.ok, .none⟩ →
      s.rawIn.data.length < 2 ^ 32 ∧ u.sink = ⟨file, false, true⟩ ∧ u.bpStatus = .idle ∧ u.bpBytes = file.length ∧
      u.heLen = BitVec.ofNat 32 s.rawIn.data.length ∧ u.freq = freq ∧ u.tree = some t ∧ u.code = t.codeTable ∧
      u.rawIn = ⟨s.rawIn.data, s.rawIn.data.length⟩) ∧
    (s.host.NeverFails → s.rawIn.data.length < 2 ^ 32 →
      2 * (symbolsOf freq).length ≤ s.params.maxNodes + 1 → file.length ≤ s.params.counterMax →
      ∃ h : HostScript, h.NeverFails ∧
        exec .heCompress s = .next { s with
          bpStatus := .idle, bpBuf := 0, bpFree := 8, bpBytes := file.length, freq := freq, tree := some t
          code := t.codeTable, heLen := BitVec.ofNat 32 s.rawIn.data.length, sink := ⟨file, false, true⟩
          rawIn := ⟨s.rawIn.data, s.rawIn.data.length⟩, host := h, result := some ⟨.ok, .none⟩ })

/-- R173 (a): an input of 2^32 symbols or more ends in `InputTooLong` before anything is written. -/
def Obligations.CompressRefusesLongInputs : Prop :=
  ∀ s : State, s.bpStatus ≠ .idle → 2 ^ 32 ≤ s.rawIn.data.length →
    exec .heCompress s = .next { s with
      freq := frequencies (s.rawIn.data.take (2 ^ 32 - 1)), heLen := BitVec.allOnes 32
      rawIn := ⟨s.rawIn.data, 2 ^ 32⟩, result := some ⟨.inputTooLong, .none⟩ }

/-- R173: the three ways HE_COMPRESS ends, and the channel each leaves: closed and durable, untouched and still open, or
failed (released, where the failure was the close's own). -/
def Obligations.CompressEndsInThreeWays : Prop :=
  ∀ s t : State, exec .heCompress s = .next t →
    (t.result = some ⟨.ok, .none⟩ ∧ t.bpStatus = .idle ∧ t.sink.durable = true ∧ t.sink.attached = false) ∨
    (t.result = some ⟨.inputTooLong, .none⟩ ∧ 2 ^ 32 ≤ s.rawIn.data.length ∧ t.heLen = BitVec.allOnes 32 ∧
      t.bpStatus = s.bpStatus ∧ t.bpBuf = s.bpBuf ∧ t.bpFree = s.bpFree ∧ t.bpBytes = s.bpBytes ∧ t.sink = s.sink ∧
      t.tree = s.tree ∧ t.code = s.code) ∨
    (t.result = some ⟨.writeFailure, .none⟩ ∧
      (t.bpStatus = .failed ∨ (t.bpStatus = .idle ∧ t.sink.attached = false)))

/-- R171 and R176: HE_COMPRESS on an IDLE channel is refused; on a FAILED one steps 1 and 2 run and step 3 returns
`WriteFailure` at its first bit. -/
def Obligations.CompressOnAChannelNotOpen : Prop :=
  ∀ s : State,
    (s.bpStatus = .idle → exec .heCompress s = .refused .writeChannelIdle) ∧
    (s.bpStatus = .failed → s.rawIn.data.length < 2 ^ 32 →
      2 * (symbolsOf (frequencies s.rawIn.data)).length ≤ s.params.maxNodes + 1 →
      exec .heCompress s = .next { s with
        freq := frequencies s.rawIn.data, heLen := BitVec.ofNat 32 s.rawIn.data.length
        tree := some (buildTree (frequencies s.rawIn.data)), code := Vector.replicate 256 none
        rawIn := ⟨s.rawIn.data, s.rawIn.data.length⟩, result := some ⟨.writeFailure, .none⟩ })

/-- R174: the files of the empty input, of one symbol repeated, and the tree part when all 256 symbols occur. -/
def Obligations.EdgeInputsHaveTheStatedFiles : Prop :=
  fileOf (buildTree (frequencies [])) [] = [0x40, 0x20, 0x00, 0x00, 0x00, 0x00, 0x00] ∧
  (∀ (a : Byte) (n : Nat), 0 < n → n < 2 ^ 32 →
    fileOf (buildTree (frequencies (List.replicate n a))) (List.replicate n a) =
      pack (placeholder a).ser ++ be32 (BitVec.ofNat 32 n) ++ List.replicate ((n + 7) / 8) 0 ∧
    (pack (placeholder a).ser).length = 3) ∧
  (∀ syms : List Byte, syms.length < 2 ^ 32 → (∀ a : Byte, a ∈ syms) →
    (pack (buildTree (frequencies syms)).ser).length = 320)

/-! ## huffman_decoder -/

/-- R186 and R187: HD_DECOMPRESS on a stream that holds a tree, any padding, a header and paths of that tree, as many as the
header says, emits the symbols of the leaves they lead to, whether or not a path is its symbol's code word, and stops
there with the rest unread. -/
def Obligations.DecompressEmitsTheSymbols : Prop :=
  ∀ (s : State) (t : Tree) (treeBytes rest : List Byte) (steps : List (Byte × Bits)) (pad tail : Bits) (n : Word32),
    s.buStatus = .opened → s.buAvail = 0 → s.CursorsOk → s.CountsAreTrue →
    s.src.data.length ≤ s.params.counterMax → t.nodes ≤ s.params.maxNodes → s.host.OkFor steps.length →
    s.untaken = treeBytes ++ be32 n ++ rest → streamBits treeBytes = t.ser ++ pad → pad.length < 8 →
    streamBits rest = steps.flatMap (·.2) ++ tail → (∀ e ∈ steps, e ∈ t.paths) → steps.length = n.toNat →
    ∃ u, exec .hdDecompress s = .next u ∧ u.result = some ⟨.ok, .none⟩ ∧ u.rawOut = s.rawOut ++ steps.map (·.1) ∧
      u.hdRemaining = 0 ∧ u.tree = some t ∧ (∀ a, u.codeAt a = none) ∧ u.buStatus = .opened ∧ u.unread = tail

/-- R188: when the tree is a single leaf, its symbol is emitted `N` times and nothing is read after the header. -/
def Obligations.DecompressOfASingleLeaf : Prop :=
  ∀ (s : State) (a : Byte) (treeBytes rest : List Byte) (pad : Bits) (n : Word32),
    s.buStatus = .opened → s.buAvail = 0 → s.CursorsOk → s.CountsAreTrue →
    s.src.data.length ≤ s.params.counterMax → 1 ≤ s.params.maxNodes → s.host.OkFor n.toNat →
    s.untaken = treeBytes ++ be32 n ++ rest → streamBits treeBytes = true :: msb8 a ++ pad → pad.length < 8 →
    ∃ u, exec .hdDecompress s = .next u ∧ u.result = some ⟨.ok, .none⟩ ∧
      u.rawOut = s.rawOut ++ List.replicate n.toNat a ∧ u.hdRemaining = 0 ∧ u.buAvail = 0 ∧ u.untaken = rest

/-- R190 (a) and (b): an error of the tree or of the header is HD_DECOMPRESS's own, in the very state that
TS_DESERIALIZE, or BU_READ_LENGTH after it, leaves; RAWOUT and `hd_remaining` are untouched. (That the tree stays in (b), against R248, is log
entry 19.) -/
def Obligations.DecompressStopsAtTheFirstError : Prop :=
  ∀ s u : State, exec .tsDeserialize s = .next u →
    (∀ e, e ≠ .ok → u.result = some ⟨e, .none⟩ →
      exec .hdDecompress s = .next u ∧ u.tree = none ∧ u.rawOut = s.rawOut ∧ u.hdRemaining = s.hdRemaining) ∧
    (∀ v, u.result = some ⟨.ok, .none⟩ → exec .buReadLength u = .next v →
      v.result = some ⟨.truncatedStream, .none⟩ →
      exec .hdDecompress s = .next v ∧ v.tree = u.tree ∧ v.rawOut = s.rawOut ∧ v.hdRemaining = s.hdRemaining)

/-- R190 (c): a stream that ends inside a descent gives `TruncatedStream`, with the symbols decoded so far in RAWOUT and
the number missing in `hd_remaining`. (That the tree stays, against R248, is log entry 19.) -/
def Obligations.DecompressReportsTruncation : Prop :=
  ∀ (s : State) (t : Tree) (treeBytes rest : List Byte) (steps : List (Byte × Bits)) (pad part p : Bits) (a : Byte)
      (n : Word32),
    s.buStatus = .opened → s.buAvail = 0 → s.CursorsOk → s.CountsAreTrue →
    s.src.data.length < s.params.counterMax → t.nodes ≤ s.params.maxNodes → s.host.OkFor steps.length →
    s.untaken = treeBytes ++ be32 n ++ rest → streamBits treeBytes = t.ser ++ pad → pad.length < 8 →
    streamBits rest = steps.flatMap (·.2) ++ part → (∀ e ∈ steps, e ∈ t.paths) → steps.length < n.toNat →
    (a, p) ∈ t.paths → part <+: p → part ≠ p →
    ∃ u, exec .hdDecompress s = .next u ∧ u.result = some ⟨.truncatedStream, .none⟩ ∧
      u.rawOut = s.rawOut ++ steps.map (·.1) ∧ u.hdRemaining = n - BitVec.ofNat 32 steps.length ∧ u.tree = some t ∧
      u.buStatus = .opened ∧ u.unread = []

/-- R190 (d): a raw output that fails at the symbol after the first ones gives `WriteFailure`; `hd_remaining` counts
the symbols not yet written, the failed one included. (RAWOUT holds the value the host's failing answer carries, U7, log
entry 2; that the tree stays, against R248, is log entry 19.) -/
def Obligations.DecompressReportsWriteFailure : Prop :=
  ∀ (s : State) (t : Tree) (treeBytes rest : List Byte) (steps : List (Byte × Bits)) (e : Byte × Bits) (pad tail : Bits)
      (n : Word32) (l : List Byte) (d : Bool),
    s.buStatus = .opened → s.buAvail = 0 → s.CursorsOk → s.CountsAreTrue →
    s.src.data.length ≤ s.params.counterMax → t.nodes ≤ s.params.maxNodes →
    s.host.OkFor steps.length → (s.host.after steps.length).answer = .fail l d →
    s.untaken = treeBytes ++ be32 n ++ rest → streamBits treeBytes = t.ser ++ pad → pad.length < 8 →
    streamBits rest = (steps ++ [e]).flatMap (·.2) ++ tail → (∀ x ∈ steps ++ [e], x ∈ t.paths) →
    steps.length < n.toNat →
    ∃ u, exec .hdDecompress s = .next u ∧ u.result = some ⟨.writeFailure, .none⟩ ∧ u.rawOut = l ∧
      u.hdRemaining = n - BitVec.ofNat 32 steps.length ∧ u.tree = some t ∧ u.buStatus = .opened ∧ u.unread = tail

/-- R186 and R190: HD_DECOMPRESS never closes the read channel, and a successful one leaves `hd_remaining` 0 and a
tree with an empty code table. -/
def Obligations.DecompressLeavesTheChannelOpen : Prop :=
  ∀ s t : State, exec .hdDecompress s = .next t →
    t.buStatus = .opened ∧ (∀ a, t.codeAt a = none) ∧
    (t.result = some ⟨.ok, .none⟩ → t.hdRemaining = 0 ∧ ∃ tr, t.tree = some tr)

/-- R191: what HE_COMPRESS wrote with `OK` on a fresh channel, HD_DECOMPRESS turns back into the input, if every
RawOutWrite answers ok. -/
def Obligations.DecompressInvertsCompress : Prop :=
  ∀ s t s' : State,
    s.FreshWrite → s.params.wf = true → exec .heCompress s = .next t → t.result = some ⟨.ok, .none⟩ →
    s'.FreshRead → s'.params = s.params → s'.src.data = t.sink.data → s'.rawOut = [] →
    s'.host.OkFor s.rawIn.data.length →
    ∃ u, exec .hdDecompress s' = .next u ∧ u.result = some ⟨.ok, .none⟩ ∧ u.rawOut = s.rawIn.data ∧
      u.hdRemaining = 0 ∧ u.tree = t.tree ∧ u.buStatus = .opened
end

