-- ==== Sys2Proof/Laws/Bits.lean ====
section
/-! SUPPORT. Bits and bytes: `msb8`, `byteOfBits`, `pack` and the bits of a byte stream (00_scope.md R6, R8). -/

namespace Sys2Proof.Machine

@[simp] theorem msb8_length (s : Byte) : (msb8 s).length = 8 := rfl

/-- Bit `i` of a byte read from eight bits, most significant first. -/
theorem byteOfBits_getLsbD (a b c d e f g h : Bool) (i : Nat) :
    (byteOfBits [a, b, c, d, e, f, g, h]).getLsbD i = ([h, g, f, e, d, c, b, a].getD i false) := by
  by_cases hi : i < 8
  · revert a b c d e f g h
    interval_cases i <;> decide
  · rw [BitVec.getLsbD_of_ge _ _ (by omega)]
    simp [List.getD_eq_getElem?_getD, List.getElem?_eq_none (show [h, g, f, e, d, c, b, a].length ≤ i by simp; omega)]

theorem byteOfBits_msb8 (s : Byte) : byteOfBits (msb8 s) = s := by
  apply BitVec.eq_of_getLsbD_eq
  intro i hi
  unfold msb8
  rw [byteOfBits_getLsbD]
  interval_cases i <;> rfl

theorem msb8_byteOfBits (bits : Bits) (h : bits.length = 8) : msb8 (byteOfBits bits) = bits := by
  match bits, h with
  | [a, b, c, d, e, f, g, k], _ => simp only [msb8, byteOfBits_getLsbD]; rfl

/-- The eight positions of byte `k` of `pack(bits)` (R8). -/
theorem packByte_eq (bits : Bits) (k : Nat) :
    packByte bits k = byteOfBits [bits.getD (8 * k) false, bits.getD (8 * k + 1) false, bits.getD (8 * k + 2) false,
      bits.getD (8 * k + 3) false, bits.getD (8 * k + 4) false, bits.getD (8 * k + 5) false,
      bits.getD (8 * k + 6) false, bits.getD (8 * k + 7) false] := rfl

@[simp] theorem pack_nil : pack [] = [] := rfl

@[simp] theorem pack_length (bits : Bits) : (pack bits).length = (bits.length + 7) / 8 := by simp [pack]

/-- `pack` in front of a byte boundary: eight bits make a byte of their own. -/
theorem pack_append_of_dvd (a b : Bits) (h : 8 ∣ a.length) : pack (a ++ b) = pack a ++ pack b := by
  obtain ⟨m, hm⟩ := h
  unfold pack
  have h1 : ((a ++ b).length + 7) / 8 = m + (b.length + 7) / 8 := by rw [List.length_append, hm]; omega
  have h2 : (a.length + 7) / 8 = m := by omega
  rw [h1, h2, List.range_add, List.map_append, List.map_map]
  congr 1
  · apply List.map_congr_left
    intro k hk
    have hk' : k < m := by simpa using hk
    have hj : ∀ j < 8, (a ++ b).getD (8 * k + j) false = a.getD (8 * k + j) false := by
      intro j hj
      rw [List.getD_eq_getElem?_getD, List.getD_eq_getElem?_getD, List.getElem?_append_left (by omega)]
    unfold packByte
    congr 1
    apply List.map_congr_left
    intro j hjm
    exact hj j (by simpa using hjm)
  · apply List.map_congr_left
    intro k _
    unfold packByte
    simp only [Function.comp]
    congr 1
    apply List.map_congr_left
    intro j _
    rw [List.getD_eq_getElem?_getD, List.getD_eq_getElem?_getD, List.getElem?_append_right (by omega)]
    congr 2
    omega

/-- A partial last byte: bits in front, zeros behind. -/
theorem pack_short (bits : Bits) (h : bits ≠ []) (h8 : bits.length ≤ 8) : pack bits = [packByte bits 0] := by
  have : 0 < bits.length := List.length_pos_iff.mpr h
  unfold pack
  have : (bits.length + 7) / 8 = 1 := by omega
  simp [this]

theorem streamBits_append (a b : List Byte) : streamBits (a ++ b) = streamBits a ++ streamBits b := by
  simp [streamBits]

@[simp] theorem streamBits_length (d : List Byte) : (streamBits d).length = 8 * d.length := by
  induction d with
  | nil => rfl
  | cons b d ih => simp [streamBits] at ih ⊢; omega

/-- The bits of a packed sequence are the sequence and the zeros that fill its last byte (R8, R50, R126). -/
theorem streamBits_pack (bits : Bits) :
    streamBits (pack bits) = bits ++ List.replicate (8 * ((bits.length + 7) / 8) - bits.length) false := by
  match bits with
  | [] => rfl
  | [a] => simp [pack, packByte_eq, streamBits, msb8_byteOfBits, List.range_succ, List.replicate]
  | [a, b] => simp [pack, packByte_eq, streamBits, msb8_byteOfBits, List.range_succ, List.replicate]
  | [a, b, c] => simp [pack, packByte_eq, streamBits, msb8_byteOfBits, List.range_succ, List.replicate]
  | [a, b, c, d] => simp [pack, packByte_eq, streamBits, msb8_byteOfBits, List.range_succ, List.replicate]
  | [a, b, c, d, e] => simp [pack, packByte_eq, streamBits, msb8_byteOfBits, List.range_succ, List.replicate]
  | [a, b, c, d, e, f] => simp [pack, packByte_eq, streamBits, msb8_byteOfBits, List.range_succ, List.replicate]
  | [a, b, c, d, e, f, g] => simp [pack, packByte_eq, streamBits, msb8_byteOfBits, List.range_succ]
  | a :: b :: c :: d :: e :: f :: g :: k :: rest =>
    have ih := streamBits_pack rest
    have hs : a :: b :: c :: d :: e :: f :: g :: k :: rest = [a, b, c, d, e, f, g, k] ++ rest := rfl
    have h1 : pack [a, b, c, d, e, f, g, k] = [byteOfBits [a, b, c, d, e, f, g, k]] := by
      rw [pack_short _ (by simp) (by simp)]; rfl
    rw [hs, pack_append_of_dvd _ _ ⟨1, rfl⟩, streamBits_append, ih, h1]
    have h2 : streamBits [byteOfBits [a, b, c, d, e, f, g, k]] = [a, b, c, d, e, f, g, k] := by
      simp [streamBits, msb8_byteOfBits]
    rw [h2, List.append_assoc]
    congr 3
    simp only [List.length_append, List.length_cons, List.length_nil]
    omega
termination_by bits.length
decreasing_by simp; omega

/-- One more bit in the buffered byte: it goes to the first free position (R102). -/
theorem packByte_snoc (bits : Bits) (b : Bool) (h : bits.length < 8) :
    packByte (bits ++ [b]) 0 = packByte bits 0 ||| bitAt b (7 - bits.length) := by
  apply BitVec.eq_of_getLsbD_eq
  intro i hi
  match bits, h with
  | [], _ => revert b; interval_cases i <;> decide
  | [a], _ => revert a b; interval_cases i <;> decide
  | [a, c], _ => revert a b c; interval_cases i <;> decide
  | [a, c, d], _ => revert a b c d; interval_cases i <;> decide
  | [a, c, d, e], _ => revert a b c d e; interval_cases i <;> decide
  | [a, c, d, e, f], _ => revert a b c d e f; interval_cases i <;> decide
  | [a, c, d, e, f, g], _ => revert a b c d e f g; interval_cases i <;> decide
  | [a, c, d, e, f, g, k], _ => revert a b c d e f g k; interval_cases i <;> decide

@[simp] theorem packByte_nil : packByte [] 0 = 0 := rfl

/-- Splitting a sequence at a byte boundary splits its packed bytes. -/
theorem pack_take_drop (bits : Bits) (m : Nat) (h : 8 * m ≤ bits.length) :
    pack bits = pack (bits.take (8 * m)) ++ pack (bits.drop (8 * m)) := by
  conv_lhs => rw [← List.take_append_drop (8 * m) bits]
  exact pack_append_of_dvd _ _ ⟨m, by simp; omega⟩

end Sys2Proof.Machine
end

