-- ==== Sys2Proof/Laws/State.lean ====
section
/-! SUPPORT. One lemma per field per register write: what the write sets and what it leaves. -/

namespace Sys2Proof.Machine

section SetBpStatus
variable (s : State) (v : BpStatus)
@[simp] theorem State.setBpStatus_bpStatus : (s.setBpStatus v).bpStatus = v := rfl
@[simp] theorem State.setBpStatus_bpBuf : (s.setBpStatus v).bpBuf = s.bpBuf := rfl
@[simp] theorem State.setBpStatus_bpFree : (s.setBpStatus v).bpFree = s.bpFree := rfl
@[simp] theorem State.setBpStatus_bpBytes : (s.setBpStatus v).bpBytes = s.bpBytes := rfl
@[simp] theorem State.setBpStatus_buStatus : (s.setBpStatus v).buStatus = s.buStatus := rfl
@[simp] theorem State.setBpStatus_buBuf : (s.setBpStatus v).buBuf = s.buBuf := rfl
@[simp] theorem State.setBpStatus_buAvail : (s.setBpStatus v).buAvail = s.buAvail := rfl
@[simp] theorem State.setBpStatus_buBytes : (s.setBpStatus v).buBytes = s.buBytes := rfl
@[simp] theorem State.setBpStatus_freq : (s.setBpStatus v).freq = s.freq := rfl
@[simp] theorem State.setBpStatus_tree : (s.setBpStatus v).tree = s.tree := rfl
@[simp] theorem State.setBpStatus_code : (s.setBpStatus v).code = s.code := rfl
@[simp] theorem State.setBpStatus_heLen : (s.setBpStatus v).heLen = s.heLen := rfl
@[simp] theorem State.setBpStatus_hdRemaining : (s.setBpStatus v).hdRemaining = s.hdRemaining := rfl
@[simp] theorem State.setBpStatus_sink : (s.setBpStatus v).sink = s.sink := rfl
@[simp] theorem State.setBpStatus_src : (s.setBpStatus v).src = s.src := rfl
@[simp] theorem State.setBpStatus_rawIn : (s.setBpStatus v).rawIn = s.rawIn := rfl
@[simp] theorem State.setBpStatus_rawOut : (s.setBpStatus v).rawOut = s.rawOut := rfl
@[simp] theorem State.setBpStatus_result : (s.setBpStatus v).result = s.result := rfl
@[simp] theorem State.setBpStatus_params : (s.setBpStatus v).params = s.params := rfl
@[simp] theorem State.setBpStatus_inbox : (s.setBpStatus v).inbox = s.inbox := rfl
@[simp] theorem State.setBpStatus_host : (s.setBpStatus v).host = s.host := rfl
end SetBpStatus

section SetBpBuffer
variable (s : State) (v : Byte) (w : Nat)
@[simp] theorem State.setBpBuffer_bpStatus : (s.setBpBuffer v w).bpStatus = s.bpStatus := rfl
@[simp] theorem State.setBpBuffer_bpBuf : (s.setBpBuffer v w).bpBuf = v := rfl
@[simp] theorem State.setBpBuffer_bpFree : (s.setBpBuffer v w).bpFree = w := rfl
@[simp] theorem State.setBpBuffer_bpBytes : (s.setBpBuffer v w).bpBytes = s.bpBytes := rfl
@[simp] theorem State.setBpBuffer_buStatus : (s.setBpBuffer v w).buStatus = s.buStatus := rfl
@[simp] theorem State.setBpBuffer_buBuf : (s.setBpBuffer v w).buBuf = s.buBuf := rfl
@[simp] theorem State.setBpBuffer_buAvail : (s.setBpBuffer v w).buAvail = s.buAvail := rfl
@[simp] theorem State.setBpBuffer_buBytes : (s.setBpBuffer v w).buBytes = s.buBytes := rfl
@[simp] theorem State.setBpBuffer_freq : (s.setBpBuffer v w).freq = s.freq := rfl
@[simp] theorem State.setBpBuffer_tree : (s.setBpBuffer v w).tree = s.tree := rfl
@[simp] theorem State.setBpBuffer_code : (s.setBpBuffer v w).code = s.code := rfl
@[simp] theorem State.setBpBuffer_heLen : (s.setBpBuffer v w).heLen = s.heLen := rfl
@[simp] theorem State.setBpBuffer_hdRemaining : (s.setBpBuffer v w).hdRemaining = s.hdRemaining := rfl
@[simp] theorem State.setBpBuffer_sink : (s.setBpBuffer v w).sink = s.sink := rfl
@[simp] theorem State.setBpBuffer_src : (s.setBpBuffer v w).src = s.src := rfl
@[simp] theorem State.setBpBuffer_rawIn : (s.setBpBuffer v w).rawIn = s.rawIn := rfl
@[simp] theorem State.setBpBuffer_rawOut : (s.setBpBuffer v w).rawOut = s.rawOut := rfl
@[simp] theorem State.setBpBuffer_result : (s.setBpBuffer v w).result = s.result := rfl
@[simp] theorem State.setBpBuffer_params : (s.setBpBuffer v w).params = s.params := rfl
@[simp] theorem State.setBpBuffer_inbox : (s.setBpBuffer v w).inbox = s.inbox := rfl
@[simp] theorem State.setBpBuffer_host : (s.setBpBuffer v w).host = s.host := rfl
end SetBpBuffer

section SetBpBytes
variable (s : State) (v : Nat)
@[simp] theorem State.setBpBytes_bpStatus : (s.setBpBytes v).bpStatus = s.bpStatus := rfl
@[simp] theorem State.setBpBytes_bpBuf : (s.setBpBytes v).bpBuf = s.bpBuf := rfl
@[simp] theorem State.setBpBytes_bpFree : (s.setBpBytes v).bpFree = s.bpFree := rfl
@[simp] theorem State.setBpBytes_bpBytes : (s.setBpBytes v).bpBytes = v := rfl
@[simp] theorem State.setBpBytes_buStatus : (s.setBpBytes v).buStatus = s.buStatus := rfl
@[simp] theorem State.setBpBytes_buBuf : (s.setBpBytes v).buBuf = s.buBuf := rfl
@[simp] theorem State.setBpBytes_buAvail : (s.setBpBytes v).buAvail = s.buAvail := rfl
@[simp] theorem State.setBpBytes_buBytes : (s.setBpBytes v).buBytes = s.buBytes := rfl
@[simp] theorem State.setBpBytes_freq : (s.setBpBytes v).freq = s.freq := rfl
@[simp] theorem State.setBpBytes_tree : (s.setBpBytes v).tree = s.tree := rfl
@[simp] theorem State.setBpBytes_code : (s.setBpBytes v).code = s.code := rfl
@[simp] theorem State.setBpBytes_heLen : (s.setBpBytes v).heLen = s.heLen := rfl
@[simp] theorem State.setBpBytes_hdRemaining : (s.setBpBytes v).hdRemaining = s.hdRemaining := rfl
@[simp] theorem State.setBpBytes_sink : (s.setBpBytes v).sink = s.sink := rfl
@[simp] theorem State.setBpBytes_src : (s.setBpBytes v).src = s.src := rfl
@[simp] theorem State.setBpBytes_rawIn : (s.setBpBytes v).rawIn = s.rawIn := rfl
@[simp] theorem State.setBpBytes_rawOut : (s.setBpBytes v).rawOut = s.rawOut := rfl
@[simp] theorem State.setBpBytes_result : (s.setBpBytes v).result = s.result := rfl
@[simp] theorem State.setBpBytes_params : (s.setBpBytes v).params = s.params := rfl
@[simp] theorem State.setBpBytes_inbox : (s.setBpBytes v).inbox = s.inbox := rfl
@[simp] theorem State.setBpBytes_host : (s.setBpBytes v).host = s.host := rfl
end SetBpBytes

section SetBuStatus
variable (s : State) (v : BuStatus)
@[simp] theorem State.setBuStatus_bpStatus : (s.setBuStatus v).bpStatus = s.bpStatus := rfl
@[simp] theorem State.setBuStatus_bpBuf : (s.setBuStatus v).bpBuf = s.bpBuf := rfl
@[simp] theorem State.setBuStatus_bpFree : (s.setBuStatus v).bpFree = s.bpFree := rfl
@[simp] theorem State.setBuStatus_bpBytes : (s.setBuStatus v).bpBytes = s.bpBytes := rfl
@[simp] theorem State.setBuStatus_buStatus : (s.setBuStatus v).buStatus = v := rfl
@[simp] theorem State.setBuStatus_buBuf : (s.setBuStatus v).buBuf = s.buBuf := rfl
@[simp] theorem State.setBuStatus_buAvail : (s.setBuStatus v).buAvail = s.buAvail := rfl
@[simp] theorem State.setBuStatus_buBytes : (s.setBuStatus v).buBytes = s.buBytes := rfl
@[simp] theorem State.setBuStatus_freq : (s.setBuStatus v).freq = s.freq := rfl
@[simp] theorem State.setBuStatus_tree : (s.setBuStatus v).tree = s.tree := rfl
@[simp] theorem State.setBuStatus_code : (s.setBuStatus v).code = s.code := rfl
@[simp] theorem State.setBuStatus_heLen : (s.setBuStatus v).heLen = s.heLen := rfl
@[simp] theorem State.setBuStatus_hdRemaining : (s.setBuStatus v).hdRemaining = s.hdRemaining := rfl
@[simp] theorem State.setBuStatus_sink : (s.setBuStatus v).sink = s.sink := rfl
@[simp] theorem State.setBuStatus_src : (s.setBuStatus v).src = s.src := rfl
@[simp] theorem State.setBuStatus_rawIn : (s.setBuStatus v).rawIn = s.rawIn := rfl
@[simp] theorem State.setBuStatus_rawOut : (s.setBuStatus v).rawOut = s.rawOut := rfl
@[simp] theorem State.setBuStatus_result : (s.setBuStatus v).result = s.result := rfl
@[simp] theorem State.setBuStatus_params : (s.setBuStatus v).params = s.params := rfl
@[simp] theorem State.setBuStatus_inbox : (s.setBuStatus v).inbox = s.inbox := rfl
@[simp] theorem State.setBuStatus_host : (s.setBuStatus v).host = s.host := rfl
end SetBuStatus

section SetBuBuffer
variable (s : State) (v : Byte) (w : Nat)
@[simp] theorem State.setBuBuffer_bpStatus : (s.setBuBuffer v w).bpStatus = s.bpStatus := rfl
@[simp] theorem State.setBuBuffer_bpBuf : (s.setBuBuffer v w).bpBuf = s.bpBuf := rfl
@[simp] theorem State.setBuBuffer_bpFree : (s.setBuBuffer v w).bpFree = s.bpFree := rfl
@[simp] theorem State.setBuBuffer_bpBytes : (s.setBuBuffer v w).bpBytes = s.bpBytes := rfl
@[simp] theorem State.setBuBuffer_buStatus : (s.setBuBuffer v w).buStatus = s.buStatus := rfl
@[simp] theorem State.setBuBuffer_buBuf : (s.setBuBuffer v w).buBuf = v := rfl
@[simp] theorem State.setBuBuffer_buAvail : (s.setBuBuffer v w).buAvail = w := rfl
@[simp] theorem State.setBuBuffer_buBytes : (s.setBuBuffer v w).buBytes = s.buBytes := rfl
@[simp] theorem State.setBuBuffer_freq : (s.setBuBuffer v w).freq = s.freq := rfl
@[simp] theorem State.setBuBuffer_tree : (s.setBuBuffer v w).tree = s.tree := rfl
@[simp] theorem State.setBuBuffer_code : (s.setBuBuffer v w).code = s.code := rfl
@[simp] theorem State.setBuBuffer_heLen : (s.setBuBuffer v w).heLen = s.heLen := rfl
@[simp] theorem State.setBuBuffer_hdRemaining : (s.setBuBuffer v w).hdRemaining = s.hdRemaining := rfl
@[simp] theorem State.setBuBuffer_sink : (s.setBuBuffer v w).sink = s.sink := rfl
@[simp] theorem State.setBuBuffer_src : (s.setBuBuffer v w).src = s.src := rfl
@[simp] theorem State.setBuBuffer_rawIn : (s.setBuBuffer v w).rawIn = s.rawIn := rfl
@[simp] theorem State.setBuBuffer_rawOut : (s.setBuBuffer v w).rawOut = s.rawOut := rfl
@[simp] theorem State.setBuBuffer_result : (s.setBuBuffer v w).result = s.result := rfl
@[simp] theorem State.setBuBuffer_params : (s.setBuBuffer v w).params = s.params := rfl
@[simp] theorem State.setBuBuffer_inbox : (s.setBuBuffer v w).inbox = s.inbox := rfl
@[simp] theorem State.setBuBuffer_host : (s.setBuBuffer v w).host = s.host := rfl
end SetBuBuffer

section SetBuBytes
variable (s : State) (v : Nat)
@[simp] theorem State.setBuBytes_bpStatus : (s.setBuBytes v).bpStatus = s.bpStatus := rfl
@[simp] theorem State.setBuBytes_bpBuf : (s.setBuBytes v).bpBuf = s.bpBuf := rfl
@[simp] theorem State.setBuBytes_bpFree : (s.setBuBytes v).bpFree = s.bpFree := rfl
@[simp] theorem State.setBuBytes_bpBytes : (s.setBuBytes v).bpBytes = s.bpBytes := rfl
@[simp] theorem State.setBuBytes_buStatus : (s.setBuBytes v).buStatus = s.buStatus := rfl
@[simp] theorem State.setBuBytes_buBuf : (s.setBuBytes v).buBuf = s.buBuf := rfl
@[simp] theorem State.setBuBytes_buAvail : (s.setBuBytes v).buAvail = s.buAvail := rfl
@[simp] theorem State.setBuBytes_buBytes : (s.setBuBytes v).buBytes = v := rfl
@[simp] theorem State.setBuBytes_freq : (s.setBuBytes v).freq = s.freq := rfl
@[simp] theorem State.setBuBytes_tree : (s.setBuBytes v).tree = s.tree := rfl
@[simp] theorem State.setBuBytes_code : (s.setBuBytes v).code = s.code := rfl
@[simp] theorem State.setBuBytes_heLen : (s.setBuBytes v).heLen = s.heLen := rfl
@[simp] theorem State.setBuBytes_hdRemaining : (s.setBuBytes v).hdRemaining = s.hdRemaining := rfl
@[simp] theorem State.setBuBytes_sink : (s.setBuBytes v).sink = s.sink := rfl
@[simp] theorem State.setBuBytes_src : (s.setBuBytes v).src = s.src := rfl
@[simp] theorem State.setBuBytes_rawIn : (s.setBuBytes v).rawIn = s.rawIn := rfl
@[simp] theorem State.setBuBytes_rawOut : (s.setBuBytes v).rawOut = s.rawOut := rfl
@[simp] theorem State.setBuBytes_result : (s.setBuBytes v).result = s.result := rfl
@[simp] theorem State.setBuBytes_params : (s.setBuBytes v).params = s.params := rfl
@[simp] theorem State.setBuBytes_inbox : (s.setBuBytes v).inbox = s.inbox := rfl
@[simp] theorem State.setBuBytes_host : (s.setBuBytes v).host = s.host := rfl
end SetBuBytes

section SetFreq
variable (s : State) (v : Vector Word32 256)
@[simp] theorem State.setFreq_bpStatus : (s.setFreq v).bpStatus = s.bpStatus := rfl
@[simp] theorem State.setFreq_bpBuf : (s.setFreq v).bpBuf = s.bpBuf := rfl
@[simp] theorem State.setFreq_bpFree : (s.setFreq v).bpFree = s.bpFree := rfl
@[simp] theorem State.setFreq_bpBytes : (s.setFreq v).bpBytes = s.bpBytes := rfl
@[simp] theorem State.setFreq_buStatus : (s.setFreq v).buStatus = s.buStatus := rfl
@[simp] theorem State.setFreq_buBuf : (s.setFreq v).buBuf = s.buBuf := rfl
@[simp] theorem State.setFreq_buAvail : (s.setFreq v).buAvail = s.buAvail := rfl
@[simp] theorem State.setFreq_buBytes : (s.setFreq v).buBytes = s.buBytes := rfl
@[simp] theorem State.setFreq_freq : (s.setFreq v).freq = v := rfl
@[simp] theorem State.setFreq_tree : (s.setFreq v).tree = s.tree := rfl
@[simp] theorem State.setFreq_code : (s.setFreq v).code = s.code := rfl
@[simp] theorem State.setFreq_heLen : (s.setFreq v).heLen = s.heLen := rfl
@[simp] theorem State.setFreq_hdRemaining : (s.setFreq v).hdRemaining = s.hdRemaining := rfl
@[simp] theorem State.setFreq_sink : (s.setFreq v).sink = s.sink := rfl
@[simp] theorem State.setFreq_src : (s.setFreq v).src = s.src := rfl
@[simp] theorem State.setFreq_rawIn : (s.setFreq v).rawIn = s.rawIn := rfl
@[simp] theorem State.setFreq_rawOut : (s.setFreq v).rawOut = s.rawOut := rfl
@[simp] theorem State.setFreq_result : (s.setFreq v).result = s.result := rfl
@[simp] theorem State.setFreq_params : (s.setFreq v).params = s.params := rfl
@[simp] theorem State.setFreq_inbox : (s.setFreq v).inbox = s.inbox := rfl
@[simp] theorem State.setFreq_host : (s.setFreq v).host = s.host := rfl
end SetFreq

section SetTree
variable (s : State) (v : Option Tree)
@[simp] theorem State.setTree_bpStatus : (s.setTree v).bpStatus = s.bpStatus := rfl
@[simp] theorem State.setTree_bpBuf : (s.setTree v).bpBuf = s.bpBuf := rfl
@[simp] theorem State.setTree_bpFree : (s.setTree v).bpFree = s.bpFree := rfl
@[simp] theorem State.setTree_bpBytes : (s.setTree v).bpBytes = s.bpBytes := rfl
@[simp] theorem State.setTree_buStatus : (s.setTree v).buStatus = s.buStatus := rfl
@[simp] theorem State.setTree_buBuf : (s.setTree v).buBuf = s.buBuf := rfl
@[simp] theorem State.setTree_buAvail : (s.setTree v).buAvail = s.buAvail := rfl
@[simp] theorem State.setTree_buBytes : (s.setTree v).buBytes = s.buBytes := rfl
@[simp] theorem State.setTree_freq : (s.setTree v).freq = s.freq := rfl
@[simp] theorem State.setTree_tree : (s.setTree v).tree = v := rfl
@[simp] theorem State.setTree_code : (s.setTree v).code = s.code := rfl
@[simp] theorem State.setTree_heLen : (s.setTree v).heLen = s.heLen := rfl
@[simp] theorem State.setTree_hdRemaining : (s.setTree v).hdRemaining = s.hdRemaining := rfl
@[simp] theorem State.setTree_sink : (s.setTree v).sink = s.sink := rfl
@[simp] theorem State.setTree_src : (s.setTree v).src = s.src := rfl
@[simp] theorem State.setTree_rawIn : (s.setTree v).rawIn = s.rawIn := rfl
@[simp] theorem State.setTree_rawOut : (s.setTree v).rawOut = s.rawOut := rfl
@[simp] theorem State.setTree_result : (s.setTree v).result = s.result := rfl
@[simp] theorem State.setTree_params : (s.setTree v).params = s.params := rfl
@[simp] theorem State.setTree_inbox : (s.setTree v).inbox = s.inbox := rfl
@[simp] theorem State.setTree_host : (s.setTree v).host = s.host := rfl
end SetTree

section SetCode
variable (s : State) (v : Vector (Option Bits) 256)
@[simp] theorem State.setCode_bpStatus : (s.setCode v).bpStatus = s.bpStatus := rfl
@[simp] theorem State.setCode_bpBuf : (s.setCode v).bpBuf = s.bpBuf := rfl
@[simp] theorem State.setCode_bpFree : (s.setCode v).bpFree = s.bpFree := rfl
@[simp] theorem State.setCode_bpBytes : (s.setCode v).bpBytes = s.bpBytes := rfl
@[simp] theorem State.setCode_buStatus : (s.setCode v).buStatus = s.buStatus := rfl
@[simp] theorem State.setCode_buBuf : (s.setCode v).buBuf = s.buBuf := rfl
@[simp] theorem State.setCode_buAvail : (s.setCode v).buAvail = s.buAvail := rfl
@[simp] theorem State.setCode_buBytes : (s.setCode v).buBytes = s.buBytes := rfl
@[simp] theorem State.setCode_freq : (s.setCode v).freq = s.freq := rfl
@[simp] theorem State.setCode_tree : (s.setCode v).tree = s.tree := rfl
@[simp] theorem State.setCode_code : (s.setCode v).code = v := rfl
@[simp] theorem State.setCode_heLen : (s.setCode v).heLen = s.heLen := rfl
@[simp] theorem State.setCode_hdRemaining : (s.setCode v).hdRemaining = s.hdRemaining := rfl
@[simp] theorem State.setCode_sink : (s.setCode v).sink = s.sink := rfl
@[simp] theorem State.setCode_src : (s.setCode v).src = s.src := rfl
@[simp] theorem State.setCode_rawIn : (s.setCode v).rawIn = s.rawIn := rfl
@[simp] theorem State.setCode_rawOut : (s.setCode v).rawOut = s.rawOut := rfl
@[simp] theorem State.setCode_result : (s.setCode v).result = s.result := rfl
@[simp] theorem State.setCode_params : (s.setCode v).params = s.params := rfl
@[simp] theorem State.setCode_inbox : (s.setCode v).inbox = s.inbox := rfl
@[simp] theorem State.setCode_host : (s.setCode v).host = s.host := rfl
end SetCode

section SetHeLen
variable (s : State) (v : Word32)
@[simp] theorem State.setHeLen_bpStatus : (s.setHeLen v).bpStatus = s.bpStatus := rfl
@[simp] theorem State.setHeLen_bpBuf : (s.setHeLen v).bpBuf = s.bpBuf := rfl
@[simp] theorem State.setHeLen_bpFree : (s.setHeLen v).bpFree = s.bpFree := rfl
@[simp] theorem State.setHeLen_bpBytes : (s.setHeLen v).bpBytes = s.bpBytes := rfl
@[simp] theorem State.setHeLen_buStatus : (s.setHeLen v).buStatus = s.buStatus := rfl
@[simp] theorem State.setHeLen_buBuf : (s.setHeLen v).buBuf = s.buBuf := rfl
@[simp] theorem State.setHeLen_buAvail : (s.setHeLen v).buAvail = s.buAvail := rfl
@[simp] theorem State.setHeLen_buBytes : (s.setHeLen v).buBytes = s.buBytes := rfl
@[simp] theorem State.setHeLen_freq : (s.setHeLen v).freq = s.freq := rfl
@[simp] theorem State.setHeLen_tree : (s.setHeLen v).tree = s.tree := rfl
@[simp] theorem State.setHeLen_code : (s.setHeLen v).code = s.code := rfl
@[simp] theorem State.setHeLen_heLen : (s.setHeLen v).heLen = v := rfl
@[simp] theorem State.setHeLen_hdRemaining : (s.setHeLen v).hdRemaining = s.hdRemaining := rfl
@[simp] theorem State.setHeLen_sink : (s.setHeLen v).sink = s.sink := rfl
@[simp] theorem State.setHeLen_src : (s.setHeLen v).src = s.src := rfl
@[simp] theorem State.setHeLen_rawIn : (s.setHeLen v).rawIn = s.rawIn := rfl
@[simp] theorem State.setHeLen_rawOut : (s.setHeLen v).rawOut = s.rawOut := rfl
@[simp] theorem State.setHeLen_result : (s.setHeLen v).result = s.result := rfl
@[simp] theorem State.setHeLen_params : (s.setHeLen v).params = s.params := rfl
@[simp] theorem State.setHeLen_inbox : (s.setHeLen v).inbox = s.inbox := rfl
@[simp] theorem State.setHeLen_host : (s.setHeLen v).host = s.host := rfl
end SetHeLen

section SetHdRemaining
variable (s : State) (v : Word32)
@[simp] theorem State.setHdRemaining_bpStatus : (s.setHdRemaining v).bpStatus = s.bpStatus := rfl
@[simp] theorem State.setHdRemaining_bpBuf : (s.setHdRemaining v).bpBuf = s.bpBuf := rfl
@[simp] theorem State.setHdRemaining_bpFree : (s.setHdRemaining v).bpFree = s.bpFree := rfl
@[simp] theorem State.setHdRemaining_bpBytes : (s.setHdRemaining v).bpBytes = s.bpBytes := rfl
@[simp] theorem State.setHdRemaining_buStatus : (s.setHdRemaining v).buStatus = s.buStatus := rfl
@[simp] theorem State.setHdRemaining_buBuf : (s.setHdRemaining v).buBuf = s.buBuf := rfl
@[simp] theorem State.setHdRemaining_buAvail : (s.setHdRemaining v).buAvail = s.buAvail := rfl
@[simp] theorem State.setHdRemaining_buBytes : (s.setHdRemaining v).buBytes = s.buBytes := rfl
@[simp] theorem State.setHdRemaining_freq : (s.setHdRemaining v).freq = s.freq := rfl
@[simp] theorem State.setHdRemaining_tree : (s.setHdRemaining v).tree = s.tree := rfl
@[simp] theorem State.setHdRemaining_code : (s.setHdRemaining v).code = s.code := rfl
@[simp] theorem State.setHdRemaining_heLen : (s.setHdRemaining v).heLen = s.heLen := rfl
@[simp] theorem State.setHdRemaining_hdRemaining : (s.setHdRemaining v).hdRemaining = v := rfl
@[simp] theorem State.setHdRemaining_sink : (s.setHdRemaining v).sink = s.sink := rfl
@[simp] theorem State.setHdRemaining_src : (s.setHdRemaining v).src = s.src := rfl
@[simp] theorem State.setHdRemaining_rawIn : (s.setHdRemaining v).rawIn = s.rawIn := rfl
@[simp] theorem State.setHdRemaining_rawOut : (s.setHdRemaining v).rawOut = s.rawOut := rfl
@[simp] theorem State.setHdRemaining_result : (s.setHdRemaining v).result = s.result := rfl
@[simp] theorem State.setHdRemaining_params : (s.setHdRemaining v).params = s.params := rfl
@[simp] theorem State.setHdRemaining_inbox : (s.setHdRemaining v).inbox = s.inbox := rfl
@[simp] theorem State.setHdRemaining_host : (s.setHdRemaining v).host = s.host := rfl
end SetHdRemaining

section SetSink
variable (s : State) (v : Sink)
@[simp] theorem State.setSink_bpStatus : (s.setSink v).bpStatus = s.bpStatus := rfl
@[simp] theorem State.setSink_bpBuf : (s.setSink v).bpBuf = s.bpBuf := rfl
@[simp] theorem State.setSink_bpFree : (s.setSink v).bpFree = s.bpFree := rfl
@[simp] theorem State.setSink_bpBytes : (s.setSink v).bpBytes = s.bpBytes := rfl
@[simp] theorem State.setSink_buStatus : (s.setSink v).buStatus = s.buStatus := rfl
@[simp] theorem State.setSink_buBuf : (s.setSink v).buBuf = s.buBuf := rfl
@[simp] theorem State.setSink_buAvail : (s.setSink v).buAvail = s.buAvail := rfl
@[simp] theorem State.setSink_buBytes : (s.setSink v).buBytes = s.buBytes := rfl
@[simp] theorem State.setSink_freq : (s.setSink v).freq = s.freq := rfl
@[simp] theorem State.setSink_tree : (s.setSink v).tree = s.tree := rfl
@[simp] theorem State.setSink_code : (s.setSink v).code = s.code := rfl
@[simp] theorem State.setSink_heLen : (s.setSink v).heLen = s.heLen := rfl
@[simp] theorem State.setSink_hdRemaining : (s.setSink v).hdRemaining = s.hdRemaining := rfl
@[simp] theorem State.setSink_sink : (s.setSink v).sink = v := rfl
@[simp] theorem State.setSink_src : (s.setSink v).src = s.src := rfl
@[simp] theorem State.setSink_rawIn : (s.setSink v).rawIn = s.rawIn := rfl
@[simp] theorem State.setSink_rawOut : (s.setSink v).rawOut = s.rawOut := rfl
@[simp] theorem State.setSink_result : (s.setSink v).result = s.result := rfl
@[simp] theorem State.setSink_params : (s.setSink v).params = s.params := rfl
@[simp] theorem State.setSink_inbox : (s.setSink v).inbox = s.inbox := rfl
@[simp] theorem State.setSink_host : (s.setSink v).host = s.host := rfl
end SetSink

section SetSrc
variable (s : State) (v : Src)
@[simp] theorem State.setSrc_bpStatus : (s.setSrc v).bpStatus = s.bpStatus := rfl
@[simp] theorem State.setSrc_bpBuf : (s.setSrc v).bpBuf = s.bpBuf := rfl
@[simp] theorem State.setSrc_bpFree : (s.setSrc v).bpFree = s.bpFree := rfl
@[simp] theorem State.setSrc_bpBytes : (s.setSrc v).bpBytes = s.bpBytes := rfl
@[simp] theorem State.setSrc_buStatus : (s.setSrc v).buStatus = s.buStatus := rfl
@[simp] theorem State.setSrc_buBuf : (s.setSrc v).buBuf = s.buBuf := rfl
@[simp] theorem State.setSrc_buAvail : (s.setSrc v).buAvail = s.buAvail := rfl
@[simp] theorem State.setSrc_buBytes : (s.setSrc v).buBytes = s.buBytes := rfl
@[simp] theorem State.setSrc_freq : (s.setSrc v).freq = s.freq := rfl
@[simp] theorem State.setSrc_tree : (s.setSrc v).tree = s.tree := rfl
@[simp] theorem State.setSrc_code : (s.setSrc v).code = s.code := rfl
@[simp] theorem State.setSrc_heLen : (s.setSrc v).heLen = s.heLen := rfl
@[simp] theorem State.setSrc_hdRemaining : (s.setSrc v).hdRemaining = s.hdRemaining := rfl
@[simp] theorem State.setSrc_sink : (s.setSrc v).sink = s.sink := rfl
@[simp] theorem State.setSrc_src : (s.setSrc v).src = v := rfl
@[simp] theorem State.setSrc_rawIn : (s.setSrc v).rawIn = s.rawIn := rfl
@[simp] theorem State.setSrc_rawOut : (s.setSrc v).rawOut = s.rawOut := rfl
@[simp] theorem State.setSrc_result : (s.setSrc v).result = s.result := rfl
@[simp] theorem State.setSrc_params : (s.setSrc v).params = s.params := rfl
@[simp] theorem State.setSrc_inbox : (s.setSrc v).inbox = s.inbox := rfl
@[simp] theorem State.setSrc_host : (s.setSrc v).host = s.host := rfl
end SetSrc

section SetRawIn
variable (s : State) (v : RawIn)
@[simp] theorem State.setRawIn_bpStatus : (s.setRawIn v).bpStatus = s.bpStatus := rfl
@[simp] theorem State.setRawIn_bpBuf : (s.setRawIn v).bpBuf = s.bpBuf := rfl
@[simp] theorem State.setRawIn_bpFree : (s.setRawIn v).bpFree = s.bpFree := rfl
@[simp] theorem State.setRawIn_bpBytes : (s.setRawIn v).bpBytes = s.bpBytes := rfl
@[simp] theorem State.setRawIn_buStatus : (s.setRawIn v).buStatus = s.buStatus := rfl
@[simp] theorem State.setRawIn_buBuf : (s.setRawIn v).buBuf = s.buBuf := rfl
@[simp] theorem State.setRawIn_buAvail : (s.setRawIn v).buAvail = s.buAvail := rfl
@[simp] theorem State.setRawIn_buBytes : (s.setRawIn v).buBytes = s.buBytes := rfl
@[simp] theorem State.setRawIn_freq : (s.setRawIn v).freq = s.freq := rfl
@[simp] theorem State.setRawIn_tree : (s.setRawIn v).tree = s.tree := rfl
@[simp] theorem State.setRawIn_code : (s.setRawIn v).code = s.code := rfl
@[simp] theorem State.setRawIn_heLen : (s.setRawIn v).heLen = s.heLen := rfl
@[simp] theorem State.setRawIn_hdRemaining : (s.setRawIn v).hdRemaining = s.hdRemaining := rfl
@[simp] theorem State.setRawIn_sink : (s.setRawIn v).sink = s.sink := rfl
@[simp] theorem State.setRawIn_src : (s.setRawIn v).src = s.src := rfl
@[simp] theorem State.setRawIn_rawIn : (s.setRawIn v).rawIn = v := rfl
@[simp] theorem State.setRawIn_rawOut : (s.setRawIn v).rawOut = s.rawOut := rfl
@[simp] theorem State.setRawIn_result : (s.setRawIn v).result = s.result := rfl
@[simp] theorem State.setRawIn_params : (s.setRawIn v).params = s.params := rfl
@[simp] theorem State.setRawIn_inbox : (s.setRawIn v).inbox = s.inbox := rfl
@[simp] theorem State.setRawIn_host : (s.setRawIn v).host = s.host := rfl
end SetRawIn

section SetRawOut
variable (s : State) (v : List Byte)
@[simp] theorem State.setRawOut_bpStatus : (s.setRawOut v).bpStatus = s.bpStatus := rfl
@[simp] theorem State.setRawOut_bpBuf : (s.setRawOut v).bpBuf = s.bpBuf := rfl
@[simp] theorem State.setRawOut_bpFree : (s.setRawOut v).bpFree = s.bpFree := rfl
@[simp] theorem State.setRawOut_bpBytes : (s.setRawOut v).bpBytes = s.bpBytes := rfl
@[simp] theorem State.setRawOut_buStatus : (s.setRawOut v).buStatus = s.buStatus := rfl
@[simp] theorem State.setRawOut_buBuf : (s.setRawOut v).buBuf = s.buBuf := rfl
@[simp] theorem State.setRawOut_buAvail : (s.setRawOut v).buAvail = s.buAvail := rfl
@[simp] theorem State.setRawOut_buBytes : (s.setRawOut v).buBytes = s.buBytes := rfl
@[simp] theorem State.setRawOut_freq : (s.setRawOut v).freq = s.freq := rfl
@[simp] theorem State.setRawOut_tree : (s.setRawOut v).tree = s.tree := rfl
@[simp] theorem State.setRawOut_code : (s.setRawOut v).code = s.code := rfl
@[simp] theorem State.setRawOut_heLen : (s.setRawOut v).heLen = s.heLen := rfl
@[simp] theorem State.setRawOut_hdRemaining : (s.setRawOut v).hdRemaining = s.hdRemaining := rfl
@[simp] theorem State.setRawOut_sink : (s.setRawOut v).sink = s.sink := rfl
@[simp] theorem State.setRawOut_src : (s.setRawOut v).src = s.src := rfl
@[simp] theorem State.setRawOut_rawIn : (s.setRawOut v).rawIn = s.rawIn := rfl
@[simp] theorem State.setRawOut_rawOut : (s.setRawOut v).rawOut = v := rfl
@[simp] theorem State.setRawOut_result : (s.setRawOut v).result = s.result := rfl
@[simp] theorem State.setRawOut_params : (s.setRawOut v).params = s.params := rfl
@[simp] theorem State.setRawOut_inbox : (s.setRawOut v).inbox = s.inbox := rfl
@[simp] theorem State.setRawOut_host : (s.setRawOut v).host = s.host := rfl
end SetRawOut

section SetResult
variable (s : State) (v : Option Result)
@[simp] theorem State.setResult_bpStatus : (s.setResult v).bpStatus = s.bpStatus := rfl
@[simp] theorem State.setResult_bpBuf : (s.setResult v).bpBuf = s.bpBuf := rfl
@[simp] theorem State.setResult_bpFree : (s.setResult v).bpFree = s.bpFree := rfl
@[simp] theorem State.setResult_bpBytes : (s.setResult v).bpBytes = s.bpBytes := rfl
@[simp] theorem State.setResult_buStatus : (s.setResult v).buStatus = s.buStatus := rfl
@[simp] theorem State.setResult_buBuf : (s.setResult v).buBuf = s.buBuf := rfl
@[simp] theorem State.setResult_buAvail : (s.setResult v).buAvail = s.buAvail := rfl
@[simp] theorem State.setResult_buBytes : (s.setResult v).buBytes = s.buBytes := rfl
@[simp] theorem State.setResult_freq : (s.setResult v).freq = s.freq := rfl
@[simp] theorem State.setResult_tree : (s.setResult v).tree = s.tree := rfl
@[simp] theorem State.setResult_code : (s.setResult v).code = s.code := rfl
@[simp] theorem State.setResult_heLen : (s.setResult v).heLen = s.heLen := rfl
@[simp] theorem State.setResult_hdRemaining : (s.setResult v).hdRemaining = s.hdRemaining := rfl
@[simp] theorem State.setResult_sink : (s.setResult v).sink = s.sink := rfl
@[simp] theorem State.setResult_src : (s.setResult v).src = s.src := rfl
@[simp] theorem State.setResult_rawIn : (s.setResult v).rawIn = s.rawIn := rfl
@[simp] theorem State.setResult_rawOut : (s.setResult v).rawOut = s.rawOut := rfl
@[simp] theorem State.setResult_result : (s.setResult v).result = v := rfl
@[simp] theorem State.setResult_params : (s.setResult v).params = s.params := rfl
@[simp] theorem State.setResult_inbox : (s.setResult v).inbox = s.inbox := rfl
@[simp] theorem State.setResult_host : (s.setResult v).host = s.host := rfl
end SetResult

section SetInbox
variable (s : State) (v : List HostMove)
@[simp] theorem State.setInbox_bpStatus : (s.setInbox v).bpStatus = s.bpStatus := rfl
@[simp] theorem State.setInbox_bpBuf : (s.setInbox v).bpBuf = s.bpBuf := rfl
@[simp] theorem State.setInbox_bpFree : (s.setInbox v).bpFree = s.bpFree := rfl
@[simp] theorem State.setInbox_bpBytes : (s.setInbox v).bpBytes = s.bpBytes := rfl
@[simp] theorem State.setInbox_buStatus : (s.setInbox v).buStatus = s.buStatus := rfl
@[simp] theorem State.setInbox_buBuf : (s.setInbox v).buBuf = s.buBuf := rfl
@[simp] theorem State.setInbox_buAvail : (s.setInbox v).buAvail = s.buAvail := rfl
@[simp] theorem State.setInbox_buBytes : (s.setInbox v).buBytes = s.buBytes := rfl
@[simp] theorem State.setInbox_freq : (s.setInbox v).freq = s.freq := rfl
@[simp] theorem State.setInbox_tree : (s.setInbox v).tree = s.tree := rfl
@[simp] theorem State.setInbox_code : (s.setInbox v).code = s.code := rfl
@[simp] theorem State.setInbox_heLen : (s.setInbox v).heLen = s.heLen := rfl
@[simp] theorem State.setInbox_hdRemaining : (s.setInbox v).hdRemaining = s.hdRemaining := rfl
@[simp] theorem State.setInbox_sink : (s.setInbox v).sink = s.sink := rfl
@[simp] theorem State.setInbox_src : (s.setInbox v).src = s.src := rfl
@[simp] theorem State.setInbox_rawIn : (s.setInbox v).rawIn = s.rawIn := rfl
@[simp] theorem State.setInbox_rawOut : (s.setInbox v).rawOut = s.rawOut := rfl
@[simp] theorem State.setInbox_result : (s.setInbox v).result = s.result := rfl
@[simp] theorem State.setInbox_params : (s.setInbox v).params = s.params := rfl
@[simp] theorem State.setInbox_inbox : (s.setInbox v).inbox = v := rfl
@[simp] theorem State.setInbox_host : (s.setInbox v).host = s.host := rfl
end SetInbox

section SetHost
variable (s : State) (v : HostScript)
@[simp] theorem State.setHost_bpStatus : (s.setHost v).bpStatus = s.bpStatus := rfl
@[simp] theorem State.setHost_bpBuf : (s.setHost v).bpBuf = s.bpBuf := rfl
@[simp] theorem State.setHost_bpFree : (s.setHost v).bpFree = s.bpFree := rfl
@[simp] theorem State.setHost_bpBytes : (s.setHost v).bpBytes = s.bpBytes := rfl
@[simp] theorem State.setHost_buStatus : (s.setHost v).buStatus = s.buStatus := rfl
@[simp] theorem State.setHost_buBuf : (s.setHost v).buBuf = s.buBuf := rfl
@[simp] theorem State.setHost_buAvail : (s.setHost v).buAvail = s.buAvail := rfl
@[simp] theorem State.setHost_buBytes : (s.setHost v).buBytes = s.buBytes := rfl
@[simp] theorem State.setHost_freq : (s.setHost v).freq = s.freq := rfl
@[simp] theorem State.setHost_tree : (s.setHost v).tree = s.tree := rfl
@[simp] theorem State.setHost_code : (s.setHost v).code = s.code := rfl
@[simp] theorem State.setHost_heLen : (s.setHost v).heLen = s.heLen := rfl
@[simp] theorem State.setHost_hdRemaining : (s.setHost v).hdRemaining = s.hdRemaining := rfl
@[simp] theorem State.setHost_sink : (s.setHost v).sink = s.sink := rfl
@[simp] theorem State.setHost_src : (s.setHost v).src = s.src := rfl
@[simp] theorem State.setHost_rawIn : (s.setHost v).rawIn = s.rawIn := rfl
@[simp] theorem State.setHost_rawOut : (s.setHost v).rawOut = s.rawOut := rfl
@[simp] theorem State.setHost_result : (s.setHost v).result = s.result := rfl
@[simp] theorem State.setHost_params : (s.setHost v).params = s.params := rfl
@[simp] theorem State.setHost_inbox : (s.setHost v).inbox = s.inbox := rfl
@[simp] theorem State.setHost_host : (s.setHost v).host = v := rfl
end SetHost

end Sys2Proof.Machine
end

