-- ==== Sys2Proof/Laws/Flow.lean ====
section
/-! SUPPORT. How the pieces of a command compose, and what each storage primitive can do. -/

namespace Sys2Proof.Machine

variable {α β : Type}

@[simp] theorem Flow.bind_ret (a : α) (s : State) (f : α → State → Flow β) : (Flow.ret a s).bind f = f a s := rfl
@[simp] theorem Flow.bind_raise (e : Status) (s : State) (f : α → State → Flow β) :
    (Flow.raise e s).bind f = .raise e s := rfl
@[simp] theorem Flow.bind_refuse (r : Refusal) (s : State) (f : α → State → Flow β) :
    (Flow.refuse r s).bind f = .refuse r s := rfl

theorem Flow.bind_assoc {γ : Type} (x : Flow α) (f : α → State → Flow β) (g : β → State → Flow γ) :
    (x.bind f).bind g = x.bind fun a s => (f a s).bind g := by
  cases x <;> rfl

@[simp] theorem Flow.finish_ret (v : Value) (s : State) :
    (Flow.ret v s).finish = .next (s.setResult (some ⟨.ok, v⟩)) := rfl
@[simp] theorem Flow.finish_raise (e : Status) (s : State) :
    (Flow.raise e s : Flow Value).finish = .next (s.setResult (some ⟨e, .none⟩)) := rfl
@[simp] theorem Flow.finish_refuse (r : Refusal) (s : State) :
    (Flow.refuse r s : Flow Value).finish = .refused r := rfl

@[simp] theorem Flow.reached_ret (a : α) (s : State) : (Flow.ret a s).reached = s := rfl
@[simp] theorem Flow.reached_raise (e : Status) (s : State) : (Flow.raise e s : Flow α).reached = s := rfl
@[simp] theorem Flow.reached_refuse (r : Refusal) (s : State) : (Flow.refuse r s : Flow α).reached = s := rfl

/-- What a piece of pseudocode leaves: `P` of the value and state when it runs on, `Q` of the state when it ends the
command; nothing is said of a refusal. -/
def Flow.Post (P : α → State → Prop) (Q : State → Prop) : Flow α → Prop
  | .ret a s => P a s
  | .raise _ s => Q s
  | .refuse _ _ => True

@[simp] theorem Flow.post_ret (P : α → State → Prop) (Q : State → Prop) (a : α) (s : State) :
    (Flow.ret a s).Post P Q ↔ P a s := Iff.rfl
@[simp] theorem Flow.post_raise (P : α → State → Prop) (Q : State → Prop) (e : Status) (s : State) :
    (Flow.raise e s : Flow α).Post P Q ↔ Q s := Iff.rfl
@[simp] theorem Flow.post_refuse (P : α → State → Prop) (Q : State → Prop) (r : Refusal) (s : State) :
    (Flow.refuse r s : Flow α).Post P Q ↔ True := Iff.rfl

theorem Flow.Post.bind {P : α → State → Prop} {Q : State → Prop} {P' : β → State → Prop} {x : Flow α}
    {f : α → State → Flow β} (hx : x.Post P Q) (hf : ∀ a s, P a s → (f a s).Post P' Q) : (x.bind f).Post P' Q := by
  cases x with
  | ret a s => exact hf a s hx
  | raise e s => exact hx
  | refuse r z => exact trivial

theorem Flow.Post.mono {P P' : α → State → Prop} {Q Q' : State → Prop} {x : Flow α} (hx : x.Post P Q)
    (hP : ∀ a s, P a s → P' a s) (hQ : ∀ s, Q s → Q' s) : x.Post P' Q' := by
  cases x with
  | ret a s => exact hP a s hx
  | raise e s => exact hQ s hx
  | refuse r z => exact trivial

/-- A command whose pseudocode keeps `Q` on every path leaves `Q`, if recording the result does. -/
theorem Flow.Post.finish {P : Value → State → Prop} {Q : State → Prop} {x : Flow Value} {t : State}
    (hx : x.Post P Q) (hP : ∀ v s, P v s → Q s) (hQ : ∀ s r, Q s → Q (s.setResult r)) (h : x.finish = .next t) :
    Q t := by
  cases x with
  | ret a s => cases h; exact hQ _ _ (hP _ _ hx)
  | raise e s => cases h; exact hQ _ _ hx
  | refuse r z => cases h

/-- A command ends in a next state exactly when its pseudocode is not refused. -/
theorem Flow.finish_next_iff (x : Flow Value) (t : State) :
    x.finish = .next t ↔
      (∃ v s, x = .ret v s ∧ t = s.setResult (some ⟨.ok, v⟩)) ∨
      (∃ e s, x = .raise e s ∧ t = s.setResult (some ⟨e, .none⟩)) := by
  cases x with
  | ret a s => simp [eq_comm]
  | raise e s => simp [eq_comm]
  | refuse r z => simp

/-! ## The storage primitives -/

/-- A state whose `host` script has moved on by one answer. -/
@[simp] theorem State.drawn_eq (s : State) : s.drawn = s.setHost s.host.advance := rfl

theorem State.sinkOpen_cases (s : State) :
    s.sinkOpen = (true, s.drawn.setSink ⟨[], true, false⟩) ∨ s.sinkOpen = (false, s.drawn) := by
  unfold State.sinkOpen; split <;> simp

theorem State.sinkWrite_cases (s : State) (b : Byte) :
    s.sinkWrite b = (true, s.drawn.setSink ⟨s.sink.data ++ [b], s.sink.attached, false⟩) ∨
    ∃ left, s.sinkWrite b = (false, s.drawn.setSink ⟨left, s.sink.attached, s.sink.durable⟩) := by
  unfold State.sinkWrite; split
  · exact .inl rfl
  · exact .inr ⟨_, rfl⟩

theorem State.sinkFlush_cases (s : State) :
    s.sinkFlush = (true, s.drawn.setSink ⟨s.sink.data, s.sink.attached, true⟩) ∨
    ∃ d, s.sinkFlush = (false, s.drawn.setSink ⟨s.sink.data, s.sink.attached, d⟩) := by
  unfold State.sinkFlush; split
  · exact .inl rfl
  · exact .inr ⟨_, rfl⟩

theorem State.srcOpen_cases (s : State) :
    s.srcOpen = (true, s.drawn.setSrc ⟨s.src.data, 0, true⟩) ∨ s.srcOpen = (false, s.drawn) := by
  unfold State.srcOpen; split <;> simp

theorem State.srcRead_cases (s : State) :
    (∃ b, s.src.data[s.src.pos]? = some b ∧
      s.srcRead = (some b, s.setSrc ⟨s.src.data, s.src.pos + 1, s.src.attached⟩)) ∨
    (s.src.data[s.src.pos]? = none ∧ s.srcRead = (none, s)) := by
  unfold State.srcRead; split <;> simp_all

theorem State.rawInRead_cases (s : State) :
    (∃ b, s.rawIn.data[s.rawIn.pos]? = some b ∧
      s.rawInRead = (some b, s.setRawIn ⟨s.rawIn.data, s.rawIn.pos + 1⟩)) ∨
    (s.rawIn.data[s.rawIn.pos]? = none ∧ s.rawInRead = (none, s)) := by
  unfold State.rawInRead; split <;> simp_all

theorem State.rawOutWrite_cases (s : State) (b : Byte) :
    s.rawOutWrite b = (true, s.drawn.setRawOut (s.rawOut ++ [b])) ∨
    ∃ left, s.rawOutWrite b = (false, s.drawn.setRawOut left) := by
  unfold State.rawOutWrite; split
  · exact .inl rfl
  · exact .inr ⟨_, rfl⟩

end Sys2Proof.Machine
end

