-- ==== Sys2Proof/Laws/Frames.lean ====
section
/-! SUPPORT. What each sub-operation leaves unchanged, on every path that is not refused. -/

namespace Sys2Proof.Machine

/-- Only the bit_packer's registers, SINK and the host's script may differ. -/
structure OnlyPacker (s t : State) : Prop where
  buStatus : t.buStatus = s.buStatus
  buBuf : t.buBuf = s.buBuf
  buAvail : t.buAvail = s.buAvail
  buBytes : t.buBytes = s.buBytes
  freq : t.freq = s.freq
  tree : t.tree = s.tree
  code : t.code = s.code
  heLen : t.heLen = s.heLen
  hdRemaining : t.hdRemaining = s.hdRemaining
  src : t.src = s.src
  rawIn : t.rawIn = s.rawIn
  rawOut : t.rawOut = s.rawOut
  result : t.result = s.result
  params : t.params = s.params
  inbox : t.inbox = s.inbox

/-- Only the bit_unpacker's registers and the cursor of SRC may differ. -/
structure OnlyUnpacker (s t : State) : Prop where
  bpStatus : t.bpStatus = s.bpStatus
  bpBuf : t.bpBuf = s.bpBuf
  bpFree : t.bpFree = s.bpFree
  bpBytes : t.bpBytes = s.bpBytes
  buStatus : t.buStatus = s.buStatus
  freq : t.freq = s.freq
  tree : t.tree = s.tree
  code : t.code = s.code
  heLen : t.heLen = s.heLen
  hdRemaining : t.hdRemaining = s.hdRemaining
  sink : t.sink = s.sink
  srcData : t.src.data = s.src.data
  srcAttached : t.src.attached = s.src.attached
  rawIn : t.rawIn = s.rawIn
  rawOut : t.rawOut = s.rawOut
  result : t.result = s.result
  params : t.params = s.params
  inbox : t.inbox = s.inbox
  host : t.host = s.host

theorem OnlyPacker.refl (s : State) : OnlyPacker s s := by constructor <;> rfl

theorem OnlyPacker.trans {s t u : State} (h : OnlyPacker s t) (k : OnlyPacker t u) : OnlyPacker s u := by
  cases h; cases k; constructor <;> simp_all

theorem OnlyUnpacker.refl (s : State) : OnlyUnpacker s s := by constructor <;> rfl

theorem OnlyUnpacker.trans {s t u : State} (h : OnlyUnpacker s t) (k : OnlyUnpacker t u) : OnlyUnpacker s u := by
  cases h; cases k; constructor <;> simp_all

/-- Two lines that each keep to the bit_packer keep to it together. -/
theorem Flow.Post.packer {α β : Type} {s : State} {x : Flow α} {f : α → State → Flow β}
    (hx : x.Post (fun _ t => OnlyPacker s t) (OnlyPacker s))
    (hf : ∀ a t, (f a t).Post (fun _ u => OnlyPacker t u) (OnlyPacker t)) :
    (x.bind f).Post (fun _ t => OnlyPacker s t) (OnlyPacker s) :=
  hx.bind fun a t h => (hf a t).mono (fun _ _ k => h.trans k) fun _ k => h.trans k

/-- Two lines that each keep to the bit_unpacker keep to it together. -/
theorem Flow.Post.unpacker {α β : Type} {s : State} {x : Flow α} {f : α → State → Flow β}
    (hx : x.Post (fun _ t => OnlyUnpacker s t) (OnlyUnpacker s))
    (hf : ∀ a t, (f a t).Post (fun _ u => OnlyUnpacker t u) (OnlyUnpacker t)) :
    (x.bind f).Post (fun _ t => OnlyUnpacker s t) (OnlyUnpacker s) :=
  hx.bind fun a t h => (hf a t).mono (fun _ _ k => h.trans k) fun _ k => h.trans k

/-! ## The bit_packer -/

theorem bpFlush_only (s : State) : (bpFlush s).Post (fun _ t => OnlyPacker s t) (OnlyPacker s) := by
  unfold bpFlush
  split
  · trivial
  · rcases s.sinkWrite_cases s.bpBuf with h | ⟨left, h⟩ <;> rw [h] <;> constructor <;> simp

theorem bpWritable_only (s : State) : (bpWritable s).Post (fun _ t => t = s) (· = s) := by
  unfold bpWritable; split <;> simp

theorem insertBit_only (b : Bool) (s : State) : OnlyPacker s (insertBit b s) := by
  constructor <;> simp [insertBit]

theorem writeBit_only (b : Bool) (s : State) : (writeBit b s).Post (fun _ t => OnlyPacker s t) (OnlyPacker s) := by
  unfold writeBit
  refine (bpWritable_only s |>.mono (fun _ t h => by subst h; exact OnlyPacker.refl _) fun _ h => by subst h; exact OnlyPacker.refl _).packer
    fun _ t => ?_
  refine Flow.Post.packer ?_ fun _ u => insertBit_only b u
  split
  · exact bpFlush_only t
  · exact OnlyPacker.refl t

theorem writeBits_only (bits : Bits) (s : State) :
    (writeBits bits s).Post (fun _ t => OnlyPacker s t) (OnlyPacker s) := by
  induction bits generalizing s with
  | nil => exact OnlyPacker.refl s
  | cons b bs ih => exact (writeBit_only b s).packer fun _ t => ih t

theorem writeByte_only (b : Byte) (s : State) : (writeByte b s).Post (fun _ t => OnlyPacker s t) (OnlyPacker s) := by
  unfold writeByte
  split
  · trivial
  · rcases s.sinkWrite_cases b with h | ⟨left, h⟩ <;> rw [h] <;> constructor <;> simp

theorem writeBytes_only (bytes : List Byte) (s : State) :
    (writeBytes bytes s).Post (fun _ t => OnlyPacker s t) (OnlyPacker s) := by
  induction bytes generalizing s with
  | nil => exact OnlyPacker.refl s
  | cons b bs ih => exact (writeByte_only b s).packer fun _ t => ih t

theorem writeLength_only (n : Word32) (s : State) :
    (writeLength n s).Post (fun _ t => OnlyPacker s t) (OnlyPacker s) := by
  unfold writeLength
  refine (bpWritable_only s |>.mono (fun _ t h => by subst h; exact OnlyPacker.refl _) fun _ h => by subst h; exact OnlyPacker.refl _).packer
    fun _ t => ?_
  refine Flow.Post.packer ?_ fun _ u => writeBytes_only _ u
  split
  · exact bpFlush_only t
  · exact OnlyPacker.refl t

theorem closeLastByte_only (s : State) : (closeLastByte s).Post (fun _ t => OnlyPacker s t) (OnlyPacker s) := by
  unfold closeLastByte
  split
  · split
    · trivial
    · rcases s.sinkWrite_cases s.bpBuf with h | ⟨left, h⟩ <;> rw [h] <;> constructor <;>
        simp [bpRelease, State.sinkRelease]
  · exact OnlyPacker.refl s

theorem closeStorage_only (s : State) : (closeStorage s).Post (fun _ t => OnlyPacker s t) (OnlyPacker s) := by
  unfold closeStorage
  rcases s.sinkFlush_cases with h | ⟨d, h⟩ <;> rw [h] <;> constructor <;> simp [bpRelease, State.sinkRelease]

theorem bpClose_only (s : State) : (bpClose s).Post (fun _ t => OnlyPacker s t) (OnlyPacker s) := by
  unfold bpClose
  split
  · trivial
  · constructor <;> simp [bpRelease, State.sinkRelease]
  · exact (closeLastByte_only s).packer fun _ t => closeStorage_only t

theorem emitLeaf_only (sym : Byte) (s : State) :
    (emitLeaf sym s).Post (fun _ t => OnlyPacker s t) (OnlyPacker s) :=
  (writeBit_only true s).packer fun _ t => writeBits_only _ t

theorem emit_only (t : Tree) (s : State) : (emit t s).Post (fun _ u => OnlyPacker s u) (OnlyPacker s) := by
  induction t generalizing s with
  | leaf sym => exact emitLeaf_only sym s
  | internal l r ihl ihr =>
    refine (writeBit_only false s).packer fun _ t => ?_
    exact (ihl t).packer fun _ u => ihr u

theorem theTree_only (s : State) : (theTree s).Post (fun t u => s.tree = some t ∧ u = s) (fun _ => False) := by
  unfold theTree; split <;> simp_all

theorem serialize_only (s : State) : (serialize s).Post (fun _ t => OnlyPacker s t) (OnlyPacker s) := by
  unfold serialize
  refine (theTree_only s |>.mono (fun _ t h => by rw [h.2]; exact OnlyPacker.refl _) fun _ h => h.elim).packer
    fun t u => emit_only t u

/-! ## The bit_unpacker -/

theorem fetchByte_only (s : State) : (fetchByte s).Post (fun _ t => OnlyUnpacker s t) (fun _ => False) := by
  unfold fetchByte
  split
  · trivial
  · rcases s.srcRead_cases with ⟨b, _, h⟩ | ⟨_, h⟩ <;> rw [h] <;> constructor <;> simp

theorem buReadable_only (s : State) : (buReadable s).Post (fun _ t => t = s) (fun _ => False) := by
  unfold buReadable; split <;> simp

theorem readBit_only (s : State) : (readBit s).Post (fun _ t => OnlyUnpacker s t) (fun _ => False) := by
  unfold readBit
  refine (buReadable_only s).bind fun _ t h => ?_
  subst h
  refine Flow.Post.bind (P := fun _ u => OnlyUnpacker t u) ?_ fun more u h => ?_
  · split
    · exact fetchByte_only t
    · exact OnlyUnpacker.refl t
  · split
    · exact h.trans (by constructor <;> simp)
    · exact h

theorem takeLengthBytes_only (k : Nat) (n : Word32) (s : State) :
    (takeLengthBytes k n s).Post (fun _ t => OnlyUnpacker s t) (OnlyUnpacker s) := by
  induction k generalizing n s with
  | zero => exact OnlyUnpacker.refl s
  | succ k ih =>
    unfold takeLengthBytes
    split
    · trivial
    · rcases s.srcRead_cases with ⟨b, _, h⟩ | ⟨_, h⟩ <;> rw [h]
      · refine (ih _ _).mono (fun _ _ k => ?_) fun _ k => ?_ <;> refine OnlyUnpacker.trans ?_ k <;>
          constructor <;> simp
      · exact OnlyUnpacker.refl s

theorem readLength_only (s : State) : (readLength s).Post (fun _ t => OnlyUnpacker s t) (OnlyUnpacker s) := by
  unfold readLength
  refine (buReadable_only s |>.mono (fun _ t h => by rw [h]; exact OnlyUnpacker.refl _) fun _ h => h.elim).unpacker
    fun _ t => ?_
  refine (takeLengthBytes_only 4 0 (t.setBuBuffer 0 0)).mono (fun _ _ k => ?_) fun _ k => ?_ <;>
    refine OnlyUnpacker.trans ?_ k <;> constructor <;> simp

theorem readSymbol_only (k : Nat) (acc : Byte) (s : State) :
    (readSymbol k acc s).Post (fun _ t => OnlyUnpacker s t) (OnlyUnpacker s) := by
  induction k generalizing acc s with
  | zero => exact OnlyUnpacker.refl s
  | succ k ih =>
    unfold readSymbol
    refine ((readBit_only s).mono (fun _ _ h => h) fun _ h => h.elim).unpacker fun r t => ?_
    cases r with
    | none => exact OnlyUnpacker.refl t
    | some b => exact ih _ t

theorem parse_only (fuel count : Nat) (s : State) :
    (parse fuel count s).Post (fun _ t => OnlyUnpacker s t) (OnlyUnpacker s) := by
  induction fuel generalizing count s with
  | zero => exact OnlyUnpacker.refl s
  | succ fuel ih =>
    unfold parse
    refine ((readBit_only s).mono (fun _ _ h => h) fun _ h => h.elim).unpacker fun r t => ?_
    cases r with
    | none => exact OnlyUnpacker.refl t
    | some tag =>
      dsimp only
      split
      · exact OnlyUnpacker.refl t
      · split
        · exact (readSymbol_only 8 0 t).unpacker fun _ u => OnlyUnpacker.refl u
        · exact (ih _ t).unpacker fun l u =>
            (ih _ u).unpacker fun _ v => OnlyUnpacker.refl v

theorem decodeOne_only (t : Tree) (s : State) :
    (decodeOne t s).Post (fun _ u => OnlyUnpacker s u) (OnlyUnpacker s) := by
  induction t generalizing s with
  | leaf sym => exact OnlyUnpacker.refl s
  | internal l r ihl ihr =>
    unfold decodeOne
    refine ((readBit_only s).mono (fun _ _ h => h) fun _ h => h.elim).unpacker fun b t => ?_
    match b with
    | none => exact OnlyUnpacker.refl t
    | some false => exact ihl t
    | some true => exact ihr t

end Sys2Proof.Machine
end

