-- ==== Sys2Proof/Laws/WriteChannel.lean ====
section
/-! SUPPORT. The write channel: each sub-operation's result by cases, and what SINK and the buffer hold after a run of
bits (40_bit_packer.md R102, R103, R105, R108). -/

namespace Sys2Proof.Machine

/-! ## The host's script -/

theorem HostScript.NeverFails.answer {h : HostScript} (hn : h.NeverFails) : h.answer = .ok := by
  unfold HostScript.answer
  rcases hq : h.queue with _ | ⟨a, rest⟩
  · simp [hn.2]
  · exact hn.1 a (by simp [hq])

theorem HostScript.NeverFails.advance {h : HostScript} (hn : h.NeverFails) : h.advance.NeverFails :=
  ⟨fun a ha => hn.1 a (List.mem_of_mem_tail ha), hn.2⟩

theorem State.sinkWrite_ok {s : State} (h : s.host.answer = .ok) (b : Byte) :
    s.sinkWrite b = (true, s.drawn.setSink ⟨s.sink.data ++ [b], s.sink.attached, false⟩) := by
  simp [State.sinkWrite, State.answer, h]

theorem State.sinkFlush_ok {s : State} (h : s.host.answer = .ok) :
    s.sinkFlush = (true, s.drawn.setSink ⟨s.sink.data, s.sink.attached, true⟩) := by
  simp [State.sinkFlush, State.answer, h]

theorem State.rawOutWrite_ok {s : State} (h : s.host.answer = .ok) (b : Byte) :
    s.rawOutWrite b = (true, s.drawn.setRawOut (s.rawOut ++ [b])) := by
  simp [State.rawOutWrite, State.answer, h]

/-! ## One bit -/

/-- The state after a successful flush of the buffered byte (R100). -/
def flushed (s : State) : State :=
  ((s.drawn.setSink ⟨s.sink.data ++ [s.bpBuf], s.sink.attached, false⟩).setBpBytes (s.bpBytes + 1)).setBpBuffer 0 8

theorem bpFlush_ok {s : State} (hc : s.bpBytes < s.params.counterMax) (h : s.host.answer = .ok) :
    bpFlush s = .ret () (flushed s) := by
  have : s.bpCounterFull = false := by simp [State.bpCounterFull]; omega
  simp [bpFlush, this, State.sinkWrite_ok h, flushed]

theorem bpFlush_ret {s t : State} (h : bpFlush s = .ret () t) : t = flushed s ∧ s.bpBytes < s.params.counterMax := by
  unfold bpFlush at h
  split at h
  · cases h
  · rename_i hc
    rcases s.sinkWrite_cases s.bpBuf with hw | ⟨left, hw⟩ <;> rw [hw] at h
    · simp only [Flow.ret.injEq, true_and] at h
      exact ⟨h.symm, by simpa [State.bpCounterFull] using hc⟩
    · cases h

theorem writeBit_idle {s : State} (b : Bool) (h : s.bpStatus = .idle) : writeBit b s = .refuse .writeChannelIdle s := by
  simp [writeBit, bpWritable, h]

theorem writeBit_failed {s : State} (b : Bool) (h : s.bpStatus = .failed) :
    writeBit b s = .raise .writeFailure s := by
  simp [writeBit, bpWritable, h]

theorem writeBit_room {s : State} (b : Bool) (ho : s.bpStatus = .opened) (hf : s.bpFree ≠ 0) :
    writeBit b s = .ret () (insertBit b s) := by
  simp [writeBit, bpWritable, ho, State.bufferFull, hf]

theorem writeBit_full {s : State} (b : Bool) (ho : s.bpStatus = .opened) (hf : s.bpFree = 0) :
    writeBit b s = (bpFlush s).bind fun _ t => .ret () (insertBit b t) := by
  simp [writeBit, bpWritable, ho, State.bufferFull, hf]

/-- BP_WRITE_BIT went on: the channel was OPEN, and the bit stands in the buffer, after a flush if that was full. -/
theorem writeBit_ret {s t : State} {b : Bool} (h : writeBit b s = .ret () t) :
    s.bpStatus = .opened ∧
    ((s.bpFree ≠ 0 ∧ t = insertBit b s) ∨
      (s.bpFree = 0 ∧ s.bpBytes < s.params.counterMax ∧ t = insertBit b (flushed s))) := by
  rcases hs : s.bpStatus with _ | _ | _
  · rw [writeBit_idle b hs] at h; cases h
  · by_cases hf : s.bpFree = 0
    · rw [writeBit_full b hs hf] at h
      cases hb : bpFlush s with
      | ret u v =>
        have := bpFlush_ret hb
        rw [hb] at h
        simp only [Flow.bind_ret, Flow.ret.injEq, true_and] at h
        exact ⟨rfl, .inr ⟨hf, this.2, by rw [← h, this.1]⟩⟩
      | raise e v => rw [hb] at h; cases h
      | refuse r z => rw [hb] at h; cases h
    · rw [writeBit_room b hs hf] at h
      simp only [Flow.ret.injEq, true_and] at h
      exact ⟨rfl, .inl ⟨hf, h.symm⟩⟩
  · rw [writeBit_failed b hs] at h; cases h

/-! ## What the channel holds (R108) -/

/-- How many bits of a run have left the buffer: whole bytes, the last of them deferred (R31, R108). -/
def sentBits (r : Bits) : Nat := 8 * ((r.length - 1) / 8)

/-- The channel is OPEN, SINK holds `base` and the sent bytes of the run `r`, the buffer the rest of `r` (R108). -/
structure Holds (base : List Byte) (r : Bits) (s : State) : Prop where
  status : s.bpStatus = .opened
  data : s.sink.data = base ++ pack (r.take (sentBits r))
  free : s.bpFree = 8 - (r.length - sentBits r)
  buf : s.bpBuf = packByte (r.drop (sentBits r)) 0
  bytes : s.bpBytes = s.sink.data.length

theorem sentBits_le (r : Bits) : sentBits r ≤ r.length := by unfold sentBits; omega

theorem Holds.nil_iff (base : List Byte) (s : State) :
    Holds base [] s ↔ s.bpStatus = .opened ∧ s.sink.data = base ∧ s.bpFree = 8 ∧ s.bpBuf = 0 ∧
      s.bpBytes = s.sink.data.length := by
  constructor
  · intro h; exact ⟨h.status, by simpa using h.data, by simpa using h.free, by simpa using h.buf, h.bytes⟩
  · rintro ⟨h1, h2, h3, h4, h5⟩; exact ⟨h1, by simpa using h2, by simpa using h3, by simpa using h4, h5⟩

/-- One bit goes on to the run. -/
theorem Holds.insert {base : List Byte} {r : Bits} {s : State} (h : Holds base r s) (b : Bool)
    (hf : s.bpFree ≠ 0) : Holds base (r ++ [b]) (insertBit b s) := by
  have hfree := h.free
  have hsent : sentBits (r ++ [b]) = sentBits r := by
    unfold sentBits at hfree ⊢
    simp only [List.length_append, List.length_cons, List.length_nil]
    omega
  have hle := sentBits_le r
  have htake : (r ++ [b]).take (sentBits r) = r.take (sentBits r) := by
    rw [List.take_append_of_le_length hle]
  have hdrop : (r ++ [b]).drop (sentBits r) = r.drop (sentBits r) ++ [b] := by
    rw [List.drop_append_of_le_length hle]
  refine ⟨h.status, ?_, ?_, ?_, h.bytes⟩
  · rw [hsent, htake]; exact h.data
  · rw [hsent]
    simp only [insertBit, State.setBpBuffer_bpFree, List.length_append, List.length_cons, List.length_nil]
    omega
  · rw [hsent, hdrop, packByte_snoc _ _ (by rw [List.length_drop]; omega), ← h.buf]
    simp only [insertBit, State.setBpBuffer_bpBuf, List.length_drop]
    congr 2; omega

/-- A full buffer has gone out: the run is all sent. -/
theorem Holds.flushed_full {base : List Byte} {r : Bits} {s : State} (h : Holds base r s) (hf : s.bpFree = 0) (b : Bool) :
    Holds base (r ++ [b]) (insertBit b (flushed s)) := by
  have hfree := h.free
  have hlen : r.length = sentBits r + 8 := by unfold sentBits at hfree ⊢; omega
  have hsent : sentBits (r ++ [b]) = r.length := by
    unfold sentBits at hlen ⊢
    simp only [List.length_append, List.length_cons, List.length_nil]
    omega
  have hpack : pack r = pack (r.take (sentBits r)) ++ [packByte (r.drop (sentBits r)) 0] := by
    have := pack_take_drop r ((r.length - 1) / 8) (by omega)
    rw [this, pack_short (r.drop _) (by rw [Ne, List.drop_eq_nil_iff]; unfold sentBits at hlen; omega)
      (by rw [List.length_drop]; unfold sentBits at hlen; omega)]
    rfl
  refine ⟨h.status, ?_, ?_, ?_, ?_⟩
  · rw [hsent, List.take_left', hpack]
    · simp [insertBit, flushed, h.data, h.buf]
    · rfl
  · rw [hsent]; simp [insertBit, flushed]
  · rw [hsent, List.drop_left' rfl]
    have := packByte_snoc [] b (by simp)
    simp only [List.nil_append, packByte_nil, List.length_nil] at this
    rw [this]; simp [insertBit, flushed]
  · simp [insertBit, flushed, h.bytes]

/-- A bit written to a channel that holds `r` makes it hold `r ++ [b]` (R102, R108). -/
theorem Holds.writeBit {base : List Byte} {r : Bits} {s t : State} {b : Bool} (h : Holds base r s)
    (hw : writeBit b s = .ret () t) : Holds base (r ++ [b]) t := by
  rcases (writeBit_ret hw).2 with ⟨hf, rfl⟩ | ⟨hf, _, rfl⟩
  · exact h.insert b hf
  · exact h.flushed_full hf b

theorem Holds.data_length {base : List Byte} {r : Bits} {s : State} (h : Holds base r s) :
    s.sink.data.length = base.length + (r.length - 1) / 8 := by
  have hle := sentBits_le r
  rw [h.data]
  simp only [List.length_append, pack_length, List.length_take]
  unfold sentBits at hle ⊢
  omega

/-- On a storage that never fails a bit is written, if the byte counter has room. -/
theorem Holds.writeBit_total {base : List Byte} {r : Bits} {s : State} (h : Holds base r s) (b : Bool)
    (hn : s.host.NeverFails) (hc : base.length + r.length / 8 ≤ s.params.counterMax) :
    ∃ t, Machine.writeBit b s = .ret () t ∧ Holds base (r ++ [b]) t ∧ t.host.NeverFails ∧
      t.sink.attached = s.sink.attached := by
  by_cases hf : s.bpFree = 0
  · have hfree := h.free
    have hb : s.bpBytes < s.params.counterMax := by
      rw [h.bytes, h.data_length]
      unfold sentBits at hfree; omega
    have : Machine.writeBit b s = .ret () (insertBit b (flushed s)) := by
      rw [writeBit_full b h.status hf, bpFlush_ok hb hn.answer]; rfl
    exact ⟨_, this, h.writeBit this, by simpa [insertBit, flushed] using hn.advance, by simp [insertBit, flushed]⟩
  · have := writeBit_room b h.status hf
    exact ⟨_, this, h.writeBit this, by simpa [insertBit] using hn, by simp [insertBit]⟩

/-! ## A run of bits -/

theorem writeBits_append (a b : Bits) (s : State) :
    writeBits (a ++ b) s = (writeBits a s).bind fun _ t => writeBits b t := by
  induction a generalizing s with
  | nil => rfl
  | cons x xs ih => simp only [List.cons_append, writeBits, Flow.bind_assoc]; congr; funext _ t; exact ih t

theorem Holds.writeBits {base : List Byte} {r bits : Bits} {s t : State} (h : Holds base r s)
    (hw : writeBits bits s = .ret () t) : Holds base (r ++ bits) t := by
  induction bits generalizing r s with
  | nil => simp only [Machine.writeBits, Flow.ret.injEq, true_and] at hw; simpa [hw] using h
  | cons b bs ih =>
    unfold Machine.writeBits at hw
    cases hb : Machine.writeBit b s with
    | ret a u =>
      rw [hb] at hw
      have := ih (h.writeBit hb) hw
      simpa using this
    | raise e u => rw [hb] at hw; cases hw
    | refuse r z => rw [hb] at hw; cases hw

theorem Holds.writeBits_total {base : List Byte} {r : Bits} {s : State} (h : Holds base r s) (bits : Bits)
    (hn : s.host.NeverFails) (hc : base.length + (r.length + bits.length + 7) / 8 ≤ s.params.counterMax + 1) :
    ∃ t, Machine.writeBits bits s = .ret () t ∧ Holds base (r ++ bits) t ∧ t.host.NeverFails ∧
      t.sink.attached = s.sink.attached ∧ OnlyPacker s t := by
  induction bits generalizing r s with
  | nil => exact ⟨s, rfl, by simpa using h, hn, rfl, OnlyPacker.refl s⟩
  | cons b bs ih =>
    simp only [List.length_cons] at hc
    obtain ⟨t, ht, h1, h2, h3⟩ := h.writeBit_total b hn (by omega)
    have ho := writeBit_only b s
    rw [ht] at ho
    obtain ⟨u, hu, k1, k2, k3, k4⟩ := ih h1 h2 (by
      rw [ho.params]; simp only [List.length_append, List.length_cons, List.length_nil]; omega)
    refine ⟨u, ?_, by simpa using k1, k2, k3.trans h3, ho.trans k4⟩
    simp [Machine.writeBits, ht, hu]

/-- On a storage that never fails an OPEN channel takes a run of bits, if the byte counter has room for one byte a
bit. -/
theorem writeBits_opened {s : State} (bits : Bits) (ho : s.bpStatus = .opened) (hn : s.host.NeverFails)
    (hc : s.bpBytes + bits.length ≤ s.params.counterMax) :
    ∃ t, writeBits bits s = .ret () t ∧ t.bpStatus = .opened ∧ t.host.NeverFails := by
  induction bits generalizing s with
  | nil => exact ⟨s, rfl, ho, hn⟩
  | cons b bs ih =>
    simp only [List.length_cons] at hc
    by_cases hf : s.bpFree = 0
    · obtain ⟨t, h1, h2⟩ := ih (s := insertBit b (flushed s)) (by simpa [insertBit, flushed] using ho)
        (by simpa [insertBit, flushed] using hn.advance) (by simp [insertBit, flushed]; omega)
      refine ⟨t, ?_, h2⟩
      rw [writeBits, writeBit_full b ho hf, bpFlush_ok (by omega) hn.answer]
      exact h1
    · obtain ⟨t, h1, h2⟩ := ih (s := insertBit b s) (by simpa [insertBit] using ho)
        (by simpa [insertBit] using hn) (by simp [insertBit]; omega)
      refine ⟨t, ?_, h2⟩
      rw [writeBits, writeBit_room b ho hf]
      exact h1

/-- The walk of TS_SERIALIZE writes exactly the bits `ser(t)` (R152). -/
theorem emit_eq_writeBits (t : Tree) (s : State) : emit t s = writeBits t.ser s := by
  induction t generalizing s with
  | leaf sym => rfl
  | internal l r ihl ihr =>
    simp only [emit, Tree.ser, emitInternal, writeBits]
    congr; funext _ u
    rw [writeBits_append, ihl]
    congr; funext _ v
    exact ihr v

/-! ## A length -/

theorem writeByte_ok {s : State} (b : Byte) (hc : s.bpBytes < s.params.counterMax) (h : s.host.answer = .ok) :
    writeByte b s =
      .ret () ((s.drawn.setSink ⟨s.sink.data ++ [b], s.sink.attached, false⟩).setBpBytes (s.bpBytes + 1)) := by
  have : s.bpCounterFull = false := by simp [State.bpCounterFull]; omega
  simp [writeByte, this, State.sinkWrite_ok h]

theorem writeByte_ret {s t : State} {b : Byte} (h : writeByte b s = .ret () t) :
    t = (s.drawn.setSink ⟨s.sink.data ++ [b], s.sink.attached, false⟩).setBpBytes (s.bpBytes + 1) := by
  unfold writeByte at h
  split at h
  · cases h
  · rcases s.sinkWrite_cases b with hw | ⟨left, hw⟩ <;> rw [hw] at h
    · simp only [Flow.ret.injEq, true_and] at h; exact h.symm
    · cases h

/-- Whole bytes go to an empty buffer's SINK in order (R103). -/
theorem Holds.writeBytes {base bytes : List Byte} {s t : State} (h : Holds base [] s)
    (hw : writeBytes bytes s = .ret () t) : Holds (base ++ bytes) [] t := by
  induction bytes generalizing base s with
  | nil => simp only [Machine.writeBytes, Flow.ret.injEq, true_and] at hw; simpa [hw] using h
  | cons b bs ih =>
    unfold Machine.writeBytes at hw
    cases hb : writeByte b s with
    | ret a u =>
      rw [hb] at hw
      have hu := writeByte_ret hb
      have h' := (Holds.nil_iff base s).mp h
      have : Holds (base ++ [b]) [] u := by
        rw [hu, Holds.nil_iff]; simp_all
      simpa using ih this hw
    | raise e u => rw [hb] at hw; cases hw
    | refuse r z => rw [hb] at hw; cases hw

theorem Holds.writeBytes_total {base : List Byte} {s : State} (h : Holds base [] s) (bytes : List Byte)
    (hn : s.host.NeverFails) (hc : base.length + bytes.length ≤ s.params.counterMax) :
    ∃ t, Machine.writeBytes bytes s = .ret () t ∧ Holds (base ++ bytes) [] t ∧ t.host.NeverFails ∧
      t.sink.attached = s.sink.attached ∧ OnlyPacker s t := by
  induction bytes generalizing base s with
  | nil => exact ⟨s, rfl, by simpa using h, hn, rfl, OnlyPacker.refl s⟩
  | cons b bs ih =>
    simp only [List.length_cons] at hc
    have hb : s.bpBytes < s.params.counterMax := by
      rw [h.bytes, h.data_length]; simp; omega
    obtain ⟨v, hw, hv, ha⟩ : ∃ v, writeByte b s = .ret () v ∧ v.host.NeverFails ∧
        v.sink.attached = s.sink.attached :=
      ⟨_, writeByte_ok b hb hn.answer, by simpa using hn.advance, rfl⟩
    have ho := writeByte_only b s
    rw [hw] at ho
    have h1 : Machine.writeBytes [b] s = .ret () v := by rw [Machine.writeBytes, hw]; rfl
    obtain ⟨u, hu, k1, k2, k3, k4⟩ := ih (h.writeBytes h1) hv (by
      rw [ho.params]; simp only [List.length_append, List.length_cons, List.length_nil]; omega)
    exact ⟨u, by simp [Machine.writeBytes, hw, hu], by simpa using k1, k2, k3.trans ha, ho.trans k4⟩

/-- The alignment flush of BP_WRITE_LENGTH and BP_CLOSE: the run is packed, its last byte padded (R103, R105). -/
theorem Holds.flushed_any {base : List Byte} {r : Bits} {s : State} (h : Holds base r s) (hr : r ≠ []) :
    Holds (base ++ pack r) [] (flushed s) := by
  have hpos := List.length_pos_iff.mpr hr
  have hpack : pack r = pack (r.take (sentBits r)) ++ [packByte (r.drop (sentBits r)) 0] := by
    have := pack_take_drop r ((r.length - 1) / 8) (by omega)
    rw [this, pack_short (r.drop _) (by rw [Ne, List.drop_eq_nil_iff]; omega)
      (by rw [List.length_drop]; omega)]
    rfl
  rw [Holds.nil_iff]
  refine ⟨h.status, ?_, rfl, rfl, ?_⟩
  · rw [hpack]; simp [flushed, h.data, h.buf]
  · simp [flushed, h.bytes]

/-- The buffer is empty exactly when the run is. -/
theorem Holds.accumulated_iff {base : List Byte} {r : Bits} {s : State} (h : Holds base r s) :
    s.bitsAccumulated = true ↔ r ≠ [] := by
  have := h.free
  simp only [State.bitsAccumulated, decide_eq_true_eq, this]
  rw [← List.length_pos_iff]
  unfold sentBits; omega

theorem Holds.writeLength {base : List Byte} {r : Bits} {n : Word32} {s t : State} (h : Holds base r s)
    (hw : writeLength n s = .ret () t) : Holds (base ++ pack r ++ be32 n) [] t := by
  have hwr : bpWritable s = .ret () s := by simp [bpWritable, h.status]
  unfold Machine.writeLength at hw
  rw [hwr] at hw
  simp only [Flow.bind_ret] at hw
  by_cases hr : r = []
  · have : s.bitsAccumulated = false := by
      rw [Bool.eq_false_iff, Ne, h.accumulated_iff]; simpa using hr
    simp only [this, Bool.false_eq_true, if_false, Flow.bind_ret] at hw
    subst hr
    simpa using h.writeBytes hw
  · have : s.bitsAccumulated = true := h.accumulated_iff.mpr hr
    simp only [this, if_true] at hw
    cases hb : bpFlush s with
    | ret a u =>
      rw [hb] at hw
      have hu := (bpFlush_ret hb).1
      subst hu
      exact (h.flushed_any hr).writeBytes hw
    | raise e u => rw [hb] at hw; cases hw
    | refuse r z => rw [hb] at hw; cases hw

theorem Holds.writeLength_total {base : List Byte} {r : Bits} {s : State} (h : Holds base r s) (n : Word32)
    (hn : s.host.NeverFails) (hc : base.length + (pack r).length + 4 ≤ s.params.counterMax) :
    ∃ t, Machine.writeLength n s = .ret () t ∧ Holds (base ++ pack r ++ be32 n) [] t ∧ t.host.NeverFails ∧
      t.sink.attached = s.sink.attached ∧ OnlyPacker s t := by
  have hwr : bpWritable s = .ret () s := by simp [bpWritable, h.status]
  by_cases hr : r = []
  · have : s.bitsAccumulated = false := by
      rw [Bool.eq_false_iff, Ne, h.accumulated_iff]; simpa using hr
    subst hr
    obtain ⟨t, ht, k1, k2, k3, k4⟩ := h.writeBytes_total (be32 n) hn (by simpa [be32] using hc)
    exact ⟨t, by simp [Machine.writeLength, hwr, this, ht], by simpa using k1, k2, k3, k4⟩
  · have hacc : s.bitsAccumulated = true := h.accumulated_iff.mpr hr
    have hpos := List.length_pos_iff.mpr hr
    have hb : s.bpBytes < s.params.counterMax := by
      rw [h.bytes, h.data_length]; rw [pack_length] at hc; omega
    have hfl := bpFlush_ok hb hn.answer
    have ho := bpFlush_only s
    rw [hfl] at ho
    obtain ⟨t, ht, k1, k2, k3, k4⟩ := (h.flushed_any hr).writeBytes_total (be32 n)
      (by simpa [flushed] using hn.advance) (by rw [ho.params]; simp [be32]; rw [pack_length] at hc; omega)
    exact ⟨t, by simp [Machine.writeLength, hwr, hacc, hfl, ht], k1, k2, by simpa [flushed] using k3, ho.trans k4⟩

/-! ## The close -/

/-- What a BP_CLOSE that returned OK leaves (R105, R108 (a)). -/
structure Closed (file : List Byte) (s : State) : Prop where
  status : s.bpStatus = .idle
  data : s.sink.data = file
  bytes : s.bpBytes = file.length
  durable : s.sink.durable = true
  attached : s.sink.attached = false

theorem closeStorage_ret {s t : State} (h : closeStorage s = .ret () t) :
    t = bpRelease (s.drawn.setSink ⟨s.sink.data, s.sink.attached, true⟩) := by
  unfold closeStorage at h
  rcases s.sinkFlush_cases with hw | ⟨d, hw⟩ <;> rw [hw] at h
  · simp only [Flow.ret.injEq, true_and] at h; exact h.symm
  · cases h

theorem closeLastByte_ret {s t : State} (h : closeLastByte s = .ret () t) :
    (s.bitsAccumulated = true ∧ t = flushed s) ∨ (s.bitsAccumulated = false ∧ t = s) := by
  unfold closeLastByte at h
  split at h
  · rename_i ha
    split at h
    · cases h
    · rcases s.sinkWrite_cases s.bpBuf with hw | ⟨left, hw⟩ <;> rw [hw] at h
      · simp only [Flow.ret.injEq, true_and] at h
        exact .inl ⟨ha, h.symm⟩
      · cases h
  · rename_i ha
    simp only [Flow.ret.injEq, true_and] at h
    exact .inr ⟨by simpa using ha, h.symm⟩

theorem Holds.close {base : List Byte} {r : Bits} {s t : State} (h : Holds base r s)
    (hw : bpClose s = .ret () t) : Closed (base ++ pack r) t ∧ t.bpFree = 8 ∧ t.bpBuf = 0 := by
  unfold bpClose at hw
  simp only [h.status] at hw
  cases hc : closeLastByte s with
  | ret a u =>
    rw [hc] at hw
    have ht := closeStorage_ret hw
    have hu : Holds (base ++ pack r) [] u := by
      rcases closeLastByte_ret hc with ⟨ha, rfl⟩ | ⟨ha, rfl⟩
      · exact h.flushed_any (h.accumulated_iff.mp ha)
      · have : r = [] := by
          by_contra hr
          rw [h.accumulated_iff.mpr hr] at ha; cases ha
        subst this; simpa using h
    have hu' := (Holds.nil_iff _ _).mp hu
    subst ht
    refine ⟨⟨rfl, hu'.2.1, ?_, rfl, rfl⟩, hu'.2.2.1, hu'.2.2.2.1⟩
    have := hu'.2.2.2.2
    rw [hu'.2.1] at this
    exact this
  | raise e u => rw [hc] at hw; cases hw
  | refuse r z => rw [hc] at hw; cases hw

theorem Holds.close_total {base : List Byte} {r : Bits} {s : State} (h : Holds base r s) (hn : s.host.NeverFails)
    (hc : base.length + (pack r).length ≤ s.params.counterMax) :
    ∃ t, bpClose s = .ret () t ∧ Closed (base ++ pack r) t ∧ t.bpFree = 8 ∧ t.bpBuf = 0 ∧ t.host.NeverFails ∧
      OnlyPacker s t := by
  have hlast : ∃ u, closeLastByte s = .ret () u ∧ u.host.NeverFails := by
    by_cases hr : r = []
    · have : s.bitsAccumulated = false := by
        rw [Bool.eq_false_iff, Ne, h.accumulated_iff]; simpa using hr
      exact ⟨s, by simp [closeLastByte, this], hn⟩
    · have hacc : s.bitsAccumulated = true := h.accumulated_iff.mpr hr
      have hpos := List.length_pos_iff.mpr hr
      have hb : s.bpCounterFull = false := by
        have := h.bytes; have := h.data_length; rw [pack_length] at hc
        simp [State.bpCounterFull]; omega
      refine ⟨flushed s, ?_, by simpa [flushed] using hn.advance⟩
      simp [closeLastByte, hacc, hb, State.sinkWrite_ok hn.answer, flushed]
  obtain ⟨u, hu, hun⟩ := hlast
  have hret : bpClose s = .ret () (bpRelease (u.drawn.setSink ⟨u.sink.data, u.sink.attached, true⟩)) := by
    simp [bpClose, h.status, hu, closeStorage, State.sinkFlush_ok hun.answer]
  have ho := bpClose_only s
  rw [hret] at ho
  obtain ⟨k1, k2, k3⟩ := h.close hret
  exact ⟨_, hret, k1, k2, k3, by simpa [bpRelease, State.sinkRelease] using hun.advance, ho⟩

end Sys2Proof.Machine
end

