-- ==== Sys2Proof/Laws/Answers.lean ====
section
/-! SUPPORT. The bytes of a length under each course of the host's answers (40_bit_packer.md R103, R107). -/

namespace Sys2Proof.Machine

/-- A buffer that holds no bit is zero (R12). -/
theorem State.BpBufferOk.empty {s : State} (h : s.BpBufferOk) (h8 : ¬ s.bpFree < 8) : s.bpBuf = 0 ∧ s.bpFree = 8 := by
  have hf : s.bpFree = 8 := by have := h.1; omega
  refine ⟨?_, hf⟩
  apply BitVec.eq_of_getLsbD_eq
  intro i hi
  simpa using h.2 i (by omega)

/-- Every answer is ok: all the bytes are appended and counted. -/
theorem writeBytes_ok (bytes : List Byte) {s : State} (h : s.host.OkFor bytes.length) (hne : bytes ≠ [])
    (hc : s.bpBytes + bytes.length ≤ s.params.counterMax) :
    writeBytes bytes s = .ret () { s with
      bpBytes := s.bpBytes + bytes.length, sink := ⟨s.sink.data ++ bytes, s.sink.attached, false⟩
      host := s.host.after bytes.length } := by
  induction bytes generalizing s with
  | nil => exact absurd rfl hne
  | cons b bs ih =>
    simp only [List.length_cons] at h hc ⊢
    rw [writeBytes, writeByte_ok b (by omega) h.1]
    by_cases hb : bs = []
    · subst hb; rfl
    · rw [Flow.bind_ret, ih (by exact h.2) hb (by simp; omega)]
      simp [State.setBpBytes, State.setSink, State.setHost, HostScript.after]
      omega

/-- The answer after `j` ok ones fails: `WriteFailure`, with `j` bytes counted. -/
theorem writeBytes_fail (bytes : List Byte) {s : State} (j : Nat) (l : List Byte) (d : Bool) (hj : j < bytes.length)
    (h : s.host.OkFor j) (ha : (s.host.after j).answer = .fail l d) (hc : s.bpBytes + j < s.params.counterMax) :
    writeBytes bytes s = .raise .writeFailure { s with
      bpStatus := .failed, bpBytes := s.bpBytes + j
      sink := ⟨l, s.sink.attached, if j = 0 then s.sink.durable else false⟩, host := s.host.after (j + 1) } := by
  induction bytes generalizing s j with
  | nil => cases hj
  | cons b bs ih =>
    have hf : s.bpCounterFull = false := by simp [State.bpCounterFull]; omega
    cases j with
    | zero =>
      simp only [HostScript.after] at ha
      simp [writeBytes, writeByte, hf, State.sinkWrite, State.answer, ha, State.setSink, State.setHost,
        State.setBpStatus, HostScript.after]
    | succ j =>
      rw [writeBytes, writeByte_ok b (by omega) h.1, Flow.bind_ret,
        ih j (by simpa using hj) (by exact h.2) (by exact ha) (by simp; omega)]
      simp [State.setBpBytes, State.setSink, State.setHost, HostScript.after]
      omega

/-- The counter fills up after `j` ok answers: refused (R107). -/
theorem writeBytes_full (bytes : List Byte) {s : State} (j : Nat) (hj : j < bytes.length) (h : s.host.OkFor j)
    (hc : s.bpBytes + j = s.params.counterMax) : ∃ t, writeBytes bytes s = .refuse .byteCounterFull t := by
  induction bytes generalizing s j with
  | nil => cases hj
  | cons b bs ih =>
    cases j with
    | zero =>
      have hf : s.bpCounterFull = true := by simp [State.bpCounterFull]; omega
      exact ⟨s, by simp [writeBytes, writeByte, hf]⟩
    | succ j =>
      rw [writeBytes, writeByte_ok b (by omega) h.1, Flow.bind_ret]
      exact ih j (by simpa using hj) (by exact h.2) (by simp; omega)

end Sys2Proof.Machine
end

