-- ==== Sys2Proof/Laws/Invariant.lean ====
section
/-! SUPPORT. The invariant of the machine: what it rests on, and that each sub-operation keeps it. -/

namespace Sys2Proof.Machine

/-- The invariant speaks of no result, no inbox and no host script. -/
theorem State.Inv.setResult {s : State} (h : s.Inv) (r : Option Result) : (s.setResult r).Inv :=
  ⟨h.bpBuffer, h.buBuffer, h.counters, h.treeFits, h.codeTree, h.attached, h.cursors, h.counts, h.params⟩

theorem State.Inv.setInbox {s : State} (h : s.Inv) (r : List HostMove) : (s.setInbox r).Inv :=
  ⟨h.bpBuffer, h.buBuffer, h.counters, h.treeFits, h.codeTree, h.attached, h.cursors, h.counts, h.params⟩

theorem State.Inv.setHost {s : State} (h : s.Inv) (r : HostScript) : (s.setHost r).Inv :=
  ⟨h.bpBuffer, h.buBuffer, h.counters, h.treeFits, h.codeTree, h.attached, h.cursors, h.counts, h.params⟩

@[simp] theorem State.codeAt_clearCode (s : State) (sym : Byte) : s.clearCode.codeAt sym = none := by
  simp [State.clearCode, State.codeAt]

@[simp] theorem State.codeAt_setCode (s : State) (v : Vector (Option Bits) 256) (sym : Byte) :
    (s.setCode v).codeAt sym = v[sym.toNat]'sym.isLt := rfl

@[simp] theorem Tree.codeTable_getElem (t : Tree) (sym : Byte) : t.codeTable[sym.toNat]'sym.isLt = t.table sym := by
  simp [Tree.codeTable]

theorem bitAt_getLsbD (b : Bool) (k i : Nat) : (bitAt b k).getLsbD i = (decide (i < 8) && decide (i = k) && b) := by
  unfold bitAt
  simp only [BitVec.getLsbD_shiftLeft, BitVec.getLsbD_setWidth, BitVec.getLsbD_ofBool]
  by_cases h : i < k
  · have : i ≠ k := by omega
    simp [h, this]
  · by_cases h2 : i = k
    · subst h2; simp
    · have : i - k ≠ 0 := by omega
      simp [h, h2, this]

/-! ## The bit_packer -/

theorem bpFlush_inv {s : State} (h : s.Inv) (ho : s.bpStatus = .opened) :
    (bpFlush s).Post (fun _ t => t.Inv ∧ t.bpStatus = .opened ∧ t.bpFree = 8) State.Inv := by
  unfold bpFlush
  split
  · trivial
  · rename_i hc
    have hc' : s.bpBytes < s.params.counterMax := by simpa [State.bpCounterFull] using hc
    rcases s.sinkWrite_cases s.bpBuf with hw | ⟨left, hw⟩ <;> rw [hw]
    · refine ⟨⟨⟨by simp, by simp⟩, h.buBuffer, ⟨by simp; omega, h.counters.2⟩, h.treeFits, h.codeTree,
        ⟨fun _ => ?_, h.attached.2⟩, h.cursors, ⟨fun _ => ?_, h.counts.2⟩, h.params⟩, by simpa using ho, by simp⟩
      · have := h.attached.1 (by simp [ho]); simp [this]
      · have := h.counts.1 ho; simp [this]
    · refine ⟨h.bpBuffer, h.buBuffer, h.counters, h.treeFits, h.codeTree,
        ⟨fun _ => ?_, h.attached.2⟩, h.cursors, ⟨fun hf => by simp at hf, h.counts.2⟩, h.params⟩
      have := h.attached.1 (by simp [ho]); simp [this]

theorem bpWritable_inv {s : State} (h : s.Inv) :
    (bpWritable s).Post (fun _ t => t.Inv ∧ t.bpStatus = .opened) State.Inv := by
  unfold bpWritable; split <;> simp_all

theorem insertBit_inv {s : State} (b : Bool) (h : s.Inv) (_hf : s.bpFree ≠ 0) : (insertBit b s).Inv := by
  refine ⟨⟨?_, ?_⟩, h.buBuffer, h.counters, h.treeFits, h.codeTree, h.attached, h.cursors, h.counts, h.params⟩
  · have := h.bpBuffer.1; simp [insertBit]; omega
  · intro i hi
    have hi' : i < s.bpFree - 1 := by simpa [insertBit] using hi
    have := h.bpBuffer.2 i (by omega)
    have hne : i ≠ s.bpFree - 1 := by omega
    simp [insertBit, bitAt_getLsbD, this, hne]

theorem writeBit_inv {s : State} (b : Bool) (h : s.Inv) :
    (writeBit b s).Post (fun _ t => t.Inv ∧ t.bpStatus = .opened) State.Inv := by
  unfold writeBit
  refine (bpWritable_inv h).bind fun _ t ht => ?_
  refine Flow.Post.bind (P := fun _ u => u.Inv ∧ u.bpStatus = .opened ∧ u.bpFree ≠ 0) ?_ fun _ u hu => ?_
  · split
    · exact (bpFlush_inv ht.1 ht.2).mono (fun _ u hu => ⟨hu.1, hu.2.1, by simp [hu.2.2]⟩) fun _ hu => hu
    · rename_i hf
      exact ⟨ht.1, ht.2, by simpa [State.bufferFull] using hf⟩
  · exact ⟨insertBit_inv b hu.1 hu.2.2, by simpa [insertBit] using hu.2.1⟩

theorem writeBits_inv {s : State} (bits : Bits) (h : s.Inv) :
    (writeBits bits s).Post (fun _ t => t.Inv) State.Inv := by
  induction bits generalizing s with
  | nil => exact h
  | cons b bs ih => exact (writeBit_inv b h).bind fun _ t ht => ih ht.1

theorem writeByte_inv {s : State} (b : Byte) (h : s.Inv) (ho : s.bpStatus = .opened) :
    (writeByte b s).Post (fun _ t => t.Inv ∧ t.bpStatus = .opened) State.Inv := by
  unfold writeByte
  split
  · trivial
  · rename_i hc
    have hc' : s.bpBytes < s.params.counterMax := by simpa [State.bpCounterFull] using hc
    rcases s.sinkWrite_cases b with hw | ⟨left, hw⟩ <;> rw [hw]
    · refine ⟨⟨h.bpBuffer, h.buBuffer, ⟨by simp; omega, h.counters.2⟩, h.treeFits, h.codeTree,
        ⟨fun _ => ?_, h.attached.2⟩, h.cursors, ⟨fun _ => ?_, h.counts.2⟩, h.params⟩, by simpa using ho⟩
      · have := h.attached.1 (by simp [ho]); simp [this]
      · have := h.counts.1 ho; simp [this]
    · refine ⟨h.bpBuffer, h.buBuffer, h.counters, h.treeFits, h.codeTree,
        ⟨fun _ => ?_, h.attached.2⟩, h.cursors, ⟨fun hf => by simp at hf, h.counts.2⟩, h.params⟩
      have := h.attached.1 (by simp [ho]); simp [this]

theorem writeBytes_inv {s : State} (bytes : List Byte) (h : s.Inv) (ho : s.bpStatus = .opened) :
    (writeBytes bytes s).Post (fun _ t => t.Inv) State.Inv := by
  induction bytes generalizing s with
  | nil => exact h
  | cons b bs ih => exact (writeByte_inv b h ho).bind fun _ t ht => ih ht.1 ht.2

theorem writeLength_inv {s : State} (n : Word32) (h : s.Inv) :
    (writeLength n s).Post (fun _ t => t.Inv) State.Inv := by
  unfold writeLength
  refine (bpWritable_inv h).bind fun _ t ht => ?_
  refine Flow.Post.bind (P := fun _ u => u.Inv ∧ u.bpStatus = .opened) ?_ fun _ u hu => writeBytes_inv _ hu.1 hu.2
  split
  · exact (bpFlush_inv ht.1 ht.2).mono (fun _ u hu => ⟨hu.1, hu.2.1⟩) fun _ hu => hu
  · exact ht

/-- An IDLE write channel asks nothing of SINK. -/
theorem bpRelease_inv {s : State} (h : s.Inv) : (bpRelease s).Inv :=
  ⟨h.bpBuffer, h.buBuffer, h.counters, h.treeFits, h.codeTree, ⟨fun hf => by simp [bpRelease] at hf, h.attached.2⟩,
    h.cursors, ⟨fun hf => by simp [bpRelease] at hf, h.counts.2⟩, h.params⟩

theorem bpClose_inv {s : State} (h : s.Inv) : (bpClose s).Post (fun _ t => t.Inv) State.Inv := by
  have idle : ∀ (t : State) (k : Sink) (g : HostScript), t.Inv → (bpRelease ((t.setHost g).setSink k)).Inv :=
    fun t k g ht => ⟨ht.bpBuffer, ht.buBuffer, ht.counters, ht.treeFits, ht.codeTree,
      ⟨fun hf => by simp [bpRelease] at hf, ht.attached.2⟩, ht.cursors,
      ⟨fun hf => by simp [bpRelease] at hf, ht.counts.2⟩, ht.params⟩
  unfold bpClose
  split
  · trivial
  · exact bpRelease_inv h
  · rename_i ho
    refine Flow.Post.bind (P := fun _ t => t.Inv) ?_ fun _ t ht => ?_
    · unfold closeLastByte
      split
      · split
        · trivial
        · rename_i hc
          have hc' : s.bpBytes < s.params.counterMax := by simpa [State.bpCounterFull] using hc
          rcases s.sinkWrite_cases s.bpBuf with hw | ⟨left, hw⟩ <;> rw [hw]
          · refine ⟨⟨by simp, by simp⟩, h.buBuffer, ⟨by simp; omega, h.counters.2⟩, h.treeFits, h.codeTree,
              ⟨fun _ => ?_, h.attached.2⟩, h.cursors, ⟨fun _ => ?_, h.counts.2⟩, h.params⟩
            · have := h.attached.1 (by simp [ho]); simp [this]
            · have := h.counts.1 ho; simp [this]
          · exact idle s _ _ h
      · exact h
    · unfold closeStorage
      rcases t.sinkFlush_cases with hw | ⟨d, hw⟩ <;> rw [hw] <;> exact idle t _ _ ht

theorem emitLeaf_inv {s : State} (sym : Byte) (h : s.Inv) : (emitLeaf sym s).Post (fun _ t => t.Inv) State.Inv :=
  (writeBit_inv true h).bind fun _ _ ht => writeBits_inv _ ht.1

theorem emit_inv (t : Tree) {s : State} (h : s.Inv) : (emit t s).Post (fun _ u => u.Inv) State.Inv := by
  induction t generalizing s with
  | leaf sym => exact emitLeaf_inv sym h
  | internal l r ihl ihr =>
    refine (writeBit_inv false h).bind fun _ t ht => ?_
    exact (ihl ht.1).bind fun _ u hu => ihr hu

/-! ## The bit_unpacker -/

theorem fetchByte_inv {s : State} (h : s.Inv) (ho : s.buStatus = .opened) :
    (fetchByte s).Post (fun more t => t.Inv ∧ t.buStatus = .opened ∧ (more = true → t.buAvail = 8)) State.Inv := by
  unfold fetchByte
  split
  · trivial
  · rename_i hc
    have hc' : s.buBytes < s.params.counterMax := by simpa [State.buCounterFull] using hc
    rcases s.srcRead_cases with ⟨b, hb, hw⟩ | ⟨_, hw⟩ <;> rw [hw]
    · have hlt := (List.getElem?_eq_some_iff.mp hb).1
      refine ⟨⟨h.bpBuffer, ⟨by simp, by simp⟩, ⟨h.counters.1, by simp; omega⟩, h.treeFits, h.codeTree,
        ⟨h.attached.1, fun hf => h.attached.2 (by simpa using hf)⟩, ⟨by simp; omega, h.cursors.2⟩,
        ⟨h.counts.1, fun _ => by simp [h.counts.2 ho]⟩, h.params⟩, by simpa using ho, by simp⟩
    · exact ⟨h, ho, by simp⟩

theorem readBit_inv {s : State} (h : s.Inv) :
    (readBit s).Post (fun _ t => t.Inv ∧ t.buStatus = .opened) State.Inv := by
  unfold readBit
  refine Flow.Post.bind (P := fun _ t => t.Inv ∧ t.buStatus = .opened) ?_ fun _ t ht => ?_
  · unfold buReadable; split <;> simp_all
  refine Flow.Post.bind (P := fun more u => u.Inv ∧ u.buStatus = .opened ∧ (more = true → u.buAvail ≠ 0))
    ?_ fun more u hu => ?_
  · split
    · exact (fetchByte_inv ht.1 ht.2).mono (fun _ u hu => ⟨hu.1, hu.2.1, fun hm => by simp [hu.2.2 hm]⟩) fun _ hu => hu
    · rename_i hf
      exact ⟨ht.1, ht.2, fun _ => by simpa [State.noBitsBuffered] using hf⟩
  · split
    · rename_i hm
      have ha := hu.2.2 hm
      have hi := hu.1
      refine ⟨⟨hi.bpBuffer, ⟨by have := hi.buBuffer.1; simp; omega, fun i hlt => ?_⟩, hi.counters, hi.treeFits,
        hi.codeTree, hi.attached, hi.cursors, hi.counts, hi.params⟩, by simpa using hu.2.1⟩
      have hlt' : i < 8 - (u.buAvail - 1) := by simpa using hlt
      have := hi.buBuffer.1
      rcases Nat.eq_zero_or_pos i with h0 | h0
      · simp [h0]
      · have := hi.buBuffer.2 (i - 1) (by omega)
        have h1 : ¬ i < 1 := by omega
        simp [BitVec.getLsbD_shiftLeft, h1, this]
    · exact ⟨hu.1, hu.2.1⟩

theorem takeLengthBytes_inv (k : Nat) (n : Word32) {s : State} (h : s.Inv) (ho : s.buStatus = .opened) :
    (takeLengthBytes k n s).Post (fun _ t => t.Inv) State.Inv := by
  induction k generalizing n s with
  | zero => exact h
  | succ k ih =>
    unfold takeLengthBytes
    split
    · trivial
    · rename_i hc
      have hc' : s.buBytes < s.params.counterMax := by simpa [State.buCounterFull] using hc
      rcases s.srcRead_cases with ⟨b, hb, hw⟩ | ⟨_, hw⟩ <;> rw [hw]
      · have hlt := (List.getElem?_eq_some_iff.mp hb).1
        exact ih _ ⟨h.bpBuffer, h.buBuffer, ⟨h.counters.1, by simp; omega⟩, h.treeFits, h.codeTree,
          ⟨h.attached.1, fun hf => h.attached.2 (by simpa using hf)⟩, ⟨by simp; omega, h.cursors.2⟩,
          ⟨h.counts.1, fun _ => by simp [h.counts.2 ho]⟩, h.params⟩ (by simpa using ho)
      · exact h

theorem readLength_inv {s : State} (h : s.Inv) : (readLength s).Post (fun _ t => t.Inv) State.Inv := by
  unfold readLength
  refine Flow.Post.bind (P := fun _ t => t.Inv ∧ t.buStatus = .opened) ?_ fun _ t ht => ?_
  · unfold buReadable; split <;> simp_all
  have hi := ht.1
  exact takeLengthBytes_inv 4 0 ⟨hi.bpBuffer, ⟨by simp, by simp⟩, hi.counters, hi.treeFits, hi.codeTree,
    hi.attached, hi.cursors, hi.counts, hi.params⟩ (by simpa using ht.2)

theorem readSymbol_inv (k : Nat) (acc : Byte) {s : State} (h : s.Inv) :
    (readSymbol k acc s).Post (fun _ t => t.Inv) State.Inv := by
  induction k generalizing acc s with
  | zero => exact h
  | succ k ih =>
    unfold readSymbol
    refine (readBit_inv h).bind fun r t ht => ?_
    cases r with
    | none => exact ht.1
    | some b => exact ih _ ht.1

theorem decodeOne_inv (t : Tree) {s : State} (h : s.Inv) : (decodeOne t s).Post (fun _ u => u.Inv) State.Inv := by
  induction t generalizing s with
  | leaf sym => exact h
  | internal l r ihl ihr =>
    unfold decodeOne
    refine (readBit_inv h).bind fun b t ht => ?_
    match b with
    | none => exact ht.1
    | some false => exact ihl ht.1
    | some true => exact ihr ht.1

/-! ## The canonical_tree_serializer -/

/-- `parse` answers a tree whose nodes it has counted, and never counts past `MAX_NODES` (R153, R154). -/
theorem parse_counts (fuel count : Nat) (s : State) :
    (parse fuel count s).Post (fun t _ => t.2 = count + t.1.nodes ∧ t.2 ≤ s.params.maxNodes) (fun _ => True) := by
  induction fuel generalizing count s with
  | zero => exact trivial
  | succ fuel ih =>
    unfold parse
    refine ((readBit_only s).mono (Q' := fun _ => True) (fun _ _ h => h) fun _ h => h.elim).bind fun r t ht => ?_
    cases r with
    | none => exact trivial
    | some tag =>
      dsimp only
      split
      · exact trivial
      · rename_i hc
        rw [ht.params] at hc
        split
        · refine ((readSymbol_only 8 0 t).mono (Q' := fun _ => True) (fun _ _ h => h) fun _ _ => trivial).bind
            fun sym u _ => ?_
          simp [Tree.nodes]; omega
        · refine Flow.Post.bind (P := fun l u => (l.2 = count + 1 + l.1.nodes ∧ l.2 ≤ s.params.maxNodes) ∧
            u.params = s.params) ?_ fun l u hl => ?_
          · have h1 := ih (count + 1) t
            have h2 := parse_only fuel (count + 1) t
            revert h1 h2
            cases parse fuel (count + 1) t with
            | ret a v => exact fun h1 h2 => ⟨⟨h1.1, by rw [← ht.params]; exact h1.2⟩, by rw [h2.params, ht.params]⟩
            | raise e v => exact fun _ _ => trivial
            | refuse r z => exact fun _ _ => trivial
          · refine (ih l.2 u).bind fun r v hr => ?_
            rw [hl.2] at hr
            refine ⟨?_, hr.2⟩
            have := hr.1; have := hl.1.1
            simp [Tree.nodes]; omega

theorem parse_inv (fuel count : Nat) {s : State} (h : s.Inv) :
    (parse fuel count s).Post (fun _ t => t.Inv) State.Inv := by
  induction fuel generalizing count s with
  | zero => exact h
  | succ fuel ih =>
    unfold parse
    refine (readBit_inv h).bind fun r t ht => ?_
    cases r with
    | none => exact ht.1
    | some tag =>
      dsimp only
      split
      · exact ht.1
      · split
        · exact (readSymbol_inv 8 0 ht.1).bind fun _ u hu => hu
        · exact (ih _ ht.1).bind fun l u hu => (ih _ hu).bind fun _ v hv => hv

end Sys2Proof.Machine
end

