-- ==== Sys2Proof/Laws/Tree.lean ====
section
/-! SUPPORT. Facts about trees, their serialized form, their code tables and the build (00_scope.md R8, 10_state.md
R22, 42_canonical_tree_serializer.md R144). -/

namespace Sys2Proof.Machine

theorem Tree.leaves_pos (t : Tree) : 0 < t.leaves := by
  induction t with
  | leaf s => simp [Tree.leaves]
  | internal l r ihl ihr => simp [Tree.leaves]; omega

/-- A full binary tree: `nodes(t) = 2 * leaves(t) - 1` (R8). -/
theorem Tree.nodes_eq (t : Tree) : t.nodes + 1 = 2 * t.leaves := by
  induction t with
  | leaf s => simp [Tree.nodes, Tree.leaves]
  | internal l r ihl ihr => simp [Tree.nodes, Tree.leaves]; omega

/-- `|ser(t)| = size(t)` (R8). -/
theorem Tree.ser_length (t : Tree) : t.ser.length = t.size := by
  induction t with
  | leaf s => simp [Tree.ser, Tree.size, Tree.nodes, Tree.leaves]
  | internal l r ihl ihr => simp [Tree.ser, Tree.size, Tree.nodes, Tree.leaves] at *; omega

/-- `size(t) = 10 * leaves(t) - 1` (R8). -/
theorem Tree.size_eq (t : Tree) : t.size + 1 = 10 * t.leaves := by
  have := t.nodes_eq; unfold Tree.size; omega

theorem Tree.symbols_length (t : Tree) : t.symbols.length = t.leaves := by
  induction t with
  | leaf s => simp [Tree.symbols, Tree.leaves]
  | internal l r ihl ihr => simp [Tree.symbols, Tree.leaves, ihl, ihr]

theorem Tree.paths_symbols (t : Tree) : t.paths.map (·.1) = t.symbols := by
  induction t with
  | leaf s => simp [Tree.paths, Tree.symbols]
  | internal l r ihl ihr => simp [Tree.paths, Tree.symbols, ← ihl, ← ihr, Function.comp_def]

/-- The path the table gives a symbol is the path of a leaf that holds it (R148). -/
theorem Tree.table_mem {t : Tree} {s : Byte} {p : Bits} (h : t.table s = some p) : (s, p) ∈ t.paths := by
  unfold Tree.table at h
  split at h
  · rename_i e he
    have h1 := List.mem_of_find?_eq_some he
    have h2 := List.find?_some he
    have : e = (s, p) := by
      ext1
      · simpa using h2
      · simpa using h
    exact this ▸ h1
  · cases h

/-- A symbol has no code exactly when no leaf holds it (R148). -/
theorem Tree.table_none_iff (t : Tree) (s : Byte) : t.table s = none ↔ s ∉ t.symbols := by
  rw [← t.paths_symbols]
  unfold Tree.table
  split
  · rename_i e he
    have h1 := List.mem_of_find?_eq_some he
    have h2 := List.find?_some he
    simp only [reduceCtorEq, false_iff, not_not, List.mem_map]
    exact ⟨e, h1, by simpa using h2⟩
  · rename_i he
    simp only [true_iff, List.mem_map, not_exists, not_and]
    intro e hm hs
    have := List.find?_eq_none.mp he e hm
    simp [hs] at this

/-- No path of a leaf is a prefix of another leaf's path (R84, glossary: prefix-free). -/
theorem Tree.paths_prefixFree (t : Tree) :
    t.paths.Pairwise (fun a b => ¬ a.2 <+: b.2 ∧ ¬ b.2 <+: a.2) := by
  induction t with
  | leaf s => simp [Tree.paths]
  | internal l r ihl ihr =>
    simp only [Tree.paths, List.pairwise_append, List.pairwise_map, List.cons_prefix_cons, List.mem_map]
    refine ⟨by simpa using ihl, by simpa using ihr, ?_⟩
    rintro _ ⟨a, _, rfl⟩ _ ⟨b, _, rfl⟩
    simp

/-- A path is no longer than the tree is deep (R5, R8). -/
theorem Tree.path_length_le_depth (t : Tree) {e : Byte × Bits} (h : e ∈ t.paths) : e.2.length ≤ t.depth := by
  induction t generalizing e with
  | leaf s => simp [Tree.paths] at h; simp [h]
  | internal l r ihl ihr =>
    simp only [Tree.paths, List.mem_append, List.mem_map] at h
    rcases h with ⟨a, ha, rfl⟩ | ⟨a, ha, rfl⟩
    · have := ihl ha; simp [Tree.depth]; omega
    · have := ihr ha; simp [Tree.depth]; omega

/-- `depth(t) <= (nodes(t) - 1) / 2` (R5: `MAX_DEPTH`). -/
theorem Tree.depth_bound (t : Tree) : 2 * t.depth + 1 ≤ t.nodes := by
  induction t with
  | leaf s => simp [Tree.depth, Tree.nodes]
  | internal l r ihl ihr =>
    have : 1 ≤ l.nodes := by omega
    have : 1 ≤ r.nodes := by omega
    simp only [Tree.depth, Tree.nodes]; omega

/-! ## The build -/

/-- Removing the least entry leaves the others (R144: "remove a from L"). -/
theorem extractLeast_perm (e : Entry) (rest : List Entry) :
    ((extractLeast e rest).1 :: (extractLeast e rest).2).Perm (e :: rest) := by
  induction rest generalizing e with
  | nil => exact List.Perm.refl _
  | cons x rest ih =>
    unfold extractLeast
    split
    · exact (List.Perm.swap _ _ _).trans ((ih x).cons e)
    · exact ((List.Perm.swap _ _ _).trans ((ih e).cons x)).trans (List.Perm.swap _ _ _)

theorem extractLeast_length (e : Entry) (rest : List Entry) : (extractLeast e rest).2.length = rest.length := by
  have := (extractLeast_perm e rest).length_eq; simpa using this

/-- The symbols at the leaves of the trees of a list of entries. -/
def entrySymbols (entries : List Entry) : List Byte := entries.flatMap (·.tree.symbols)

theorem combine_zero (next : Nat) (e : Entry) (rest : List Entry) : combine 0 next e rest = e.tree := rfl

/-- One round of the loop of R144. -/
theorem combine_succ (k next : Nat) (e : Entry) (rest : List Entry) (a x : Entry) (more : List Entry)
    (h : extractLeast e rest = (a, x :: more)) :
    combine (k + 1) next e rest =
      combine k (next + 1)
        ⟨a.f + (extractLeast x more).1.f, next, .internal a.tree (extractLeast x more).1.tree⟩
        (extractLeast x more).2 := by
  rw [combine, h]

/-- The tree built from a list of entries holds exactly the symbols its entries' trees hold (R22, R144). -/
theorem combine_symbols (k next : Nat) (e : Entry) (rest : List Entry) (h : rest.length = k) :
    (combine k next e rest).symbols.Perm (entrySymbols (e :: rest)) := by
  induction k generalizing next e rest with
  | zero => simp [List.length_eq_zero_iff.mp h, combine_zero, entrySymbols]
  | succ k ih =>
    have hp := extractLeast_perm e rest
    have hl := extractLeast_length e rest
    obtain ⟨a, more, hx⟩ : ∃ a more, extractLeast e rest = (a, more) := ⟨_, _, rfl⟩
    rw [hx] at hp hl
    match more, hl with
    | [], hl => simp [h] at hl
    | x :: more, hl =>
      have hm : more.length = k := by simp [h] at hl; exact hl
      rw [combine_succ k next e rest a x more hx]
      have hp2 := extractLeast_perm x more
      refine (ih _ _ _ (by rw [extractLeast_length, hm])).trans ?_
      refine List.Perm.trans ?_ (hp.flatMap_right (·.tree.symbols))
      simp only [entrySymbols, List.flatMap_cons, Tree.symbols, List.append_assoc]
      exact ((hp2.flatMap_right (·.tree.symbols)).append_left a.tree.symbols)

theorem entrySymbols_leafEntries (freq : Vector Word32 256) (k : Nat) (syms : List Byte) :
    entrySymbols (leafEntries freq k syms) = syms := by
  induction syms generalizing k with
  | nil => rfl
  | cons s rest ih => simp [leafEntries, entrySymbols, Tree.symbols] at ih ⊢; exact ih (k + 1)

theorem leafEntries_length (freq : Vector Word32 256) (k : Nat) (syms : List Byte) :
    (leafEntries freq k syms).length = syms.length := by
  induction syms generalizing k with
  | nil => rfl
  | cons s rest ih => simp [leafEntries, ih]

/-- The leaves of the tree of two or more symbols are those symbols, each once (R22). -/
theorem treeOfSymbols_symbols (freq : Vector Word32 256) (s s' : Byte) (rest : List Byte) :
    (treeOfSymbols freq (s :: s' :: rest)).symbols.Perm (s :: s' :: rest) := by
  refine (combine_symbols _ _ _ _ (by simp [leafEntries_length])).trans ?_
  have := entrySymbols_leafEntries freq 0 (s :: s' :: rest)
  simp only [leafEntries] at this
  exact List.Perm.of_eq this

/-- Every symbol of the list is at a leaf of its tree (R22, R145). -/
theorem mem_treeOfSymbols (freq : Vector Word32 256) (syms : List Byte) {s : Byte} (h : s ∈ syms) :
    s ∈ (treeOfSymbols freq syms).symbols := by
  match syms with
  | [] => cases h
  | [a] => simp at h; simp [treeOfSymbols, placeholder, Tree.symbols, h]
  | a :: b :: rest => exact (treeOfSymbols_symbols freq a b rest).mem_iff.mpr h

/-- The symbols with a non-zero count, and no other (R143). -/
theorem mem_symbolsOf (freq : Vector Word32 256) (s : Byte) :
    s ∈ symbolsOf freq ↔ (freq[s.toNat]'s.isLt) ≠ 0 := by
  simp only [symbolsOf, List.mem_map, List.mem_filter, bne_iff_ne, Prod.exists, List.mem_zipIdx_iff_getElem?]
  constructor
  · rintro ⟨v, i, ⟨hi, hv⟩, rfl⟩
    have hlt : i < 256 := by
      have := (List.getElem?_eq_some_iff.mp hi).1
      simpa using this
    have hget : freq[i] = v := by
      have := (List.getElem?_eq_some_iff.mp hi).2
      simpa using this
    have hmod : i % 2 ^ 8 = i := Nat.mod_eq_of_lt (by omega)
    simp only [BitVec.toNat_ofNat, hmod, hget]
    exact hv
  · intro h
    exact ⟨freq[s.toNat]'s.isLt, s.toNat, ⟨by simp [s.isLt], h⟩, by simp⟩

theorem symbolsOf_nodup (freq : Vector Word32 256) : (symbolsOf freq).Nodup := by
  have hsub : ((freq.toList.zipIdx.filter fun e => e.1 != 0).map (·.2)).Sublist (List.range' 0 256) := by
    have h : (freq.toList.zipIdx.map (·.2)) = List.range' 0 256 := by simp
    rw [← h]
    exact List.Sublist.map _ List.filter_sublist
  have hmap : symbolsOf freq = ((freq.toList.zipIdx.filter fun e => e.1 != 0).map (·.2)).map (BitVec.ofNat 8) := by
    simp [symbolsOf]
  rw [hmap]
  refine List.Nodup.map_on ?_ (hsub.nodup List.nodup_range')
  intro x hx y hy hxy
  have h1 := List.mem_range'_1.mp (hsub.subset hx)
  have h2 := List.mem_range'_1.mp (hsub.subset hy)
  have h3 := congrArg BitVec.toNat hxy
  simp only [BitVec.toNat_ofNat] at h3
  omega

/-- A built tree has one leaf a symbol, but for the placeholder's two (R22, R145, R146). -/
theorem buildTree_leaves (freq : Vector Word32 256) : (buildTree freq).leaves = max 2 (symbolsOf freq).length := by
  unfold buildTree
  match symbolsOf freq with
  | [] => rfl
  | [a] => rfl
  | a :: b :: rest =>
    have := (treeOfSymbols_symbols freq a b rest).length_eq
    rw [← Tree.symbols_length, this]
    simp

end Sys2Proof.Machine
end

