-- ==== Sys2Proof/Laws/Codec.lean ====
section
/-! SUPPORT. The composite commands: what their pieces keep, the command keeps (R143, R153, R171, R186); and that
all of them keep the invariant. -/

namespace Sys2Proof.Machine

/-! ## From pieces to commands -/

theorem scan_post {R : State → Prop} (l : List Byte) {s : State} (hs : R s) (hread : ∀ u, R u → R u.rawInRead.2)
    (hcount : ∀ u n f, R u → R ((u.setHeLen n).setFreq f)) : (scan l s).Post (fun _ t => R t) R := by
  induction l generalizing s with
  | nil => exact hs
  | cons r rest ih =>
    unfold scan
    split
    · exact hread _ hs
    · exact ih (hcount _ _ _ (hread _ hs))

theorem encodeSymbols_post {R : State → Prop} (l : List Byte) {s : State} (hs : R s)
    (hread : ∀ u, R u → R u.rawInRead.2) (hbits : ∀ u bits, R u → (writeBits bits u).Post (fun _ v => R v) R) :
    (encodeSymbols l s).Post (fun _ t => R t) R := by
  induction l generalizing s with
  | nil => exact hs
  | cons r rest ih =>
    unfold encodeSymbols
    split
    · trivial
    · exact (hbits _ _ (hread _ hs)).bind fun _ u hu => ih hu

/-- Whatever each piece of HE_COMPRESS keeps, HE_COMPRESS keeps (R171). -/
theorem compress_post {R : State → Prop} {s : State} (hs : R s) (hread : ∀ u, R u → R u.rawInRead.2)
    (hrewind : ∀ u, R u → R u.rawInRewind) (hclear : ∀ u f n, R u → R ((u.setFreq f).setHeLen n))
    (hcount : ∀ u n f, R u → R ((u.setHeLen n).setFreq f))
    (hbuild : ∀ u, R u → 2 * (symbolsOf u.freq).length ≤ u.params.maxNodes + 1 →
      R (u.clearCode.setTree (some (buildTree u.freq))))
    (htable : ∀ u t, R u → u.tree = some t → R (u.setCode t.codeTable))
    (hbits : ∀ u bits, R u → (writeBits bits u).Post (fun _ v => R v) R)
    (hlength : ∀ u n, R u → (writeLength n u).Post (fun _ v => R v) R)
    (hclose : ∀ u, R u → (bpClose u).Post (fun _ v => R v) R) :
    (compress s).Post (fun _ t => R t) R := by
  unfold compress
  refine Flow.Post.bind (P := fun _ u => R u) ?_ fun _ u hu => ?_
  · unfold notIdle
    split
    · trivial
    · exact hs
    · exact hs
  refine Flow.Post.bind (P := fun _ u => R u) (scan_post _ (hrewind _ (hclear _ _ _ hu)) hread hcount) fun _ u hu => ?_
  refine Flow.Post.bind (P := fun _ u => R u) ?_ fun _ u hu => ?_
  · unfold build
    split
    · trivial
    · exact hbuild _ hu (by omega)
  refine Flow.Post.bind (P := fun _ u => R u) ?_ fun _ u hu => ?_
  · unfold serialize theTree
    split
    · trivial
    · simp only [Flow.bind_ret, emit_eq_writeBits]; exact hbits _ _ hu
  refine Flow.Post.bind (P := fun _ u => R u) (hlength _ _ hu) fun _ u hu => ?_
  refine Flow.Post.bind (P := fun _ u => R u) ?_ fun _ u hu => ?_
  · unfold makeCodeTable theTree
    split
    · trivial
    · rename_i t ht; exact htable _ _ hu ht
  exact Flow.Post.bind (P := fun _ u => R u) (encodeSymbols_post _ (hrewind _ hu) hread hbits) fun _ u hu => hclose _ hu

/-- Whatever each piece of TS_DESERIALIZE keeps, TS_DESERIALIZE keeps; it answers the tree it has stored, and has
left the code table empty on every path (R153). -/
theorem deserialize_post {R : State → Prop} {s : State} (hs : R s) (hclear : ∀ u, R u → R (u.setTree none).clearCode)
    (hparse : ∀ u fuel count, R u → (parse fuel count u).Post (fun _ v => R v) R)
    (hstore : ∀ u t, R u → u.code = Vector.replicate 256 none → t.nodes ≤ u.params.maxNodes → R (u.setTree (some t))) :
    (deserialize s).Post (fun t u => R u ∧ u.tree = some t ∧ u.code = Vector.replicate 256 none ∧
      t.nodes ≤ u.params.maxNodes ∧ u.buStatus = .opened)
      (fun u => R u ∧ u.tree = none ∧ u.code = Vector.replicate 256 none ∧ u.buStatus = .opened) := by
  unfold deserialize
  refine Flow.Post.bind (P := fun _ u => R u ∧ u.buStatus = .opened) ?_ fun _ u hu => ?_
  · unfold buReadable
    split
    · trivial
    · rename_i ho; exact ⟨hs, ho⟩
  have h1 := hparse _ (u.params.maxNodes + 1) 0 (hclear u hu.1)
  have h2 := parse_only (u.params.maxNodes + 1) 0 (u.setTree none).clearCode
  have h3 := parse_counts (u.params.maxNodes + 1) 0 (u.setTree none).clearCode
  revert h1 h2 h3
  cases parse (u.params.maxNodes + 1) 0 (u.setTree none).clearCode with
  | ret t v =>
    intro h1 h2 h3
    have hp : v.params = u.params := h2.params
    have hc : v.code = Vector.replicate 256 none := h2.code
    have hn : t.1.nodes ≤ v.params.maxNodes := by
      rw [hp]; have := h3.1; have : t.2 ≤ u.params.maxNodes := h3.2; omega
    exact ⟨hstore v t.1 h1 hc hn, rfl, hc, hn, h2.buStatus.trans hu.2⟩
  | raise e v => exact fun h1 h2 _ => ⟨h1, h2.tree, h2.code, h2.buStatus.trans hu.2⟩
  | refuse r z => exact fun _ _ _ => trivial

theorem decodeSymbols_post {R : State → Prop} (t : Tree) (k : Nat) {s : State} (hs : R s)
    (hone : ∀ u, R u → (decodeOne t u).Post (fun _ v => R v) R) (hwrite : ∀ u b, R u → R (u.rawOutWrite b).2)
    (hcount : ∀ u n, R u → R (u.setHdRemaining n)) : (decodeSymbols t k s).Post (fun _ u => R u) R := by
  induction k generalizing s with
  | zero => exact hs
  | succ k ih =>
    unfold decodeSymbols
    refine (hone _ hs).bind fun b u hu => ?_
    have hw := hwrite u b hu
    rcases u.rawOutWrite_cases b with h | ⟨left, h⟩ <;> rw [h] at hw ⊢
    · exact ih (hcount _ _ hw)
    · exact hw

/-- Whatever each piece of HD_DECOMPRESS keeps, HD_DECOMPRESS keeps (R186). -/
theorem decompress_post {R : State → Prop} {s : State} (hs : R s) (hclear : ∀ u, R u → R (u.setTree none).clearCode)
    (hparse : ∀ u fuel count, R u → (parse fuel count u).Post (fun _ v => R v) R)
    (hstore : ∀ u t, R u → u.code = Vector.replicate 256 none → t.nodes ≤ u.params.maxNodes → R (u.setTree (some t)))
    (hlength : ∀ u, R u → (readLength u).Post (fun _ v => R v) R)
    (hone : ∀ u t, R u → (decodeOne t u).Post (fun _ v => R v) R) (hwrite : ∀ u b, R u → R (u.rawOutWrite b).2)
    (hcount : ∀ u n, R u → R (u.setHdRemaining n)) : (decompress s).Post (fun _ u => R u) R := by
  unfold decompress
  refine ((deserialize_post hs hclear hparse hstore).mono (fun _ _ h => h.1) fun _ h => h.1).bind fun t u hu => ?_
  refine (hlength _ hu).bind fun n v hv => ?_
  exact decodeSymbols_post t _ (hcount _ _ hv) (fun w hw => hone w t hw) hwrite hcount

/-! ## The invariant -/

theorem clearCode_all (s : State) (h : s.code = Vector.replicate 256 none) (sym : Byte) : s.codeAt sym = none := by
  simp [State.codeAt, h]

theorem codeTable_all (s : State) (t : Tree) (sym : Byte) : (s.setCode t.codeTable).codeAt sym = t.table sym := by
  rw [State.codeAt_setCode, Tree.codeTable_getElem]

/-- A new tree in the store, the code table empty. -/
theorem State.Inv.storeTree {s : State} (h : s.Inv) (hc : s.code = Vector.replicate 256 none) (t : Option Tree)
    (ht : ∀ t', t = some t' → t'.nodes ≤ s.params.maxNodes) : (s.setTree t).Inv :=
  ⟨h.bpBuffer, h.buBuffer, h.counters, ht, .inl (clearCode_all (s.setTree t) hc), h.attached, h.cursors, h.counts,
    h.params⟩

theorem State.Inv.clearCode {s : State} (h : s.Inv) : s.clearCode.Inv :=
  ⟨h.bpBuffer, h.buBuffer, h.counters, h.treeFits, .inl (clearCode_all _ rfl), h.attached, h.cursors, h.counts,
    h.params⟩

theorem State.Inv.clearTree {s : State} (h : s.Inv) : (s.setTree none).clearCode.Inv :=
  ⟨h.bpBuffer, h.buBuffer, h.counters, (fun _ ht => by cases ht), .inl (clearCode_all _ rfl), h.attached, h.cursors,
    h.counts, h.params⟩

theorem State.Inv.buildTree {s : State} (h : s.Inv) (hc : 2 * (symbolsOf s.freq).length ≤ s.params.maxNodes + 1) :
    (s.clearCode.setTree (some (buildTree s.freq))).Inv := by
  refine State.Inv.storeTree h.clearCode rfl _ fun t ht => ?_
  cases ht
  have h1 := buildTree_leaves s.freq
  have h2 := (Machine.buildTree s.freq).nodes_eq
  have h3 := h.params
  simp only [Params.wf, Bool.and_eq_true, beq_iff_eq, decide_eq_true_eq] at h3
  simp only [State.clearCode, State.setCode_params]
  omega

theorem State.Inv.storeCode {s : State} (h : s.Inv) {t : Tree} (ht : s.tree = some t) (v : Vector (Option Bits) 256)
    (hv : ∀ sym, (s.setCode v).codeAt sym = t.table sym) : (s.setCode v).Inv :=
  ⟨h.bpBuffer, h.buBuffer, h.counters, h.treeFits, .inr ⟨t, ht, hv⟩, h.attached, h.cursors, h.counts, h.params⟩

theorem State.Inv.codeTable {s : State} (h : s.Inv) {t : Tree} (ht : s.tree = some t) : (s.setCode t.codeTable).Inv :=
  h.storeCode ht _ (codeTable_all s t)

theorem State.Inv.rawInRead {s : State} (h : s.Inv) : s.rawInRead.2.Inv := by
  rcases s.rawInRead_cases with ⟨b, hb, hw⟩ | ⟨_, hw⟩ <;> rw [hw]
  · refine ⟨h.bpBuffer, h.buBuffer, h.counters, h.treeFits, h.codeTree, h.attached, ⟨h.cursors.1, ?_⟩, h.counts,
      h.params⟩
    have := (List.getElem?_eq_some_iff.mp hb).1
    simp; omega
  · exact h

theorem State.Inv.rawOutWrite {s : State} (h : s.Inv) (b : Byte) : (s.rawOutWrite b).2.Inv := by
  rcases s.rawOutWrite_cases b with hw | ⟨l, hw⟩ <;> rw [hw] <;>
    exact ⟨h.bpBuffer, h.buBuffer, h.counters, h.treeFits, h.codeTree, h.attached, h.cursors, h.counts, h.params⟩

theorem compress_inv {s : State} (h : s.Inv) : (compress s).Post (fun _ t => t.Inv) State.Inv :=
  compress_post h (fun _ k => k.rawInRead)
    (fun _ k => ⟨k.bpBuffer, k.buBuffer, k.counters, k.treeFits, k.codeTree, k.attached,
      ⟨k.cursors.1, Nat.zero_le _⟩, k.counts, k.params⟩)
    (fun _ _ _ k => ⟨k.bpBuffer, k.buBuffer, k.counters, k.treeFits, k.codeTree, k.attached, k.cursors, k.counts,
      k.params⟩)
    (fun _ _ _ k => ⟨k.bpBuffer, k.buBuffer, k.counters, k.treeFits, k.codeTree, k.attached, k.cursors, k.counts,
      k.params⟩)
    (fun _ k hc => k.buildTree hc) (fun _ _ k ht => k.codeTable ht) (fun _ bits k => writeBits_inv bits k)
    (fun _ n k => writeLength_inv n k) (fun _ k => bpClose_inv k)

theorem deserialize_inv {s : State} (h : s.Inv) : (deserialize s).Post (fun _ t => t.Inv) State.Inv :=
  (deserialize_post h (fun _ k => k.clearTree) (fun _ fuel count k => parse_inv fuel count k)
    fun _ t k hc hn => k.storeTree hc _ fun t' ht => by cases ht; exact hn).mono (fun _ _ k => k.1) fun _ k => k.1

theorem decompress_inv {s : State} (h : s.Inv) : (decompress s).Post (fun _ t => t.Inv) State.Inv :=
  decompress_post h (fun _ k => k.clearTree) (fun _ fuel count k => parse_inv fuel count k)
    (fun _ t k hc hn => k.storeTree hc _ fun t' ht => by cases ht; exact hn) (fun _ k => readLength_inv k)
    (fun _ t k => decodeOne_inv t k) (fun _ b k => k.rawOutWrite b)
    (fun _ _ k => ⟨k.bpBuffer, k.buBuffer, k.counters, k.treeFits, k.codeTree, k.attached, k.cursors, k.counts,
      k.params⟩)

end Sys2Proof.Machine
end

