-- ==== Sys2Proof/Laws/Commands.lean ====
section
/-! SUPPORT. Runs of write commands and the sub-operations they are: the result field is recorded and never read, so a
run of BP_WRITE_BIT commands is the same run of bit writes (30_encoding.md R76; 42_canonical_tree_serializer.md R152). -/

namespace Sys2Proof.Machine

/-- A piece of pseudocode with the recorded result replaced wherever it leads. -/
def Flow.withResult {α : Type} (r : Option Result) : Flow α → Flow α
  | .ret a s => .ret a (s.setResult r)
  | .raise e s => .raise e (s.setResult r)
  | .refuse x s => .refuse x (s.setResult r)

theorem Flow.withResult_bind {α β : Type} (r : Option Result) (x : Flow α) (f g : α → State → Flow β)
    (h : ∀ a s, g a (s.setResult r) = (f a s).withResult r) :
    (x.withResult r).bind g = (x.bind f).withResult r := by
  cases x with
  | ret a s => exact h a s
  | raise e s => rfl
  | refuse q z => rfl

theorem sinkWrite_setResult (s : State) (r : Option Result) (b : Byte) :
    (s.setResult r).sinkWrite b = ((s.sinkWrite b).1, (s.sinkWrite b).2.setResult r) := by
  have : (s.setResult r).answer = s.answer := rfl
  unfold State.sinkWrite
  rw [this]
  cases s.answer <;> rfl

theorem bpFlush_setResult (s : State) (r : Option Result) : bpFlush (s.setResult r) = (bpFlush s).withResult r := by
  have hc : (s.setResult r).bpCounterFull = s.bpCounterFull := rfl
  have hb : (s.setResult r).bpBuf = s.bpBuf := rfl
  unfold bpFlush
  rw [hc, hb, sinkWrite_setResult]
  cases s.bpCounterFull
  · rcases s.sinkWrite_cases s.bpBuf with h | ⟨l, h⟩ <;> rw [h] <;> rfl
  · rfl

theorem writeBit_setResult (b : Bool) (s : State) (r : Option Result) :
    writeBit b (s.setResult r) = (writeBit b s).withResult r := by
  rcases hs : s.bpStatus with _ | _ | _
  · rw [writeBit_idle b hs, writeBit_idle b (by exact hs)]; rfl
  · by_cases hf : s.bpFree = 0
    · rw [writeBit_full b hs hf, writeBit_full b (by exact hs) (by exact hf), bpFlush_setResult]
      exact Flow.withResult_bind r _ _ _ fun _ _ => rfl
    · rw [writeBit_room b hs hf, writeBit_room b (by exact hs) (by exact hf)]; rfl
  · rw [writeBit_failed b hs, writeBit_failed b (by exact hs)]; rfl

theorem writeBits_setResult (bits : Bits) (s : State) (r : Option Result) :
    writeBits bits (s.setResult r) = (writeBits bits s).withResult r := by
  induction bits generalizing s with
  | nil => rfl
  | cons b bs ih =>
    simp only [writeBits]
    rw [writeBit_setResult]
    exact Flow.withResult_bind r _ _ _ fun _ s => ih s

theorem bpFlush_raise {s t : State} {e : Status} (h : bpFlush s = .raise e t) : e = .writeFailure := by
  unfold bpFlush at h
  split at h
  · cases h
  · rcases s.sinkWrite_cases s.bpBuf with hw | ⟨l, hw⟩ <;> rw [hw] at h <;> cases h
    rfl

/-- The only status a bit write raises is `WriteFailure` (R102). -/
theorem writeBit_raise {s t : State} {b : Bool} {e : Status} (h : writeBit b s = .raise e t) : e = .writeFailure := by
  rcases hs : s.bpStatus with _ | _ | _
  · rw [writeBit_idle b hs] at h; cases h
  · by_cases hf : s.bpFree = 0
    · rw [writeBit_full b hs hf] at h
      cases hw : bpFlush s with
      | ret a u => rw [hw] at h; cases h
      | raise e' u => rw [hw] at h; cases h; exact bpFlush_raise hw
      | refuse q z => rw [hw] at h; cases h
    · rw [writeBit_room b hs hf] at h; cases h
  · rw [writeBit_failed b hs] at h; cases h; rfl

/-- BP_WRITE_BIT returned OK: the bit write went on, and its result was recorded (R102). -/
theorem exec_bpWriteBit_ok {b : Bool} {s t : State} {v : Value} (h : exec (.bpWriteBit b) s = .next t)
    (hr : t.result = some ⟨.ok, v⟩) : ∃ u, writeBit b s = .ret () u ∧ t = u.setResult (some ⟨.ok, .bit b⟩) := by
  simp only [exec, execBpWriteBit] at h
  cases hw : writeBit b s with
  | ret a x => rw [hw] at h; cases h; exact ⟨x, rfl, rfl⟩
  | raise e x => rw [hw] at h; cases h; cases writeBit_raise hw; cases hr
  | refuse q z => rw [hw] at h; cases h

theorem exec_bpWriteBit_ret {b : Bool} {s u : State} (h : writeBit b s = .ret () u) :
    exec (.bpWriteBit b) s = .next (u.setResult (some ⟨.ok, .bit b⟩)) := by
  simp [exec, execBpWriteBit, h]

/-- A run of BP_WRITE_BIT commands that all return OK is the run of bit writes, up to the recorded result. -/
theorem writeBits_of_runOk {bits : Bits} {s u : State} (h : runOk (writeBitCommands bits) s = some u) :
    ∃ v, writeBits bits s = .ret () v ∧ ∀ r, u.setResult r = v.setResult r := by
  induction bits generalizing s with
  | nil => cases h; exact ⟨_, rfl, fun _ => rfl⟩
  | cons b bs ih =>
    simp only [writeBitCommands, List.map_cons, runOk] at h
    split at h
    · rename_i t ht
      split at h
      · rename_i v hv
        obtain ⟨x, hx, rfl⟩ := exec_bpWriteBit_ok ht hv
        obtain ⟨w, hw, hr⟩ := ih h
        rw [writeBits_setResult] at hw
        cases hy : writeBits bs x with
        | ret a y =>
          rw [hy] at hw
          simp only [Flow.withResult, Flow.ret.injEq, true_and] at hw
          refine ⟨y, by simp [writeBits, hx, hy], fun r => ?_⟩
          rw [hr r, ← hw]; rfl
        | raise e y => rw [hy] at hw; cases hw
        | refuse q z => rw [hy] at hw; cases hw
      · cases h
    · cases h
    · cases h

/-- A run of bit writes that goes on to the end is a run of BP_WRITE_BIT commands that all return OK. -/
theorem runOk_of_writeBits {bits : Bits} {s v : State} (h : writeBits bits s = .ret () v) :
    ∃ u, runOk (writeBitCommands bits) s = some u ∧ ∀ r, u.setResult r = v.setResult r := by
  induction bits generalizing s v with
  | nil => cases h; exact ⟨_, rfl, fun _ => rfl⟩
  | cons b bs ih =>
    simp only [writeBits] at h
    cases hx : writeBit b s with
    | ret a x =>
      rw [hx, Flow.bind_ret] at h
      have h' : writeBits bs (x.setResult (some ⟨.ok, .bit b⟩)) = .ret () (v.setResult (some ⟨.ok, .bit b⟩)) := by
        rw [writeBits_setResult, h]; rfl
      obtain ⟨u, hu, hr⟩ := ih h'
      refine ⟨u, ?_, fun r => by rw [hr r]; rfl⟩
      simp only [writeBitCommands, List.map_cons, runOk, exec_bpWriteBit_ret hx]
      exact hu
    | raise e x => rw [hx] at h; cases h
    | refuse q z => rw [hx] at h; cases h

theorem runOk_append (a b : List Instr) (s : State) : runOk (a ++ b) s = (runOk a s).bind (runOk b) := by
  induction a generalizing s with
  | nil => rfl
  | cons i rest ih =>
    simp only [List.cons_append, runOk]
    split
    · split
      · exact ih _
      · rfl
    · rfl
    · rfl

end Sys2Proof.Machine
end

