-- ==== Sys2Proof/Laws/Counters.lean ====
section
/-! SUPPORT. The guard of the byte counter: no piece of a command carries `bp_bytes` past its width, in any state
(40_bit_packer.md R107). -/

namespace Sys2Proof.Machine

/-- `bp_bytes` fits its width (R14). -/
def BpCountFits (s : State) : Prop := s.bpBytes ≤ s.params.counterMax

theorem bpFlush_fits {s : State} (h : BpCountFits s) : (bpFlush s).Post (fun _ t => BpCountFits t) BpCountFits := by
  unfold bpFlush
  split
  · trivial
  · rename_i hc
    have hc' : s.bpBytes < s.params.counterMax := by simpa [State.bpCounterFull] using hc
    rcases s.sinkWrite_cases s.bpBuf with hw | ⟨l, hw⟩ <;> rw [hw]
    · simp only [Flow.post_ret, BpCountFits]; simp; omega
    · exact h

theorem bpWritable_fits {s : State} (h : BpCountFits s) :
    (bpWritable s).Post (fun _ t => BpCountFits t) BpCountFits :=
  (bpWritable_only s).mono (fun _ _ k => k ▸ h) fun _ k => k ▸ h

theorem writeBit_fits (b : Bool) {s : State} (h : BpCountFits s) :
    (writeBit b s).Post (fun _ t => BpCountFits t) BpCountFits := by
  refine (bpWritable_fits h).bind fun _ t ht => ?_
  refine Flow.Post.bind (P := fun _ u => BpCountFits u) ?_ fun _ u hu => hu
  split
  · exact bpFlush_fits ht
  · exact ht

theorem writeBits_fits (bits : Bits) {s : State} (h : BpCountFits s) :
    (writeBits bits s).Post (fun _ t => BpCountFits t) BpCountFits := by
  induction bits generalizing s with
  | nil => exact h
  | cons b bs ih => exact (writeBit_fits b h).bind fun _ t ht => ih ht

theorem writeByte_fits (b : Byte) {s : State} (h : BpCountFits s) :
    (writeByte b s).Post (fun _ t => BpCountFits t) BpCountFits := by
  unfold writeByte
  split
  · trivial
  · rename_i hc
    have hc' : s.bpBytes < s.params.counterMax := by simpa [State.bpCounterFull] using hc
    rcases s.sinkWrite_cases b with hw | ⟨l, hw⟩ <;> rw [hw]
    · simp only [Flow.post_ret, BpCountFits]; simp; omega
    · exact h

theorem writeBytes_fits (bytes : List Byte) {s : State} (h : BpCountFits s) :
    (writeBytes bytes s).Post (fun _ t => BpCountFits t) BpCountFits := by
  induction bytes generalizing s with
  | nil => exact h
  | cons b bs ih => exact (writeByte_fits b h).bind fun _ t ht => ih ht

theorem writeLength_fits (n : Word32) {s : State} (h : BpCountFits s) :
    (writeLength n s).Post (fun _ t => BpCountFits t) BpCountFits := by
  refine (bpWritable_fits h).bind fun _ t ht => ?_
  refine Flow.Post.bind (P := fun _ u => BpCountFits u) ?_ fun _ u hu => writeBytes_fits _ hu
  split
  · exact bpFlush_fits ht
  · exact ht

theorem bpClose_fits {s : State} (h : BpCountFits s) : (bpClose s).Post (fun _ t => BpCountFits t) BpCountFits := by
  unfold bpClose
  split
  · trivial
  · exact h
  · refine Flow.Post.bind (P := fun _ u => BpCountFits u) ?_ fun _ u hu => ?_
    · unfold closeLastByte
      split
      · split
        · trivial
        · rename_i hc
          have hc' : s.bpBytes < s.params.counterMax := by simpa [State.bpCounterFull] using hc
          rcases s.sinkWrite_cases s.bpBuf with hw | ⟨l, hw⟩ <;> rw [hw]
          · simp only [Flow.post_ret, BpCountFits]; simp; omega
          · exact h
      · exact h
    · unfold closeStorage
      rcases u.sinkFlush_cases with hw | ⟨d, hw⟩ <;> rw [hw] <;> exact hu

/-- HE_COMPRESS keeps the counter within its width. -/
theorem compress_fits {s : State} (h : BpCountFits s) : (compress s).Post (fun _ t => BpCountFits t) BpCountFits :=
  compress_post h
    (fun u k => by rcases u.rawInRead_cases with ⟨b, _, hw⟩ | ⟨_, hw⟩ <;> rw [hw] <;> exact k)
    (fun _ k => k) (fun _ _ _ k => k) (fun _ _ _ k => k) (fun _ k _ => k) (fun _ _ k _ => by simpa [BpCountFits] using k)
    (fun _ bits k => writeBits_fits bits k) (fun _ n k => writeLength_fits n k) fun _ k => bpClose_fits k

end Sys2Proof.Machine
end

