-- ==== Sys2Proof/Laws/Cut.lean ====
section
/-! SUPPORT. What a reset that cuts a command can do (70_reset_and_hazards.md R230, 93_implementation_defined.md U8). -/

namespace Sys2Proof.Machine

/-- The value a command returns does not change the state its lines reach. -/
@[simp] theorem Flow.reached_bind_ret {α β : Type} (x : Flow α) (f : α → β) :
    (x.bind fun a s => .ret (f a) s).reached = x.reached := by cases x <;> rfl

/-- A command that ends has recorded its result in the state its lines reached. -/
theorem Flow.finish_reached {x : Flow Value} {t u : State} (h : x.finish = .next t) (hx : x.reached = u) :
    ∃ r, t = u.setResult r := by
  subst hx
  cases x with
  | ret a s => cases h; exact ⟨_, rfl⟩
  | raise e s => cases h; exact ⟨_, rfl⟩
  | refuse r s => cases h

/-- An instruction that ends leaves the state `reachedBy` names, with its result recorded. -/
theorem exec_reached {i : Instr} {s t : State} (h : exec i s = .next t) : ∃ r, t = (reachedBy i s).setResult r := by
  cases i
  case bpOpen =>
    simp only [exec, execBpOpen] at h
    split at h <;> cases h
    rename_i hs
    exact ⟨_, by simp [reachedBy, hs]; rfl⟩
  case buOpen =>
    simp only [exec, execBuOpen] at h
    split at h <;> cases h
    rename_i hs
    exact ⟨_, by simp [reachedBy, hs]; rfl⟩
  case bpBytes | buBytes | tsFreqClear | tsFreqSet | tsCodeGet => cases h; exact ⟨_, rfl⟩
  case buReadBit =>
    refine Flow.finish_reached h ?_
    simp only [reachedBy]
    rcases readBit s with ⟨b, u⟩ | ⟨e, u⟩ | ⟨q, u⟩
    · cases b <;> rfl
    · rfl
    · rfl
  case tsSize =>
    refine Flow.finish_reached h ?_
    simp only [reachedBy, theTree]
    split <;> rfl
  all_goals exact Flow.finish_reached h (Flow.reached_bind_ret _ _)

/-- A cut that the model takes is possible, and leaves the registers reset and the streams where the host says. -/
theorem cutCommand_next {i : Instr} {s t : State} {c : Cut} {whole : Host.Outcome State Fault Refusal}
    (h : cutCommand i s c whole = .next t) : cutAdmissible i s c = true ∧ t = cutReset i s c := by
  have hcut : cutAt i s c = .next t → cutAdmissible i s c = true ∧ t = cutReset i s c := by
    unfold cutAt; split
    · intro h; cases h; exact ⟨by assumption, rfl⟩
    · intro h; cases h
  cases whole with
  | next u => exact hcut h
  | fault f => cases h
  | refused r =>
    unfold cutCommand at h; dsimp only at h; split at h
    · cases h
    · exact hcut h

/-- Each stream of a possible cut: at a point of the command if the instruction uses it, else as before (R48, U8). -/
theorem cutAdmissible_iff (i : Instr) (s : State) (c : Cut) : cutAdmissible i s c = true ↔
    ((drivesPacker i = true → sinkPoint s (reachedBy i (s.setHost .allOk)) (reachedBy i s) c.sink = true) ∧
      (drivesPacker i = false → c.sink = s.sink)) ∧
    ((drivesUnpacker i = true ∨ switchesUnpacker i = true → srcPoint s (reachedBy i s) c.src = true) ∧
      (drivesUnpacker i = false → switchesUnpacker i = false → c.src = s.src)) ∧
    ((compresses i = true → rawInPoint s c.rawIn = true) ∧ (compresses i = false → c.rawIn = s.rawIn)) ∧
    ((decompresses i = true → rawOutPoint s (reachedBy i (s.setHost .allOk)) (reachedBy i s) c.rawOut = true) ∧
      (decompresses i = false → c.rawOut = s.rawOut)) := by
  unfold cutAdmissible
  cases drivesPacker i <;> cases drivesUnpacker i <;> cases switchesUnpacker i <;> cases compresses i <;>
    cases decompresses i <;> simp [and_assoc]

theorem sinkPoint_iff (s full whole : State) (c : Sink) : sinkPoint s full whole c = true ↔
    c = s.sink ∨ c = whole.sink ∨
    (whole.sink.attached = false ∧ c = ⟨whole.sink.data, s.sink.attached, whole.sink.durable⟩) ∨
    (c.attached = s.sink.attached ∧ c.durable = false ∧ s.sink.data.length < c.data.length ∧
      s.sink.data <+: c.data ∧ c.data <+: sinkGiven full whole) := by
  simp [sinkPoint, between, or_assoc, and_assoc]

theorem srcPoint_iff (s whole : State) (c : Src) : srcPoint s whole c = true ↔
    c = s.src ∨ (c.data = s.src.data ∧ c.pos ≤ c.data.length ∧
      (c = whole.src ∨ (c.attached = s.src.attached ∧ s.src.pos ≤ c.pos ∧ c.pos ≤ whole.src.pos))) := by
  simp [srcPoint, and_assoc]

theorem rawInPoint_iff (s : State) (c : RawIn) : rawInPoint s c = true ↔
    c = s.rawIn ∨ (s.bpStatus ≠ .idle ∧ c.data = s.rawIn.data ∧ c.pos ≤ c.data.length ∧ c.pos ≤ 2 ^ 32) := by
  simp [rawInPoint, and_assoc]

theorem rawOutPoint_iff (s full whole : State) (c : List Byte) : rawOutPoint s full whole c = true ↔
    c = whole.rawOut ∨ (s.rawOut <+: c ∧ c <+: rawOutGiven full whole) := by
  simp [rawOutPoint, between]

end Sys2Proof.Machine
end

