-- ==== Sys2Proof/Laws/ReadChannel.lean ====
section
/-! SUPPORT. The read channel: what each sub-operation takes from the bits still unread (41_bit_unpacker.md R122,
R123, R126; 42_canonical_tree_serializer.md R153, R155; 44_huffman_decoder.md R187). -/

namespace Sys2Proof.Machine

/-- The channel is OPEN, its buffer well formed, its byte count true, and the counter has room for all of SRC. -/
structure Reading (s : State) : Prop where
  status : s.buStatus = .opened
  avail : s.buAvail ≤ 8
  counts : s.buBytes = s.src.pos
  cursor : s.src.pos ≤ s.src.data.length
  room : s.src.data.length ≤ s.params.counterMax

/-! ## One bit -/

theorem msb8_shift (v : Byte) : msb8 (v <<< 1) = (msb8 v).tail ++ [false] := by
  simp only [msb8, List.tail_cons, List.cons_append, List.nil_append, BitVec.getLsbD_shiftLeft]
  simp

theorem take_msb8 (v : Byte) (k : Nat) (h : k < 8) :
    (msb8 v).take (k + 1) = v.getLsbD 7 :: (msb8 (v <<< 1)).take k := by
  rw [msb8_shift]
  have : msb8 v = v.getLsbD 7 :: (msb8 v).tail := rfl
  conv_lhs => rw [this]
  rw [List.take_succ_cons, List.take_append_of_le_length (by simp; omega)]

theorem unread_extract {s : State} (h0 : s.buAvail ≠ 0) (h8 : s.buAvail ≤ 8) :
    s.unread = s.buBuf.getLsbD 7 :: (s.setBuBuffer (s.buBuf <<< 1) (s.buAvail - 1)).unread := by
  obtain ⟨k, hk⟩ : ∃ k, s.buAvail = k + 1 := ⟨s.buAvail - 1, by omega⟩
  simp only [State.unread, State.setBuBuffer_buBuf, State.setBuBuffer_buAvail, State.setBuBuffer_src, hk,
    Nat.add_sub_cancel]
  rw [take_msb8 _ _ (by omega), List.cons_append]

theorem unread_empty {s : State} (h0 : s.buAvail = 0) : s.unread = streamBits s.untaken := by
  simp [State.unread, h0, State.untaken]

theorem drop_of_getElem? {d : List Byte} {n : Nat} {b : Byte} (h : d[n]? = some b) :
    d.drop n = b :: d.drop (n + 1) := by
  obtain ⟨hlt, rfl⟩ := List.getElem?_eq_some_iff.mp h
  exact List.drop_eq_getElem_cons hlt

/-- The state after a fetched byte and the extraction of its first bit (R122). -/
theorem readBit_total {s : State} (h : Reading s) {b : Bool} {rest : Bits} (hu : s.unread = b :: rest) :
    ∃ t, readBit s = .ret (some b) t ∧ t.unread = rest ∧ Reading t ∧ t.buAvail < 8 ∧ OnlyUnpacker s t := by
  have hr : buReadable s = .ret () s := by simp [buReadable, h.status]
  by_cases h0 : s.buAvail = 0
  · rw [unread_empty h0] at hu
    rcases s.srcRead_cases with ⟨r, hb, hw⟩ | ⟨hb, hw⟩
    · have hlt := (List.getElem?_eq_some_iff.mp hb).1
      have hroom := h.room
      have hcount := h.counts
      have hc : s.buCounterFull = false := by simp [State.buCounterFull]; omega
      have hf : fetchByte s =
          .ret true (((s.setSrc ⟨s.src.data, s.src.pos + 1, s.src.attached⟩).setBuBuffer r 8).setBuBytes
            (s.buBytes + 1)) := by
        simp [fetchByte, hc, hw]
      generalize hv : ((s.setSrc ⟨s.src.data, s.src.pos + 1, s.src.attached⟩).setBuBuffer r 8).setBuBytes
            (s.buBytes + 1) = v at hf
      have hv8 : v.buAvail = 8 := by rw [← hv]; rfl
      have hvu : v.unread = s.unread := by
        rw [unread_empty h0, State.untaken, drop_of_getElem? hb, ← hv]
        simp [State.unread, streamBits]
      have hx := unread_extract (s := v) (by omega) (by omega)
      rw [hvu, unread_empty h0, hu] at hx
      have hread : readBit s = .ret (some b) (v.setBuBuffer (v.buBuf <<< 1) (v.buAvail - 1)) := by
        simp only [readBit, hr, Flow.bind_ret, State.noBitsBuffered, h0, beq_self_eq_true, if_true, hf, extractBit]
        rw [(List.cons.inj hx).1]
      have ho := readBit_only s
      rw [hread] at ho
      refine ⟨_, hread, (List.cons.inj hx).2.symm, ⟨?_, ?_, ?_, ?_, ?_⟩, ?_, ho⟩
      · rw [← hv]; exact h.status
      · simp [hv8]
      · rw [← hv]; simp [hcount]
      · rw [← hv]; simp; omega
      · rw [← hv]; exact h.room
      · simp [hv8]
    · have : s.untaken = [] := by
        rw [State.untaken, List.drop_eq_nil_iff]; exact List.getElem?_eq_none_iff.mp hb
      rw [this] at hu; cases hu
  · have hx := unread_extract (s := s) h0 h.avail
    rw [hu] at hx
    have hread : readBit s = .ret (some b) (s.setBuBuffer (s.buBuf <<< 1) (s.buAvail - 1)) := by
      simp only [readBit, hr, Flow.bind_ret, State.noBitsBuffered, beq_iff_eq, h0, if_false, if_true, extractBit]
      rw [(List.cons.inj hx).1]
    have ho := readBit_only s
    rw [hread] at ho
    have h8 := h.avail
    exact ⟨_, hread, (List.cons.inj hx).2.symm,
      ⟨h.status, by simp; omega, h.counts, h.cursor, h.room⟩, by simp; omega, ho⟩

/-- At the end of the stream the answer is the signal, and nothing has changed (R122). -/
theorem readBit_end {s : State} (h : Reading s) (hroom : s.src.data.length < s.params.counterMax)
    (hu : s.unread = []) : readBit s = .ret none s := by
  have hr : buReadable s = .ret () s := by simp [buReadable, h.status]
  have h0 : s.buAvail = 0 := by
    have := congrArg List.length hu
    have h8 := h.avail
    simp [State.unread] at this
    omega
  rw [unread_empty h0] at hu
  have hn : s.untaken = [] := by
    have := congrArg List.length hu
    simpa using this
  have hb : s.src.data[s.src.pos]? = none := by
    rw [List.getElem?_eq_none_iff]; simpa [State.untaken] using hn
  have hc : s.buCounterFull = false := by
    have := h.counts; have := h.cursor; simp [State.buCounterFull]; omega
  simp [readBit, hr, State.noBitsBuffered, h0, fetchByte, hc, State.srcRead, hb]

/-! ## A leaf's symbol, a tree, a code word -/

theorem bitAt_zero (b : Bool) : bitAt b 0 = (BitVec.ofBool b).setWidth 8 := by simp [bitAt]

theorem readSymbol_total {s : State} (h : Reading s) (bits x : Bits) (acc : Byte) (hu : s.unread = bits ++ x) :
    ∃ t, readSymbol bits.length acc s =
        .ret (bits.foldl (fun acc b => (acc <<< 1) ||| (BitVec.ofBool b).setWidth 8) acc) t ∧
      t.unread = x ∧ Reading t ∧ OnlyUnpacker s t ∧ (bits ≠ [] → t.buAvail < 8) := by
  induction bits generalizing s acc with
  | nil => exact ⟨s, rfl, by simpa using hu, h, OnlyUnpacker.refl s, fun hn => absurd rfl hn⟩
  | cons b bs ih =>
    obtain ⟨t, ht, h1, h2, h3, h4⟩ := readBit_total h (rest := bs ++ x) (by simpa using hu)
    obtain ⟨u, hv, k1, k2, k3, k4⟩ := ih h2 ((acc <<< 1) ||| bitAt b 0) h1
    refine ⟨u, ?_, k1, k2, h4.trans k3, fun _ => ?_⟩
    · simp only [List.length_cons, readSymbol, ht, Flow.bind_ret, List.foldl_cons, hv]
      rw [bitAt_zero]
    · cases bs with
      | nil =>
        simp only [List.length_nil, readSymbol, Flow.ret.injEq] at hv
        rw [← hv.2]; exact h3
      | cons c cs => exact k4 (by simp)

theorem readSymbol_msb8 {s : State} (h : Reading s) (sym : Byte) (x : Bits) (hu : s.unread = msb8 sym ++ x) :
    ∃ t, readSymbol 8 0 s = .ret sym t ∧ t.unread = x ∧ Reading t ∧ OnlyUnpacker s t ∧ t.buAvail < 8 := by
  obtain ⟨t, ht, h1, h2, h3, h4⟩ := readSymbol_total h (msb8 sym) x 0 hu
  have hb := byteOfBits_msb8 sym
  unfold byteOfBits at hb
  rw [hb] at ht
  exact ⟨t, ht, h1, h2, h3, h4 (by simp [msb8])⟩

/-- Parsing `ser(t) ++ x` gives `t` and consumes exactly `ser(t)` (R155). -/
theorem parse_ser (t : Tree) (fuel count : Nat) {s : State} (x : Bits) (h : Reading s)
    (hu : s.unread = t.ser ++ x) (hfuel : t.nodes ≤ fuel) (hcap : count + t.nodes ≤ s.params.maxNodes) :
    ∃ u, parse fuel count s = .ret (t, count + t.nodes) u ∧ u.unread = x ∧ Reading u ∧ OnlyUnpacker s u ∧
      u.buAvail < 8 := by
  induction t generalizing fuel count s x with
  | leaf sym =>
    obtain ⟨fuel, rfl⟩ : ∃ k, fuel = k + 1 := ⟨fuel - 1, by simp [Tree.nodes] at hfuel; omega⟩
    obtain ⟨u, hr, h1, h2, _, h4⟩ := readBit_total h (rest := msb8 sym ++ x) (by simpa [Tree.ser] using hu)
    obtain ⟨v, hv, k1, k2, k3, k4⟩ := readSymbol_msb8 h2 sym x h1
    have hc : ¬ count ≥ u.params.maxNodes := by rw [h4.params]; simp [Tree.nodes] at hcap; omega
    refine ⟨v, ?_, k1, k2, h4.trans k3, k4⟩
    simp only [parse, hr, Flow.bind_ret, hc, if_false, if_true, hv, Tree.nodes]
  | internal l r ihl ihr =>
    simp only [Tree.nodes] at hfuel hcap
    obtain ⟨fuel, rfl⟩ : ∃ k, fuel = k + 1 := ⟨fuel - 1, by omega⟩
    obtain ⟨u, hr, h1, h2, _, h4⟩ := readBit_total h (rest := l.ser ++ (r.ser ++ x)) (by simpa [Tree.ser] using hu)
    obtain ⟨v, hv, k1, k2, k3, _⟩ := ihl fuel (count + 1) (r.ser ++ x) h2 h1 (by omega) (by rw [h4.params]; omega)
    obtain ⟨w, hw, m1, m2, m3, m4⟩ := ihr fuel (count + 1 + l.nodes) x k2 k1 (by omega)
      (by rw [k3.params, h4.params]; omega)
    have hc : ¬ count ≥ u.params.maxNodes := by rw [h4.params]; omega
    refine ⟨w, ?_, m1, m2, (h4.trans k3).trans m3, m4⟩
    simp only [parse, hr, Flow.bind_ret, hc, if_false, hv, hw, Tree.nodes, Bool.false_eq_true]
    congr 2; omega

/-- Descending along the path of a leaf gives its symbol and consumes exactly the path (R187). -/
theorem decodeOne_path (t : Tree) {sym : Byte} {p : Bits} (hp : (sym, p) ∈ t.paths) {s : State} (x : Bits)
    (h : Reading s) (hu : s.unread = p ++ x) :
    ∃ u, decodeOne t s = .ret sym u ∧ u.unread = x ∧ Reading u ∧ OnlyUnpacker s u := by
  induction t generalizing p s with
  | leaf a =>
    simp only [Tree.paths, List.mem_singleton, Prod.mk.injEq] at hp
    obtain ⟨rfl, rfl⟩ := hp
    exact ⟨s, rfl, by simpa using hu, h, OnlyUnpacker.refl s⟩
  | internal l r ihl ihr =>
    simp only [Tree.paths, List.mem_append, List.mem_map, Prod.mk.injEq] at hp
    rcases hp with ⟨⟨a, q⟩, hm, rfl, rfl⟩ | ⟨⟨a, q⟩, hm, rfl, rfl⟩
    · obtain ⟨u, hr, h1, h2, _, h4⟩ := readBit_total h (rest := q ++ x) (by simpa using hu)
      obtain ⟨v, hv, k1, k2, k3⟩ := ihl hm h2 h1
      exact ⟨v, by simp [decodeOne, hr, hv], k1, k2, h4.trans k3⟩
    · obtain ⟨u, hr, h1, h2, _, h4⟩ := readBit_total h (rest := q ++ x) (by simpa using hu)
      obtain ⟨v, hv, k1, k2, k3⟩ := ihr hm h2 h1
      exact ⟨v, by simp [decodeOne, hr, hv], k1, k2, h4.trans k3⟩

/-! ## The length header -/

theorem appendBytes_be32 (n : Word32) :
    appendByte (appendByte (appendByte (appendByte 0 (n.extractLsb' 24 8)) (n.extractLsb' 16 8))
      (n.extractLsb' 8 8)) (n.extractLsb' 0 8) = n := by
  apply BitVec.eq_of_getLsbD_eq
  intro i hi
  simp only [appendByte, BitVec.getLsbD_or, BitVec.getLsbD_shiftLeft, BitVec.getLsbD_setWidth,
    BitVec.getLsbD_extractLsb']
  interval_cases i <;> simp

/-- The bytes of SRC that a length header takes: the next `bytes` of SRC are read one after another (R123). -/
theorem takeLengthBytes_total {s : State} (h : Reading s) (bytes rest : List Byte) (n : Word32)
    (hu : s.untaken = bytes ++ rest) :
    ∃ t, takeLengthBytes bytes.length n s = .ret (bytes.foldl appendByte n) t ∧ t.untaken = rest ∧ Reading t ∧
      t.buAvail = s.buAvail ∧ t.buBuf = s.buBuf ∧ OnlyUnpacker s t := by
  induction bytes generalizing s n with
  | nil => exact ⟨s, rfl, by simpa using hu, h, rfl, rfl, OnlyUnpacker.refl s⟩
  | cons b bs ih =>
    have hne : s.untaken ≠ [] := by simp [hu]
    rcases s.srcRead_cases with ⟨r, hb, hw⟩ | ⟨hb, _⟩
    · have hlt := (List.getElem?_eq_some_iff.mp hb).1
      have hd := drop_of_getElem? hb
      rw [State.untaken, hd, List.cons_append, List.cons.injEq] at hu
      have hroom := h.room
      have hcount := h.counts
      have hc : s.buCounterFull = false := by simp [State.buCounterFull]; omega
      generalize hv : (s.setSrc ⟨s.src.data, s.src.pos + 1, s.src.attached⟩).setBuBytes (s.buBytes + 1) = v
      have hstep : takeLengthBytes (bs.length + 1) n s = takeLengthBytes bs.length (appendByte n b) v := by
        simp [takeLengthBytes, hc, hw, ← hv, hu.1]
      have hR : Reading v := by
        rw [← hv]; exact ⟨h.status, h.avail, by simp [hcount], by simp; omega, h.room⟩
      obtain ⟨t, ht, k1, k2, k3, k4, k5⟩ := ih hR (appendByte n b) (by rw [← hv]; exact hu.2)
      refine ⟨t, by rw [List.length_cons, hstep, ht]; rfl, k1, k2, by rw [k3, ← hv]; rfl, by rw [k4, ← hv]; rfl, ?_⟩
      exact OnlyUnpacker.trans (by rw [← hv]; constructor <;> simp) k5
    · exact absurd (by rw [State.untaken, List.drop_eq_nil_iff]; exact List.getElem?_eq_none_iff.mp hb) hne

/-- BU_READ_LENGTH drops the unread bits of the current byte and reads the four bytes that follow (R123). -/
theorem readLength_total {s : State} (h : Reading s) (n : Word32) (rest : List Byte)
    (hu : s.untaken = be32 n ++ rest) :
    ∃ t, readLength s = .ret n t ∧ t.untaken = rest ∧ t.buAvail = 0 ∧ t.buBuf = 0 ∧ Reading t ∧ OnlyUnpacker s t := by
  have hr : buReadable s = .ret () s := by simp [buReadable, h.status]
  have hR : Reading (s.setBuBuffer 0 0) := ⟨h.status, by simp, h.counts, h.cursor, h.room⟩
  obtain ⟨t, ht, k1, k2, k3, k4, _⟩ := takeLengthBytes_total hR (be32 n) rest 0 hu
  have hval : (be32 n).foldl appendByte 0 = n := appendBytes_be32 n
  have hread : readLength s = .ret n t := by
    simp only [readLength, hr, Flow.bind_ret]
    rw [← hval]; exact ht
  have ho := readLength_only s
  rw [hread] at ho
  exact ⟨t, hread, k1, by simpa using k3, by simpa using k4, k2, ho⟩

/-- When fewer than eight bits of a packed sequence's last byte are unread, they are its padding, and the bytes after
it are the ones not yet taken. -/
theorem untaken_of_unread {s : State} (h8 : s.buAvail < 8) {pad : Bits} (hk : pad.length < 8) {rest : List Byte}
    (hu : s.unread = pad ++ streamBits rest) (hsuf : rest <:+ s.src.data)
    (hcur : s.src.pos ≤ s.src.data.length) : s.untaken = rest := by
  have hl := congrArg List.length hu
  simp [State.unread] at hl
  obtain ⟨pre, hpre⟩ := hsuf
  have hlen := congrArg List.length hpre
  simp at hlen
  have : s.src.pos = pre.length := by omega
  rw [State.untaken, ← hpre, this, List.drop_left' rfl]

/-! ## Streams that end inside a tree (R153, R154) -/

theorem Tree.tokens_length (t : Tree) : t.tokens.length = t.nodes := by
  induction t with
  | leaf s => rfl
  | internal l r ihl ihr => simp [Tree.tokens, Tree.nodes, ihl, ihr]; omega

theorem Tree.tokens_bits (t : Tree) : t.tokens.flatMap tokenBits = t.ser := by
  induction t with
  | leaf s => simp [Tree.tokens, tokenBits, Tree.ser]
  | internal l r ihl ihr => simp [Tree.tokens, tokenBits, Tree.ser, ihl, ihr]

/-- The symbol bits end early: `MalformedTree`, with nothing left to read (R153). -/
theorem readSymbol_end {s : State} (h : Reading s) (hroom : s.src.data.length < s.params.counterMax) (bits : Bits)
    (hu : s.unread = bits) (k : Nat) (hk : bits.length < k) (acc : Byte) :
    ∃ u, readSymbol k acc s = .raise .malformedTree u ∧ u.unread = [] := by
  induction bits generalizing s k acc with
  | nil =>
    obtain ⟨k, rfl⟩ : ∃ j, k = j + 1 := ⟨k - 1, by simp at hk; omega⟩
    exact ⟨s, by simp [readSymbol, readBit_end h hroom hu], hu⟩
  | cons b bs ih =>
    obtain ⟨k, rfl⟩ : ∃ j, k = j + 1 := ⟨k - 1, by simp at hk; omega⟩
    obtain ⟨t, ht, h1, h2, _, h4⟩ := readBit_total h hu
    obtain ⟨u, hu', h5⟩ := ih h2 (by rw [h4.srcData, h4.params]; exact hroom) h1 k (by simpa using hk)
      ((acc <<< 1) ||| bitAt b 0)
    exact ⟨u, by simp [readSymbol, ht, hu'], h5⟩

/-- `parse` on the first `k` tokens of a tree and then bits `y` ends as it ends on `y` at the next node. -/
theorem parse_stops (t : Tree) (k fuel count : Nat) {s : State} {y z : Bits} {e : Status} (h : Reading s)
    (hk : k < t.tokens.length) (hu : s.unread = (t.tokens.take k).flatMap tokenBits ++ y)
    (hcap : count + k ≤ s.params.maxNodes) (hfuel : k + 1 ≤ fuel)
    (hstop : ∀ u f, Reading u → OnlyUnpacker s u → u.unread = y →
      ∃ v, parse (f + 1) (count + k) u = .raise e v ∧ v.unread = z) :
    ∃ v, parse fuel count s = .raise e v ∧ v.unread = z := by
  induction t generalizing k fuel count s with
  | leaf sym =>
    obtain rfl : k = 0 := by simp [Tree.tokens] at hk; exact hk
    obtain ⟨fuel, rfl⟩ : ∃ f, fuel = f + 1 := ⟨fuel - 1, by omega⟩
    exact hstop s fuel h (OnlyUnpacker.refl s) (by simpa using hu)
  | internal l r ihl ihr =>
    obtain ⟨fuel, rfl⟩ : ∃ f, fuel = f + 1 := ⟨fuel - 1, by omega⟩
    cases k with
    | zero => exact hstop s fuel h (OnlyUnpacker.refl s) (by simpa using hu)
    | succ k =>
      simp only [Tree.tokens, List.take_succ_cons, List.flatMap_cons, tokenBits, List.cons_append,
        List.nil_append] at hu
      obtain ⟨t, ht, h1, h2, _, h4⟩ := readBit_total h hu
      have hmax : ¬ count ≥ t.params.maxNodes := by rw [h4.params]; omega
      have hunfold : parse (fuel + 1) count s = (parse fuel (count + 1) t).bind fun l s =>
          (parse fuel l.2 s).bind fun r s => .ret (.internal l.1 r.1, r.2) s := by
        simp [parse, ht, hmax]
      by_cases hl : k < l.tokens.length
      · rw [List.take_append_of_le_length (by omega)] at h1
        obtain ⟨v, hv, hz⟩ := ihl k fuel (count + 1) h2 hl h1 (by rw [h4.params]; omega) (by omega)
          fun u f hR hO hy => by
            have := hstop u f hR (h4.trans hO) hy
            rwa [show count + (k + 1) = count + 1 + k by omega] at this
        exact ⟨v, by rw [hunfold, hv]; rfl, hz⟩
      · have hn := l.tokens_length
        rw [List.take_append, List.take_of_length_le (by omega), List.flatMap_append, Tree.tokens_bits,
          List.append_assoc] at h1
        obtain ⟨w, hw, k1, k2, k3, _⟩ := parse_ser l fuel (count + 1) _ h2 h1 (by omega) (by rw [h4.params]; omega)
        obtain ⟨v, hv, hz⟩ := ihr (k - l.tokens.length) fuel (count + 1 + l.nodes) k2
          (by simp [Tree.tokens] at hk; omega) k1 (by rw [k3.params, h4.params]; omega) (by omega)
          fun u f hR hO hy => by
            have := hstop u f hR ((h4.trans k3).trans hO) hy
            rwa [show count + (k + 1) = count + 1 + l.nodes + (k - l.tokens.length) by omega] at this
        exact ⟨v, by rw [hunfold, hw, Flow.bind_ret, hv]; rfl, hz⟩

end Sys2Proof.Machine
end

