-- ==== Sys2Proof/Laws/Decoder.lean ====
section
/-! SUPPORT. The loop of HD_DECOMPRESS (44_huffman_decoder.md R186, R187, R190). -/

namespace Sys2Proof.Machine

theorem HostScript.NeverFails.okFor {h : HostScript} (hn : h.NeverFails) (k : Nat) : h.OkFor k := by
  induction k generalizing h with
  | zero => trivial
  | succ k ih => exact ⟨hn.answer, ih hn.advance⟩

/-- What the loop of HD_DECOMPRESS may change: the unpacker's buffer, count and cursor, `hd_remaining`, RAWOUT and the
host's script. -/
structure OnlyDecodes (s t : State) : Prop where
  tree : t.tree = s.tree
  code : t.code = s.code
  buStatus : t.buStatus = s.buStatus
  srcData : t.src.data = s.src.data
  params : t.params = s.params

theorem OnlyUnpacker.decodes {s t : State} (h : OnlyUnpacker s t) : OnlyDecodes s t :=
  ⟨h.tree, h.code, h.buStatus, h.srcData, h.params⟩

theorem OnlyDecodes.trans {s t u : State} (h : OnlyDecodes s t) (k : OnlyDecodes t u) : OnlyDecodes s u :=
  ⟨k.tree.trans h.tree, k.code.trans h.code, k.buStatus.trans h.buStatus, k.srcData.trans h.srcData,
    k.params.trans h.params⟩

/-- The stream ends inside a code word: `TruncatedStream`, with nothing left to read (R187). -/
theorem decodeOne_end (t : Tree) {sym : Byte} {p part : Bits} (hp : (sym, p) ∈ t.paths) (hpre : part <+: p)
    (hne : part ≠ p) {s : State} (h : Reading s) (hroom : s.src.data.length < s.params.counterMax)
    (hu : s.unread = part) :
    ∃ u, decodeOne t s = .raise .truncatedStream u ∧ u.unread = [] ∧ OnlyUnpacker s u := by
  induction t generalizing p part s with
  | leaf a =>
    simp only [Tree.paths, List.mem_singleton, Prod.mk.injEq] at hp
    obtain ⟨rfl, rfl⟩ := hp
    exact absurd (List.prefix_nil.mp hpre) hne
  | internal l r ihl ihr =>
    cases part with
    | nil => exact ⟨s, by simp [decodeOne, readBit_end h hroom hu], hu, OnlyUnpacker.refl s⟩
    | cons b bs =>
      obtain ⟨u, hr, h1, h2, _, h4⟩ := readBit_total h hu
      have hroom' : u.src.data.length < u.params.counterMax := by rw [h4.srcData, h4.params]; exact hroom
      simp only [Tree.paths, List.mem_append, List.mem_map, Prod.mk.injEq] at hp
      rcases hp with ⟨⟨a, q⟩, hm, rfl, rfl⟩ | ⟨⟨a, q⟩, hm, rfl, rfl⟩
      · obtain ⟨rfl, hq⟩ := List.cons_prefix_cons.mp hpre
        obtain ⟨v, hv, k1, k2⟩ := ihl hm hq (fun e => hne (by rw [e])) h2 hroom' h1
        exact ⟨v, by simp [decodeOne, hr, hv], k1, h4.trans k2⟩
      · obtain ⟨rfl, hq⟩ := List.cons_prefix_cons.mp hpre
        obtain ⟨v, hv, k1, k2⟩ := ihr hm hq (fun e => hne (by rw [e])) h2 hroom' h1
        exact ⟨v, by simp [decodeOne, hr, hv], k1, h4.trans k2⟩

/-- One round of the loop: the code word at the front of the stream gives its symbol (R187). -/
theorem decodeOne_symbol (t : Tree) {a : Byte} (ha : a ∈ t.symbols) {s : State} (x : Bits) (h : Reading s)
    (hu : s.unread = (t.table a).getD [] ++ x) :
    ∃ u, decodeOne t s = .ret a u ∧ u.unread = x ∧ Reading u ∧ OnlyUnpacker s u := by
  cases hp : t.table a with
  | none => exact absurd ha ((t.table_none_iff a).mp hp)
  | some p => exact decodeOne_path t (Tree.table_mem hp) x h (by rw [hu, hp]; rfl)

/-- The loop runs through a list of paths of the tree and goes on behind them, whichever leaf of its symbol each leads to
(R186 step 3, R187). -/
theorem decodeSymbols_paths (t : Tree) (steps : List (Byte × Bits)) (k : Nat) {s : State} (x : Bits) (h : Reading s)
    (hu : s.unread = steps.flatMap (·.2) ++ x) (hs : ∀ e ∈ steps, e ∈ t.paths) (ho : s.host.OkFor steps.length) :
    ∃ u, decodeSymbols t (steps.length + k) s = decodeSymbols t k u ∧ u.unread = x ∧ Reading u ∧
      u.rawOut = s.rawOut ++ steps.map (·.1) ∧ u.hdRemaining = s.hdRemaining - BitVec.ofNat 32 steps.length ∧
      u.host = s.host.after steps.length ∧ OnlyDecodes s u := by
  induction steps generalizing s with
  | nil => exact ⟨s, by simp, by simpa using hu, h, by simp, by simp, rfl, (OnlyUnpacker.refl s).decodes⟩
  | cons e steps ih =>
    obtain ⟨a, p⟩ := e
    obtain ⟨u, hd, h1, h2, h3⟩ := decodeOne_path t (hs _ List.mem_cons_self) (steps.flatMap (·.2) ++ x) h
      (by simpa using hu)
    have ha : u.host.answer = .ok := by rw [h3.host]; exact ho.1
    have hw := State.rawOutWrite_ok ha a
    obtain ⟨w, hw', k1, k2, k3, k4, k5, k6⟩ := ih
      (s := (u.drawn.setRawOut (u.rawOut ++ [a])).setHdRemaining (u.hdRemaining - 1))
      ⟨h2.status, h2.avail, h2.counts, h2.cursor, h2.room⟩ h1 (fun e he => hs e (List.mem_cons_of_mem _ he))
      (by simpa [h3.host] using ho.2)
    refine ⟨w, ?_, k1, k2, ?_, ?_, ?_, ?_⟩
    · rw [← hw', List.length_cons, show steps.length + 1 + k = (steps.length + k) + 1 by omega]
      simp only [decodeSymbols, hd, Flow.bind_ret, hw, State.drawn_eq, State.setRawOut_hdRemaining,
        State.setHost_hdRemaining]
    · rw [k3]; simp [h3.rawOut]
    · rw [k4]; simp only [State.setHdRemaining_hdRemaining, h3.hdRemaining, List.length_cons]
      rw [BitVec.sub_sub, Nat.add_comm, BitVec.ofNat_add]; rfl
    · rw [k5]; simp [h3.host, HostScript.after]
    · exact h3.decodes.trans ⟨k6.tree, k6.code, k6.buStatus, k6.srcData, k6.params⟩

/-- The code words of symbols that have leaves are the paths of their first leaves (R84, R148). -/
theorem codeWords_paths (t : Tree) (syms : List Byte) (hs : ∀ a ∈ syms, a ∈ t.symbols) :
    ∃ steps : List (Byte × Bits), (∀ e ∈ steps, e ∈ t.paths) ∧ steps.map (·.1) = syms ∧
      steps.flatMap (·.2) = codeWords t syms := by
  induction syms with
  | nil => exact ⟨[], fun _ h => (nomatch h), rfl, rfl⟩
  | cons a syms ih =>
    obtain ⟨steps, h1, h2, h3⟩ := ih fun b hb => hs b (List.mem_cons_of_mem _ hb)
    cases hp : t.table a with
    | none => exact absurd (hs a List.mem_cons_self) ((t.table_none_iff a).mp hp)
    | some p =>
      refine ⟨(a, p) :: steps, fun e he => ?_, by simp [h2], by simp [h3, codeWords, hp]⟩
      rcases List.mem_cons.mp he with rfl | he
      · exact Tree.table_mem hp
      · exact h1 e he

/-- The loop runs through the code words of `syms` and goes on behind them (R186 step 3). -/
theorem decodeSymbols_run (t : Tree) (syms : List Byte) (k : Nat) {s : State} (x : Bits) (h : Reading s)
    (hu : s.unread = codeWords t syms ++ x) (hs : ∀ a ∈ syms, a ∈ t.symbols) (ho : s.host.OkFor syms.length) :
    ∃ u, decodeSymbols t (syms.length + k) s = decodeSymbols t k u ∧ u.unread = x ∧ Reading u ∧
      u.rawOut = s.rawOut ++ syms ∧ u.hdRemaining = s.hdRemaining - BitVec.ofNat 32 syms.length ∧
      u.host = s.host.after syms.length ∧ OnlyDecodes s u := by
  obtain ⟨steps, h1, rfl, h3⟩ := codeWords_paths t syms hs
  rw [← h3] at hu
  simp only [List.length_map] at ho ⊢
  exact decodeSymbols_paths t steps k x h hu h1 ho

end Sys2Proof.Machine
end

