-- ==== Sys2Proof/Laws/Encoder.lean ====
section
/-! SUPPORT. The two scans of HE_COMPRESS (43_huffman_encoder.md R171, R173, R175). -/

namespace Sys2Proof.Machine

/-- The frequency table `f` after the symbols of `l` have been counted into it (R171 step 1). -/
def counted (f : Vector Word32 256) (l : List Byte) : Vector Word32 256 :=
  Vector.ofFn fun i => f[i.val] + occurrences (BitVec.ofFin i) l

theorem counted_getElem (f : Vector Word32 256) (l : List Byte) (i : Nat) (hi : i < 256) :
    (counted f l)[i] = f[i] + occurrences (BitVec.ofFin ⟨i, hi⟩) l := by simp [counted]

theorem counted_nil (f : Vector Word32 256) : counted f [] = f := by
  ext i hi : 1
  rw [counted_getElem]; simp [occurrences]

theorem counted_cons (f : Vector Word32 256) (r : Byte) (l : List Byte) :
    counted (f.set r.toNat (f[r.toNat]'r.isLt + 1) r.isLt) l = counted f (r :: l) := by
  ext i hi : 1
  rw [counted_getElem, counted_getElem, Vector.getElem_set]
  simp only [occurrences, List.count_cons]
  by_cases h : r.toNat = i
  · subst h
    simp only [if_true, BitVec.ofNat_add]
    have : (BitVec.ofFin ⟨r.toNat, hi⟩ : Byte) = r := rfl
    rw [this]; simp only [beq_self_eq_true, if_true]
    rw [BitVec.add_assoc, BitVec.add_comm 1]
    rfl
  · have : ¬ (r = BitVec.ofFin ⟨i, hi⟩) := fun e => h (by rw [e]; rfl)
    simp [h, this]

/-- The frequencies of a sequence are the empty table with the sequence counted into it (R171 step 1). -/
theorem frequencies_eq (l : List Byte) : frequencies l = counted (Vector.replicate 256 0) l := by
  ext i hi : 1
  rw [counted_getElem]; simp [frequencies]

theorem rawInRead_of_drop {s : State} {r : Byte} {rest : List Byte} (h : s.rawIn.data.drop s.rawIn.pos = r :: rest) :
    s.rawInRead = (some r, s.setRawIn ⟨s.rawIn.data, s.rawIn.pos + 1⟩) ∧
    s.rawIn.data.drop (s.rawIn.pos + 1) = rest := by
  have hg : s.rawIn.data[s.rawIn.pos]? = some r := by
    rw [← List.head?_drop, h]; rfl
  refine ⟨by simp [State.rawInRead, hg], ?_⟩
  rw [← List.tail_drop, h]; rfl

/-- The state after the first scan has counted the symbols `l` (R171 step 1). -/
def scanned (s : State) (l : List Byte) : State :=
  ((s.setRawIn ⟨s.rawIn.data, s.rawIn.pos + l.length⟩).setHeLen (s.heLen + BitVec.ofNat 32 l.length)).setFreq
    (counted s.freq l)

theorem scan_step {s : State} {r : Byte} {rest : List Byte} (h : s.rawIn.data.drop s.rawIn.pos = r :: rest)
    (hl : s.heLen ≠ BitVec.allOnes 32) : scan (r :: rest) s = scan rest (scanned s [r]) := by
  have hs : counted s.freq [r] = s.freq.set r.toNat (s.freq[r.toNat]'r.isLt + 1) r.isLt := by
    rw [← counted_cons, counted_nil]
  rw [scan, if_neg hl, (rawInRead_of_drop h).1]
  simp only [scanned, hs]
  rfl

theorem scanned_append (s : State) (r : Byte) (l : List Byte) :
    scanned (scanned s [r]) l = scanned s (r :: l) := by
  have hs : counted (counted s.freq [r]) l = counted s.freq (r :: l) := by
    rw [← counted_cons, ← counted_cons, counted_nil]
  simp only [scanned, State.setFreq_freq, State.setFreq_rawIn, State.setHeLen_rawIn, State.setRawIn_rawIn,
    State.setFreq_heLen, State.setHeLen_heLen, hs, List.length_cons, List.length_nil]
  have h1 : s.rawIn.pos + (0 + 1) + l.length = s.rawIn.pos + (l.length + 1) := by omega
  have h2 : s.heLen + BitVec.ofNat 32 (0 + 1) + BitVec.ofNat 32 l.length = s.heLen + BitVec.ofNat 32 (l.length + 1) := by
    rw [BitVec.add_assoc, ← BitVec.ofNat_add]; congr 2; omega
  rw [h1, h2]
  generalize counted s.freq [r] = c, counted s.freq (r :: l) = d
  rfl

/-- The first scan of an input that fits: every symbol counted, the cursor behind the last (R171 step 1). -/
theorem scan_run (l : List Byte) {s : State} (h : s.rawIn.data.drop s.rawIn.pos = l)
    (hl : s.heLen.toNat + l.length < 2 ^ 32) : scan l s = .ret () (scanned s l) := by
  induction l generalizing s with
  | nil =>
    simp only [scan, scanned, counted_nil]
    simp
    rfl
  | cons r rest ih =>
    simp only [List.length_cons] at hl
    rw [scan_step h, ih (s := scanned s [r]) (by simpa [scanned] using (rawInRead_of_drop h).2), scanned_append]
    · simp only [scanned, State.setFreq_heLen, State.setHeLen_heLen, BitVec.toNat_add, BitVec.toNat_ofNat,
        List.length_cons, List.length_nil]
      omega
    · intro e
      have := congrArg BitVec.toNat e
      simp only [BitVec.toNat_allOnes] at this
      omega

/-- The first scan of an input too long to count: it stops at the byte that no count is left for (R173 (a)). -/
theorem scan_long (l : List Byte) (k : Nat) {s : State} (h : s.rawIn.data.drop s.rawIn.pos = l)
    (hk : s.heLen.toNat + k = 2 ^ 32 - 1) (hl : k < l.length) :
    scan l s = .raise .inputTooLong
      ((scanned s (l.take k)).setRawIn ⟨s.rawIn.data, s.rawIn.pos + k + 1⟩) := by
  induction l generalizing s k with
  | nil => simp at hl
  | cons r rest ih =>
    cases k with
    | zero =>
      have he : s.heLen = BitVec.allOnes 32 := by
        apply BitVec.eq_of_toNat_eq; rw [BitVec.toNat_allOnes]; omega
      unfold scan
      rw [if_pos he, (rawInRead_of_drop h).1]
      simp only [List.take_zero, scanned, counted_nil]
      simp
      rfl
    | succ k =>
      have hne : s.heLen ≠ BitVec.allOnes 32 := by
        intro e
        have := congrArg BitVec.toNat e
        simp only [BitVec.toNat_allOnes] at this
        omega
      have hlt := s.heLen.isLt
      rw [scan_step h hne, ih k (s := scanned s [r]) (by simpa [scanned] using (rawInRead_of_drop h).2) ?_
        (by simpa using hl), scanned_append]
      · simp only [List.take_succ_cons, scanned, State.setFreq_rawIn, State.setHeLen_rawIn, State.setRawIn_rawIn,
          List.length_cons, List.length_nil]
        rw [show s.rawIn.pos + (0 + 1) + k + 1 = s.rawIn.pos + (k + 1) + 1 by omega]
      · simp only [scanned, State.setFreq_heLen, State.setHeLen_heLen, BitVec.toNat_add, BitVec.toNat_ofNat,
          List.length_cons, List.length_nil]
        omega

/-- Only the packer's registers, SINK, the host's script and the cursor of RAWIN may differ. -/
structure OnlyEncodes (s t : State) : Prop where
  packer : OnlyPacker (s.setRawIn t.rawIn) t
  data : t.rawIn.data = s.rawIn.data

/-- The second scan, whenever it runs to its end, has written the code words of the symbols (R171 step 6). -/
theorem Holds.encodeSymbols (t : Tree) (l : List Byte) {base : List Byte} {r : Bits} {s u : State}
    (h : Holds base r s) (hd : s.rawIn.data.drop s.rawIn.pos = l) (hcode : ∀ a, s.codeAt a = t.table a)
    (hw : encodeSymbols l s = .ret () u) :
    Holds base (r ++ codeWords t l) u ∧ u.rawIn.pos = s.rawIn.pos + l.length ∧ OnlyEncodes s u := by
  induction l generalizing r s with
  | nil => cases hw; exact ⟨by simpa [codeWords] using h, rfl, ⟨OnlyPacker.refl _, rfl⟩⟩
  | cons a l ih =>
    cases hp : t.table a with
    | none => simp [Machine.encodeSymbols, hcode a, hp] at hw
    | some p =>
      have hr := rawInRead_of_drop hd
      simp only [Machine.encodeSymbols, hcode a, hp, hr.1] at hw
      have h' : Holds base r (s.setRawIn ⟨s.rawIn.data, s.rawIn.pos + 1⟩) := ⟨h.1, h.2, h.3, h.4, h.5⟩
      have h5 := writeBits_only p (s.setRawIn ⟨s.rawIn.data, s.rawIn.pos + 1⟩)
      cases hv : Machine.writeBits p (s.setRawIn ⟨s.rawIn.data, s.rawIn.pos + 1⟩) with
      | ret b v =>
        rw [hv] at hw h5
        have hdata : v.rawIn = ⟨s.rawIn.data, s.rawIn.pos + 1⟩ := h5.rawIn
        obtain ⟨k1, k2, k3⟩ := ih (h'.writeBits hv) (by rw [hdata]; exact hr.2)
          (fun b => by rw [← hcode b]; unfold State.codeAt; simp only [h5.code]; rfl) hw
        have hcw : codeWords t (a :: l) = p ++ codeWords t l := by simp [codeWords, hp]
        refine ⟨by rw [hcw, ← List.append_assoc]; exact k1, ?_, ?_, ?_⟩
        · rw [k2, hdata, List.length_cons]; simp; omega
        · have h6 := k3.packer
          exact ⟨h6.buStatus.trans h5.buStatus, h6.buBuf.trans h5.buBuf, h6.buAvail.trans h5.buAvail,
            h6.buBytes.trans h5.buBytes, h6.freq.trans h5.freq, h6.tree.trans h5.tree, h6.code.trans h5.code,
            h6.heLen.trans h5.heLen, h6.hdRemaining.trans h5.hdRemaining, h6.src.trans h5.src, rfl,
            h6.rawOut.trans h5.rawOut, h6.result.trans h5.result, h6.params.trans h5.params, h6.inbox.trans h5.inbox⟩
        · rw [k3.data, hdata]
      | raise e v => rw [hv] at hw; cases hw
      | refuse q z => rw [hv] at hw; cases hw

/-- The second scan writes the code words of the symbols, on a storage that never fails (R171 step 6). -/
theorem encodeSymbols_total (t : Tree) (l : List Byte) {base : List Byte} {r : Bits} {s : State}
    (h : Holds base r s) (hd : s.rawIn.data.drop s.rawIn.pos = l) (hcode : ∀ a, s.codeAt a = t.table a)
    (hsym : ∀ a ∈ l, a ∈ t.symbols) (hn : s.host.NeverFails)
    (hc : base.length + (r.length + (codeWords t l).length + 7) / 8 ≤ s.params.counterMax + 1) :
    ∃ u, encodeSymbols l s = .ret () u ∧ Holds base (r ++ codeWords t l) u ∧ u.host.NeverFails ∧
      u.sink.attached = s.sink.attached ∧ u.rawIn.pos = s.rawIn.pos + l.length ∧ OnlyEncodes s u := by
  induction l generalizing r s with
  | nil => exact ⟨s, rfl, by simpa [codeWords] using h, hn, rfl, rfl, ⟨OnlyPacker.refl s, rfl⟩⟩
  | cons a l ih =>
    cases hp : t.table a with
    | none => exact absurd (hsym a (by simp)) ((t.table_none_iff a).mp hp)
    | some p =>
      have hw : codeWords t (a :: l) = p ++ codeWords t l := by simp [codeWords, hp]
      rw [hw, List.length_append] at hc
      have hr := rawInRead_of_drop hd
      have h' : Holds base r (s.setRawIn ⟨s.rawIn.data, s.rawIn.pos + 1⟩) := ⟨h.1, h.2, h.3, h.4, h.5⟩
      obtain ⟨v, h1, h2, h3, h4, h5⟩ := h'.writeBits_total p hn (by simp; omega)
      have hdata : v.rawIn = ⟨s.rawIn.data, s.rawIn.pos + 1⟩ := h5.rawIn
      obtain ⟨u, k1, k2, k3, k4, k5, k6⟩ := ih h2 (by rw [hdata]; exact hr.2)
        (fun b => by rw [← hcode b]; unfold State.codeAt; simp only [h5.code]; rfl)
        (fun b hb => hsym b (by simp [hb])) h3
        (by rw [h5.params, List.length_append]; simp; omega)
      refine ⟨u, ?_, by rw [hw, ← List.append_assoc]; exact k2, k3, k4.trans h4, ?_, ?_, ?_⟩
      · simp only [encodeSymbols, hcode a, hp, hr.1, h1, Flow.bind_ret, k1]
      · rw [k5, hdata, List.length_cons]; simp; omega
      · have h6 := k6.packer
        refine ⟨h6.buStatus.trans h5.buStatus, h6.buBuf.trans h5.buBuf, h6.buAvail.trans h5.buAvail,
          h6.buBytes.trans h5.buBytes, h6.freq.trans h5.freq, h6.tree.trans h5.tree, h6.code.trans h5.code,
          h6.heLen.trans h5.heLen, h6.hdRemaining.trans h5.hdRemaining, h6.src.trans h5.src, rfl,
          h6.rawOut.trans h5.rawOut, h6.result.trans h5.result, h6.params.trans h5.params, h6.inbox.trans h5.inbox⟩
      · rw [k6.data, hdata]

end Sys2Proof.Machine
end

