-- ==== Sys2Proof/Laws/PerInstr.lean ====
section
/-! SUPPORT. One statement for every instruction: its encoding is legal, by the masks of the opcode table
(30_encoding.md R75), or as a token or header of the stream (R81 to R83). -/

namespace Sys2Proof

/-- The bits of a command word under a mask that takes in a whole field of it. -/
theorem legalWord_of_row (op a : Byte) (b : Word32) (r : TableRow) (h : r ∈ commandRows)
    (hc : ∀ i < 48, r.mask.getLsbD i = true → (commandWord op a b).getLsbD i = r.pattern.getLsbD i)
    (hp : r.pattern &&& r.mask = r.pattern) : legalWord (commandWord op a b) = true := by
  refine List.any_eq_true.mpr ⟨r, h, ?_⟩
  simp only [TableRow.covers, beq_iff_eq]
  rw [← hp]
  apply BitVec.eq_of_getLsbD_eq
  intro i hi
  rw [BitVec.getLsbD_and, BitVec.getLsbD_and]
  cases hm : r.mask.getLsbD i
  · simp
  · simp [hc i hi hm]

theorem commandWord_getLsbD (op a : Byte) (b : Word32) (i : Nat) (hi : i < 48) :
    (commandWord op a b).getLsbD i =
      if i < 32 then b.getLsbD i else if i < 40 then a.getLsbD (i - 32) else op.getLsbD (i - 40) := by
  unfold commandWord
  rw [BitVec.getLsbD_append]
  split
  · rfl
  · rw [BitVec.getLsbD_append]
    split
    · rw [if_pos (by omega)]
    · rw [if_neg (by omega)]; congr 1

end Sys2Proof

namespace Sys2Proof.Laws.EncodingIsLegal

/-- The encoding of the instruction is a legal item. -/
def Statement (i : Instr) : Prop := (encode i).legal = true

theorem bpOpen : Statement .bpOpen := by unfold Statement; decide
theorem bpWriteBit (bit : Bool) : Statement (.bpWriteBit bit) := by cases bit <;> (unfold Statement; decide)
theorem bpBytes : Statement .bpBytes := by unfold Statement; decide
theorem bpClose : Statement .bpClose := by unfold Statement; decide
theorem buOpen : Statement .buOpen := by unfold Statement; decide
theorem buReadBit : Statement .buReadBit := by unfold Statement; decide
theorem buReadLength : Statement .buReadLength := by unfold Statement; decide
theorem buBytes : Statement .buBytes := by unfold Statement; decide
theorem buClose : Statement .buClose := by unfold Statement; decide
theorem tsBuild : Statement .tsBuild := by unfold Statement; decide
theorem tsSerialize : Statement .tsSerialize := by unfold Statement; decide
theorem tsDeserialize : Statement .tsDeserialize := by unfold Statement; decide
theorem tsSize : Statement .tsSize := by unfold Statement; decide
theorem tsCodetable : Statement .tsCodetable := by unfold Statement; decide
theorem tsFreqClear : Statement .tsFreqClear := by unfold Statement; decide
theorem heCompress : Statement .heCompress := by unfold Statement; decide
theorem hdDecompress : Statement .hdDecompress := by unfold Statement; decide

theorem bpWriteLength (n : Word32) : Statement (.bpWriteLength n) := by
  refine legalWord_of_row 0x12 0 n ⟨0x120000000000, 0xFFFF00000000⟩ (by decide) ?_ (by decide)
  intro i hi hm
  rw [commandWord_getLsbD _ _ _ i hi]
  by_cases h : i < 32
  · interval_cases i <;> exact absurd hm (by decide)
  · rw [if_neg h]; interval_cases i <;> rfl

theorem tsFreqSet (sym : Byte) (count : Word32) : Statement (.tsFreqSet sym count) := by
  refine legalWord_of_row 0x36 sym count ⟨0x360000000000, 0xFF0000000000⟩ (by decide) ?_ (by decide)
  intro i hi hm
  rw [commandWord_getLsbD _ _ _ i hi]
  by_cases h : i < 40
  · interval_cases i <;> exact absurd hm (by decide)
  · rw [if_neg (by omega), if_neg h]; interval_cases i <;> rfl

theorem tsCodeGet (sym : Byte) : Statement (.tsCodeGet sym) := by
  refine legalWord_of_row 0x37 sym 0 ⟨0x370000000000, 0xFF00FFFFFFFF⟩ (by decide) ?_ (by decide)
  intro i hi hm
  rw [commandWord_getLsbD _ _ _ i hi]
  by_cases h : i < 32
  · rw [if_pos h]; interval_cases i <;> rfl
  · rw [if_neg h]
    by_cases h' : i < 40
    · interval_cases i <;> exact absurd hm (by decide)
    · rw [if_neg h']; interval_cases i <;> rfl

theorem tokenInternal : Statement .tokenInternal := by unfold Statement; decide
theorem tokenLeaf (sym : Byte) : Statement (.tokenLeaf sym) := rfl
theorem lengthHeader (n : Word32) : Statement (.lengthHeader n) := rfl

end Sys2Proof.Laws.EncodingIsLegal
end

