-- ==== Sys2Proof/Laws/Refusals.lean ====
section
/-! SUPPORT. When a piece of pseudocode is refused (60_exceptions.md R215): the refusals each sub-operation can give, and
how many bytes have been moved by then (40_bit_packer.md R107, 41_bit_unpacker.md R120). -/

namespace Sys2Proof.Machine

/-- What a piece of pseudocode leaves: `P` of the value and state when it runs on, `R` of the reason and state when it is
refused; nothing is said of a status that it ends the command with. -/
def Flow.Stops {α : Type} (P : α → State → Prop) (R : Refusal → State → Prop) : Flow α → Prop
  | .ret a s => P a s
  | .raise _ _ => True
  | .refuse r s => R r s

@[simp] theorem Flow.stops_ret {α : Type} (P : α → State → Prop) (R : Refusal → State → Prop) (a : α) (s : State) :
    (Flow.ret a s).Stops P R ↔ P a s := Iff.rfl
@[simp] theorem Flow.stops_raise {α : Type} (P : α → State → Prop) (R : Refusal → State → Prop) (e : Status)
    (s : State) : (Flow.raise e s : Flow α).Stops P R ↔ True := Iff.rfl
@[simp] theorem Flow.stops_refuse {α : Type} (P : α → State → Prop) (R : Refusal → State → Prop) (r : Refusal)
    (s : State) : (Flow.refuse r s : Flow α).Stops P R ↔ R r s := Iff.rfl

theorem Flow.Stops.bind {α β : Type} {P : α → State → Prop} {P' : β → State → Prop} {R : Refusal → State → Prop}
    {x : Flow α} {f : α → State → Flow β} (hx : x.Stops P R) (hf : ∀ a s, P a s → (f a s).Stops P' R) :
    (x.bind f).Stops P' R := by
  cases x with
  | ret a s => exact hf a s hx
  | raise e s => trivial
  | refuse r s => exact hx

theorem Flow.Stops.mono {α : Type} {P P' : α → State → Prop} {R R' : Refusal → State → Prop} {x : Flow α}
    (hx : x.Stops P R) (hP : ∀ a s, P a s → P' a s) (hR : ∀ r s, R r s → R' r s) : x.Stops P' R' := by
  cases x with
  | ret a s => exact hP a s hx
  | raise e s => trivial
  | refuse r s => exact hR r s hx

/-- A command is refused exactly when its pseudocode comes to a line that is. -/
theorem Flow.Stops.refused {P : Value → State → Prop} {R : Refusal → State → Prop} {x : Flow Value} {r : Refusal}
    (hx : x.Stops P R) (h : x.finish = .refused r) : ∃ t, R r t := by
  cases x with
  | ret a s => cases h
  | raise e s => cases h
  | refuse q s => cases h; exact ⟨s, hx⟩

/-! ## The write channel -/

/-- A packer's command is refused because its channel is IDLE, or because fewer than `k` bytes filled its counter. -/
def PackerRefusal (s : State) (k : Nat) (r : Refusal) : Prop :=
  (r = .writeChannelIdle ∧ s.bpStatus = .idle) ∨
  (r = .byteCounterFull ∧ s.bpStatus = .opened ∧ s.params.counterMax < s.bpBytes + k)

theorem bpWritable_stops (s : State) :
    (bpWritable s).Stops (fun _ t => t = s ∧ s.bpStatus = .opened)
      (fun r _ => r = .writeChannelIdle ∧ s.bpStatus = .idle) := by
  unfold bpWritable; split <;> simp_all

theorem bpFlush_stops (s : State) :
    (bpFlush s).Stops (fun _ t => t = flushed s ∧ s.bpBytes < s.params.counterMax)
      (fun r _ => r = .byteCounterFull ∧ s.params.counterMax ≤ s.bpBytes) := by
  cases h : bpFlush s with
  | ret a t => exact bpFlush_ret h
  | raise e t => trivial
  | refuse r t =>
    unfold bpFlush at h
    split at h
    · rename_i hc
      cases h
      exact ⟨rfl, by simpa [State.bpCounterFull] using hc⟩
    · rcases s.sinkWrite_cases s.bpBuf with hw | ⟨l, hw⟩ <;> rw [hw] at h <;> cases h

/-- The count and the room in the buffer after `k` bits of a run: every bit takes one place, and a flush gives eight
back for one byte. -/
structure BitsIn (s t : State) (k : Nat) : Prop where
  status : t.bpStatus = s.bpStatus
  params : t.params = s.params
  places : 8 * t.bpBytes + s.bpFree = 8 * s.bpBytes + t.bpFree + k
  room : t.bpFree ≤ 7 ∨ t.bpFree ≤ s.bpFree

theorem BitsIn.refl (s : State) : BitsIn s s 0 := ⟨rfl, rfl, rfl, .inr (Nat.le_refl _)⟩

theorem BitsIn.trans {s t u : State} {j k : Nat} (h : BitsIn s t j) (g : BitsIn t u k) : BitsIn s u (j + k) := by
  have := h.places
  have := g.places
  have := h.room
  have := g.room
  exact ⟨g.status.trans h.status, g.params.trans h.params, by omega, by omega⟩

theorem BitsIn.bytes {s t : State} {k : Nat} (h : BitsIn s t k) : t.bpBytes ≤ s.bpBytes + (k + 7) / 8 := by
  have := h.places
  have := h.room
  omega

theorem writeBit_stops (b : Bool) {s : State} (ho : s.bpStatus = .opened) :
    (writeBit b s).Stops (fun _ t => BitsIn s t 1)
      (fun r _ => r = .byteCounterFull ∧ s.bpFree = 0 ∧ s.params.counterMax ≤ s.bpBytes) := by
  by_cases hf : s.bpFree = 0
  · rw [writeBit_full b ho hf]
    refine ((bpFlush_stops s).mono (fun _ _ h => h) (fun _ _ h => ⟨h.1, hf, h.2⟩)).bind fun _ t ht => ?_
    rw [ht.1]
    exact ⟨rfl, rfl, by simp [insertBit, flushed, hf]; omega, .inl (by simp [insertBit, flushed])⟩
  · rw [writeBit_room b ho hf]
    exact ⟨rfl, rfl, by simp [insertBit]; omega, .inr (by simp [insertBit])⟩

/-- A run of `k` bits on an OPEN channel is refused only where the bytes it moves, at most one for eight bits, fill the
counter. -/
theorem writeBits_stops (bits : Bits) {s : State} (ho : s.bpStatus = .opened) :
    (writeBits bits s).Stops (fun _ t => BitsIn s t bits.length)
      (fun r _ => r = .byteCounterFull ∧ 8 * s.params.counterMax + s.bpFree + 1 ≤ 8 * s.bpBytes + bits.length) := by
  induction bits generalizing s with
  | nil => exact BitsIn.refl s
  | cons b bs ih =>
    refine ((writeBit_stops b ho).mono (fun _ _ h => h) (fun _ _ h => ⟨h.1, by simp; omega⟩)).bind fun _ t ht => ?_
    refine (ih (ht.status.trans ho)).mono (fun _ u hu => ?_) (fun _ _ h => ⟨h.1, ?_⟩)
    · rw [List.length_cons, Nat.add_comm]; exact ht.trans hu
    · have := ht.places
      have := h.2
      rw [ht.params] at this
      simp; omega

theorem writeByte_stops (b : Byte) (s : State) :
    (writeByte b s).Stops (fun _ t => t.bpBytes = s.bpBytes + 1 ∧ t.params = s.params ∧ t.bpStatus = s.bpStatus)
      (fun r _ => r = .byteCounterFull ∧ s.params.counterMax ≤ s.bpBytes) := by
  unfold writeByte
  split
  · rename_i hc; exact ⟨rfl, by simpa [State.bpCounterFull] using hc⟩
  · rcases s.sinkWrite_cases b with hw | ⟨l, hw⟩ <;> rw [hw]
    · exact ⟨rfl, rfl, rfl⟩
    · trivial

theorem writeBytes_stops (bytes : List Byte) (s : State) :
    (writeBytes bytes s).Stops
      (fun _ t => t.bpBytes = s.bpBytes + bytes.length ∧ t.params = s.params ∧ t.bpStatus = s.bpStatus)
      (fun r _ => r = .byteCounterFull ∧ s.params.counterMax < s.bpBytes + bytes.length) := by
  induction bytes generalizing s with
  | nil => exact ⟨rfl, rfl, rfl⟩
  | cons b bs ih =>
    refine ((writeByte_stops b s).mono (fun _ _ h => h) (fun _ _ h => ⟨h.1, by simp; omega⟩)).bind fun _ t ht => ?_
    refine (ih t).mono (fun _ u hu => ⟨?_, hu.2.1.trans ht.2.1, hu.2.2.trans ht.2.2⟩) (fun _ _ h => ⟨h.1, ?_⟩)
    · rw [hu.1, ht.1, List.length_cons]; omega
    · have := h.2
      rw [ht.2.1, ht.1] at this
      simp; omega

/-- A length on an OPEN channel moves at most five bytes, and leaves no bit in the buffer. -/
theorem writeLength_stops (n : Word32) {s : State} (ho : s.bpStatus = .opened) :
    (writeLength n s).Stops
      (fun _ t => t.bpBytes ≤ s.bpBytes + 5 ∧ t.params = s.params ∧ t.bpStatus = .opened)
      (fun r _ => r = .byteCounterFull ∧ s.params.counterMax < s.bpBytes + 5) := by
  unfold writeLength
  refine ((bpWritable_stops s).mono (fun _ _ h => h)
    (fun _ _ h => by rw [ho] at h; exact absurd h.2 (by decide))).bind fun _ t ht => ?_
  rw [ht.1]
  refine Flow.Stops.bind
    (P := fun _ u => u.bpBytes ≤ s.bpBytes + 1 ∧ u.params = s.params ∧ u.bpStatus = s.bpStatus) ?_ fun _ u hu => ?_
  · split
    · exact (bpFlush_stops s).mono (fun _ u hu => by rw [hu.1]; exact ⟨Nat.le_refl _, rfl, rfl⟩)
        (fun _ _ h => ⟨h.1, by omega⟩)
    · exact ⟨by omega, rfl, rfl⟩
  · refine (writeBytes_stops (be32 n) u).mono
      (fun _ v hv => ⟨?_, hv.2.1.trans hu.2.1, (hv.2.2.trans hu.2.2).trans ho⟩) (fun _ _ h => ⟨h.1, ?_⟩)
    · rw [hv.1]; simp [be32]; omega
    · have := h.2
      rw [hu.2.1] at this
      simp [be32] at this; omega

/-- BP_CLOSE moves at most one byte. -/
theorem bpClose_stops (s : State) : (bpClose s).Stops (fun _ _ => True) (fun r _ => PackerRefusal s 1 r) := by
  unfold bpClose
  split
  · rename_i h; exact .inl ⟨rfl, h⟩
  · trivial
  · rename_i ho
    refine Flow.Stops.bind (P := fun _ _ => True) ?_ fun _ t _ => ?_
    · unfold closeLastByte
      split
      · split
        · rename_i hc
          exact .inr ⟨rfl, ho, by have : s.params.counterMax ≤ s.bpBytes := by simpa [State.bpCounterFull] using hc
                                  omega⟩
        · rcases s.sinkWrite_cases s.bpBuf with hw | ⟨l, hw⟩ <;> rw [hw] <;> trivial
      · trivial
    · unfold closeStorage
      rcases t.sinkFlush_cases with hw | ⟨d, hw⟩ <;> rw [hw] <;> trivial

/-! ## The read channel -/

/-- Reading moves bytes from those not yet taken to the count, and keeps the channel's status. -/
structure Moved (s t : State) : Prop where
  status : t.buStatus = s.buStatus
  params : t.params = s.params
  total : t.buBytes + t.untaken.length = s.buBytes + s.untaken.length

theorem Moved.refl (s : State) : Moved s s := ⟨rfl, rfl, rfl⟩

theorem Moved.trans {s t u : State} (h : Moved s t) (g : Moved t u) : Moved s u :=
  ⟨g.status.trans h.status, g.params.trans h.params, g.total.trans h.total⟩

/-- A read is refused because its channel is IDLE, or because the bytes taken so far have filled the counter. -/
def ReaderRefusal (s : State) (r : Refusal) : Prop :=
  (r = .readChannelIdle ∧ s.buStatus = .idle) ∨
  (r = .byteCounterFull ∧ s.buStatus = .opened ∧ s.params.counterMax ≤ s.buBytes + s.untaken.length)

theorem ReaderRefusal.of_moved {s t : State} {r : Refusal} (h : Moved s t) (hr : ReaderRefusal t r) :
    ReaderRefusal s r := by
  rcases hr with ⟨h1, h2⟩ | ⟨h1, h2, h3⟩
  · exact .inl ⟨h1, h.status ▸ h2⟩
  · have := h.total
    rw [h.params] at h3
    exact .inr ⟨h1, h.status ▸ h2, by omega⟩

/-- Two lines that each only read are refused as one read is. -/
theorem Flow.Stops.reader {α β : Type} {s : State} {x : Flow α} {f : α → State → Flow β}
    (hx : x.Stops (fun _ t => Moved s t) (fun r _ => ReaderRefusal s r))
    (hf : ∀ a t, (f a t).Stops (fun _ u => Moved t u) (fun r _ => ReaderRefusal t r)) :
    (x.bind f).Stops (fun _ t => Moved s t) (fun r _ => ReaderRefusal s r) :=
  hx.bind fun a t ht => (hf a t).mono (fun _ _ h => ht.trans h) (fun _ _ h => .of_moved ht h)

theorem untaken_srcRead {s : State} {b : Byte} (h : s.src.data[s.src.pos]? = some b) :
    s.untaken.length = (s.src.data.drop (s.src.pos + 1)).length + 1 := by
  have := (List.getElem?_eq_some_iff.mp h).1
  simp [State.untaken]; omega

/-- BU_READ_BIT is refused in IDLE, or before a fetch that the counter has no room for. -/
theorem readBit_stops (s : State) :
    (readBit s).Stops (fun _ t => Moved s t)
      (fun r _ => (r = .readChannelIdle ∧ s.buStatus = .idle) ∨
        (r = .byteCounterFull ∧ s.buStatus = .opened ∧ s.params.counterMax ≤ s.buBytes)) := by
  unfold readBit buReadable
  split
  · rename_i h; exact .inl ⟨rfl, h⟩
  · rename_i ho
    rw [Flow.bind_ret]
    refine Flow.Stops.bind (P := fun _ t => Moved s t) ?_ fun more t ht => ?_
    · split
      · unfold fetchByte
        split
        · rename_i hc; exact .inr ⟨rfl, ho, by simpa [State.buCounterFull] using hc⟩
        · rcases s.srcRead_cases with ⟨r, hb, hw⟩ | ⟨_, hw⟩ <;> rw [hw]
          · refine ⟨rfl, rfl, ?_⟩
            have := untaken_srcRead hb
            simp [State.untaken] at this ⊢; omega
          · exact Moved.refl s
      · exact Moved.refl s
    · split
      · exact ⟨ht.status, ht.params, ht.total⟩
      · exact ht

theorem readBit_reader (s : State) : (readBit s).Stops (fun _ t => Moved s t) (fun r _ => ReaderRefusal s r) :=
  (readBit_stops s).mono (fun _ _ h => h) fun _ _ h => h.imp id fun h => ⟨h.1, h.2.1, by omega⟩

theorem takeLengthBytes_stops (k : Nat) (n : Word32) {s : State} (ho : s.buStatus = .opened) :
    (takeLengthBytes k n s).Stops (fun _ t => Moved s t)
      (fun r _ => r = .byteCounterFull ∧ s.params.counterMax < s.buBytes + k ∧
        s.params.counterMax ≤ s.buBytes + s.untaken.length) := by
  induction k generalizing n s with
  | zero => exact Moved.refl s
  | succ k ih =>
    unfold takeLengthBytes
    split
    · rename_i hc
      have : s.params.counterMax ≤ s.buBytes := by simpa [State.buCounterFull] using hc
      exact ⟨rfl, by omega, by omega⟩
    · rcases s.srcRead_cases with ⟨r, hb, hw⟩ | ⟨_, hw⟩ <;> rw [hw]
      · have hu := untaken_srcRead hb
        refine (ih (appendByte n r)
            (s := (s.setSrc ⟨s.src.data, s.src.pos + 1, s.src.attached⟩).setBuBytes (s.buBytes + 1)) ho).mono
          (fun _ t ht => ⟨ht.status, ht.params, ?_⟩) (fun _ _ h => ⟨h.1, ?_⟩)
        · have := ht.total
          simp [State.untaken] at this hu ⊢; omega
        · have := h.2
          simp [State.untaken] at this hu ⊢; omega
      · trivial

/-- BU_READ_LENGTH moves at most four bytes. -/
theorem readLength_stops (s : State) :
    (readLength s).Stops (fun _ t => Moved s t)
      (fun r _ => ReaderRefusal s r ∧ (r = .byteCounterFull → s.params.counterMax < s.buBytes + 4)) := by
  unfold readLength buReadable
  split
  · rename_i h; exact ⟨.inl ⟨rfl, h⟩, fun h => by cases h⟩
  · rename_i ho
    rw [Flow.bind_ret]
    exact (takeLengthBytes_stops 4 0 (s := s.setBuBuffer 0 0) ho).mono
      (fun _ t ht => ⟨ht.status, ht.params, ht.total⟩) fun _ _ h => ⟨.inr ⟨h.1, ho, h.2.2⟩, fun _ => h.2.1⟩

theorem readSymbol_stops (k : Nat) (acc : Byte) (s : State) :
    (readSymbol k acc s).Stops (fun _ t => Moved s t) (fun r _ => ReaderRefusal s r) := by
  induction k generalizing acc s with
  | zero => exact Moved.refl s
  | succ k ih =>
    refine (readBit_reader s).reader fun r t => ?_
    cases r with
    | none => trivial
    | some b => exact ih _ t

theorem parse_stops_reader (fuel count : Nat) (s : State) :
    (parse fuel count s).Stops (fun _ t => Moved s t) (fun r _ => ReaderRefusal s r) := by
  induction fuel generalizing count s with
  | zero => trivial
  | succ fuel ih =>
    refine (readBit_reader s).reader fun r t => ?_
    cases r with
    | none => trivial
    | some tag =>
      dsimp only
      split
      · trivial
      · split
        · exact (readSymbol_stops 8 0 t).reader fun _ u => Moved.refl u
        · exact (ih _ t).reader fun l u => (ih _ u).reader fun _ v => Moved.refl v

theorem deserialize_stops (s : State) :
    (deserialize s).Stops (fun _ t => Moved s t) (fun r _ => ReaderRefusal s r) := by
  unfold deserialize buReadable
  split
  · rename_i h; exact .inl ⟨rfl, h⟩
  · rw [Flow.bind_ret]
    have h := parse_stops_reader (s.params.maxNodes + 1) 0 (s.setTree none).clearCode
    exact Flow.Stops.bind (P := fun _ t => Moved s t)
      (h.mono (fun _ t ht => ⟨ht.status, ht.params, ht.total⟩)
        fun _ _ hr => ReaderRefusal.of_moved (s := s) ⟨rfl, rfl, rfl⟩ hr)
      fun _ t ht => ⟨ht.status, ht.params, ht.total⟩

theorem decodeOne_stops (t : Tree) (s : State) :
    (decodeOne t s).Stops (fun _ u => Moved s u) (fun r _ => ReaderRefusal s r) := by
  induction t generalizing s with
  | leaf sym => exact Moved.refl s
  | internal l r ihl ihr =>
    refine (readBit_reader s).reader fun b u => ?_
    match b with
    | none => trivial
    | some false => exact ihl u
    | some true => exact ihr u

theorem decodeSymbols_stops (t : Tree) (k : Nat) (s : State) :
    (decodeSymbols t k s).Stops (fun _ u => Moved s u) (fun r _ => ReaderRefusal s r) := by
  induction k generalizing s with
  | zero => exact Moved.refl s
  | succ k ih =>
    refine (decodeOne_stops t s).reader fun sym u => ?_
    rcases u.rawOutWrite_cases sym with h | ⟨l, h⟩ <;> rw [h]
    · refine (ih _).mono (fun _ v hv => ⟨hv.status, hv.params, hv.total⟩) fun _ _ hr => ?_
      exact ReaderRefusal.of_moved (s := u) ⟨rfl, rfl, rfl⟩ hr
    · trivial

/-- HD_DECOMPRESS is refused in IDLE, or where all of SRC that is left fills the counter. -/
theorem decompress_stops (s : State) :
    (decompress s).Stops (fun _ t => Moved s t) (fun r _ => ReaderRefusal s r) :=
  (deserialize_stops s).reader fun t u =>
    Flow.Stops.reader ((readLength_stops u).mono (fun _ _ h => h) fun _ _ h => h.1) fun n v =>
      (decodeSymbols_stops t n.toNat (v.setHdRemaining n)).mono (fun _ _ h => ⟨h.status, h.params, h.total⟩)
        fun _ _ hr => ReaderRefusal.of_moved (s := v) ⟨rfl, rfl, rfl⟩ hr

end Sys2Proof.Machine
end

