-- ==== Sys2Proof/Tests/Slice0.lean ====
section
/-! SUPPORT. Tests, with expected results from 95_test_vectors.md and the worked examples of the rules, and the
witnesses of the obligations' hypotheses. -/

namespace Sys2Proof.Machine.Tests

/-! ## Small states -/

/-- A host whose storage never fails. -/
def good : HostScript := ⟨[], some .ok, 0⟩

/-- The reset state with that host. -/
def plain : State := { State.reset with host := good }

/-- An OPEN write channel. -/
def writing (buf : Byte) (free bytes : Nat) (data : List Byte) : State :=
  { plain with bpStatus := .opened, bpBuf := buf, bpFree := free, bpBytes := bytes, sink := ⟨data, true, false⟩ }

/-- A fresh read channel on `data`. -/
def reading (data : List Byte) : State := { plain with buStatus := .opened, src := ⟨data, 0, true⟩ }

/-- A fresh write channel with the input `data`. -/
def input (data : List Byte) : State := { writing 0 8 0 [] with rawIn := ⟨data, 0⟩ }

/-- A frequency table from its non-zero entries (`TS_FREQ_LOAD`, 30_encoding.md R76). -/
def load (entries : List (Byte × Word32)) : Vector Word32 256 :=
  entries.foldl (fun v e => v.set e.1.toNat e.2 e.1.isLt) (Vector.replicate 256 0)

/-- The instruction ends in a next state with the property. -/
def ran (i : Instr) (s : State) (p : State → Bool) : Bool :=
  match exec i s with
  | .next t => p t
  | .fault _ => false
  | .refused _ => false

/-- The instruction is refused for the reason. -/
def refusedWith (i : Instr) (s : State) (r : Refusal) : Bool :=
  match exec i s with
  | .next _ => false
  | .fault _ => false
  | .refused q => q == r

/-- The step ends in a next state with the property. -/
def stepped (s : State) (p : State → Bool) : Bool :=
  match step s with
  | .next t => p t
  | .fault _ => false
  | .refused _ => false

/-- The state's last result. -/
def gave (t : State) (e : Status) (v : Value) : Bool := t.result == some ⟨e, v⟩

theorem ran_next {i : Instr} {s : State} {p : State → Bool} (h : ran i s p = true) :
    ∃ t, exec i s = .next t ∧ p t = true := by
  unfold ran at h
  split at h
  · exact ⟨_, by assumption, h⟩
  · cases h
  · cases h

/-! ## Decoding: the words of V80, and V81 -/

theorem test_decode_bp :
    decode (.command 0x100000000000) = .ok .bpOpen ∧ decode (.command 0x110000000000) = .ok (.bpWriteBit false) ∧
    decode (.command 0x110100000000) = .ok (.bpWriteBit true) ∧
    decode (.command 0x12000000000B) = .ok (.bpWriteLength 11) ∧
    decode (.command 0x1200FFFFFFFF) = .ok (.bpWriteLength 0xFFFFFFFF) ∧
    decode (.command 0x130000000000) = .ok .bpBytes ∧ decode (.command 0x140000000000) = .ok .bpClose := by decide

theorem test_decode_bu :
    decode (.command 0x200000000000) = .ok .buOpen ∧ decode (.command 0x210000000000) = .ok .buReadBit ∧
    decode (.command 0x220000000000) = .ok .buReadLength ∧ decode (.command 0x230000000000) = .ok .buBytes ∧
    decode (.command 0x240000000000) = .ok .buClose := by decide

theorem test_decode_ts :
    decode (.command 0x300000000000) = .ok .tsBuild ∧ decode (.command 0x310000000000) = .ok .tsSerialize ∧
    decode (.command 0x320000000000) = .ok .tsDeserialize ∧ decode (.command 0x330000000000) = .ok .tsSize ∧
    decode (.command 0x340000000000) = .ok .tsCodetable ∧ decode (.command 0x350000000000) = .ok .tsFreqClear ∧
    decode (.command 0x366100000005) = .ok (.tsFreqSet 0x61 5) ∧
    decode (.command 0x376200000000) = .ok (.tsCodeGet 0x62) := by decide

theorem test_decode_codec :
    decode (.command 0x400000000000) = .ok .heCompress ∧ decode (.command 0x500000000000) = .ok .hdDecompress := by
  decide

/-- R81 to R83: the token `0`, the token of symbol 0x61 (`1 01100001`, R144's example), the header of 11. -/
theorem test_decode_stream :
    decode (.treeToken [false]) = .ok .tokenInternal ∧
    decode (.treeToken [true, false, true, true, false, false, false, false, true]) = .ok (.tokenLeaf 0x61) ∧
    decode (.header 0x0000000B) = .ok (.lengthHeader 11) := by decide

/-- The opcode table's rows as numbers: 48 bits, then 1, 9 and 32 bits rounded up to whole bytes. -/
theorem test_decodeTableWord :
    decodeTableWord 48 0x366100000005 = some (.tsFreqSet 0x61 5) ∧
    decodeTableWord 8 0 = some .tokenInternal ∧ decodeTableWord 16 0x161 = some (.tokenLeaf 0x61) ∧
    decodeTableWord 32 11 = some (.lengthHeader 11) ∧ decodeTableWord 48 0x150000000000 = none := by decide

/-- V81: reserved words, each refused by its name. -/
theorem test_reserved_words :
    decode (.command 0x000000000000) = .error .reservedOpcode ∧
    decode (.command 0x150000000000) = .error .reservedOpcode ∧
    decode (.command 0x380000000000) = .error .reservedOpcode ∧
    decode (.command 0x410000000000) = .error .reservedOpcode ∧
    decode (.command 0xFFFFFFFFFFFF) = .error .reservedOpcode ∧
    decode (.command 0x110200000000) = .error .reservedOperandBits ∧
    decode (.command 0x110100000001) = .error .reservedOperandBits ∧
    decode (.command 0x12010000000B) = .error .reservedOperandBits ∧
    decode (.command 0x376200000001) = .error .reservedOperandBits ∧
    decode (.command 0x100000000001) = .error .reservedOperandBits := by decide

theorem test_no_token :
    decode (.treeToken []) = .error .noToken ∧ decode (.treeToken [false, false]) = .error .noToken ∧
    decode (.treeToken [true, false]) = .error .noToken := by decide

/-- The smoke test of WellFormed.lean: an ill-formed word for each kind of reserved bits (V81), and ill-formed
tokens, are not legal. -/
theorem test_wellFormed_refuses :
    legalWord 0x150000000000 = false ∧ legalWord 0x110200000000 = false ∧ legalWord 0x110100000001 = false ∧
    legalWord 0x12010000000B = false ∧ legalWord 0x376200000001 = false ∧ legalWord 0x100000000001 = false ∧
    legalToken [] = false ∧ legalToken [false, false] = false ∧ legalToken [true, false] = false ∧
    (Item.command 0x150000000000).legal = false := by decide

theorem test_wellFormed_accepts :
    legalWord 0x110100000000 = true ∧ legalWord 0x1200FFFFFFFF = true ∧ legalWord 0x36FFFFFFFFFF = true ∧
    legalWord 0x37FF00000000 = true ∧ (Item.header 0xFFFFFFFF).legal = true := by decide

/-- No word belongs to two rows of the opcode table: two rows differ in a bit that both fix. -/
theorem test_rows_disjoint :
    commandRows.Pairwise (fun a b => a.mask &&& b.mask &&& (a.pattern ^^^ b.pattern) ≠ 0) := by decide

/-- A step runs what `withFetchWord` places: BP_BYTES from reset (V19), and the reserved word of V81. -/
theorem test_withFetchWord :
    stepped (State.reset.withFetchWord 48 0x130000000000) (fun t => gave t .ok (.count 0)) = true ∧
    (∃ r, step (State.reset.withFetchWord 48 0x150000000000) = .refused (.reservedEncoding r)) :=
  ⟨by decide, .reservedOpcode, rfl⟩

/-! ## bit_packer -/

/-- V1 step 0. -/
theorem test_bpOpen : ran .bpOpen plain (fun t => gave t .ok .none && t.bpStatus == .opened && t.bpFree == 8
    && t.sink == ⟨[], true, false⟩) = true := by decide

/-- V19: a failing open leaves the channel IDLE; a second BP_OPEN is refused. -/
theorem test_bpOpen_fails :
    ran .bpOpen { plain with host := ⟨[.fail [] false], some .ok, 0⟩ } (fun t => gave t .openFailure .none
      && t.bpStatus == .idle) = true ∧
    refusedWith .bpOpen (writing 0 8 0 []) .writeChannelInUse = true := by decide

/-- V1 step 4: a bit in the middle of a byte; V10: the ninth bit flushes the full byte first. -/
theorem test_bpWriteBit :
    ran (.bpWriteBit true) (writing 0b11000000 5 0 []) (fun t => gave t .ok (.bit true) && t.bpBuf == 0b11010000
      && t.bpFree == 4 && t.sink.data == []) = true ∧
    ran (.bpWriteBit true) (writing 0b10101010 0 0 []) (fun t => gave t .ok (.bit true) && t.bpBuf == 0b10000000
      && t.bpFree == 7 && t.bpBytes == 1 && t.sink.data == [0xAA]) = true := by decide

/-- V16: a failing flush records no bit and marks the channel FAILED; V19: an IDLE channel is refused. -/
theorem test_bpWriteBit_fails :
    ran (.bpWriteBit false) { writing 0xFF 0 0 [] with host := ⟨[.fail [1] true], some .ok, 0⟩ } (fun t =>
      gave t .writeFailure .none && t.bpStatus == .failed && t.bpBuf == 0xFF && t.bpFree == 0 && t.bpBytes == 0) = true ∧
    refusedWith (.bpWriteBit false) plain .writeChannelIdle = true := by decide

/-- V13: the partial byte goes first; R103's example too. -/
theorem test_bpWriteLength :
    ran (.bpWriteLength 0x01020304) (writing 0b10100000 5 0 []) (fun t => gave t .ok .none
      && t.sink.data == [0xA0, 1, 2, 3, 4] && t.bpBytes == 5 && t.bpFree == 8 && t.bpBuf == 0) = true ∧
    ran (.bpWriteLength 4) (writing 0b01000000 5 2 [7, 7]) (fun t =>
      t.sink.data == [7, 7, 0x40, 0, 0, 0, 4] && t.bpBytes == 7) = true := by decide

/-- V17: the fourth write fails after `40 0A 0B`. -/
theorem test_bpWriteLength_fails :
    ran (.bpWriteLength 0x0A0B0C0D) { writing 0b01000000 6 0 [] with host := ⟨[.ok, .ok, .ok, .fail [] true], none, 0⟩ }
      (fun t => gave t .writeFailure .none && t.bpBytes == 3 && t.bpFree == 8 && t.bpBuf == 0
        && t.bpStatus == .failed) = true := by decide

/-- V1 steps 6 and 8: legal in every status. -/
theorem test_bpBytes :
    ran .bpBytes (writing 0b11010000 3 0 []) (fun t => gave t .ok (.count 0)) = true ∧
    ran .bpBytes { plain with bpBytes := 1 } (fun t => gave t .ok (.count 1)) = true := by decide

/-- V1 step 7 and V12: the last byte, and no byte for an empty channel. -/
theorem test_bpClose :
    ran .bpClose (writing 0b11010000 3 0 []) (fun t => gave t .ok .none && t.sink == ⟨[0xD0], false, true⟩
      && t.bpBytes == 1 && t.bpStatus == .idle) = true ∧
    ran .bpClose (writing 0 8 0 []) (fun t => t.sink == ⟨[], false, true⟩ && t.bpBytes == 0) = true := by decide

/-- V18: a failing flush still releases the channel; V16: so does the close of a FAILED one. -/
theorem test_bpClose_fails :
    ran .bpClose { writing 0x80 7 0 [] with host := ⟨[.ok, .fail [] false], none, 0⟩ } (fun t =>
      gave t .writeFailure .none && t.sink == ⟨[0x80], false, false⟩ && t.bpBytes == 1 && t.bpStatus == .idle) = true ∧
    ran .bpClose { writing 0xFF 0 0 [] with bpStatus := .failed } (fun t =>
      gave t .writeFailure .none && t.bpStatus == .idle && t.sink.attached == false) = true := by decide

/-- R107 with `CNT_W` = 1: the second byte is refused. -/
theorem test_counter_guard :
    refusedWith (.bpWriteBit true) { writing 0xAA 0 1 [1] with params := ⟨1, 511⟩ } .byteCounterFull = true ∧
    ran (.bpWriteBit true) { writing 0xAA 0 0 [] with params := ⟨1, 511⟩ } (fun t => t.bpBytes == 1) = true := by
  decide

/-! ## bit_unpacker -/

/-- R121: a fresh channel; V26: a second BU_OPEN is refused. -/
theorem test_buOpen :
    ran .buOpen { plain with src := ⟨[0xD0], 1, false⟩ } (fun t => gave t .ok .none && t.buStatus == .opened
      && t.src == ⟨[0xD0], 0, true⟩ && t.buAvail == 0) = true ∧
    refusedWith .buOpen (reading []) .readChannelInUse = true := by decide

/-- V21: the first bit fetches a byte; V22: an empty stream answers `EndOfData`. -/
theorem test_buReadBit :
    ran .buReadBit (reading [0xAA, 0x80]) (fun t => gave t .ok (.bit true) && t.buBytes == 1 && t.buAvail == 7
      && t.buBuf == 0b01010100) = true ∧
    ran .buReadBit (reading []) (fun t => gave t .endOfData .none && t.buBytes == 0) = true := by decide

/-- V23: the unread bits are dropped; V24: a truncated header takes its bytes. -/
theorem test_buReadLength :
    ran .buReadLength { reading [0xA0, 1, 2, 3, 4, 0xC0] with
        buAvail := 5, buBytes := 1, src := ⟨[0xA0, 1, 2, 3, 4, 0xC0], 1, true⟩ }
      (fun t => gave t .ok (.length 0x01020304) && t.buAvail == 0 && t.buBuf == 0 && t.buBytes == 5) = true ∧
    ran .buReadLength (reading [0, 0, 1]) (fun t => gave t .truncatedStream .none && t.buBytes == 3) = true := by
  decide

/-- V26: from reset BU_BYTES answers, and the other commands of the unit are refused. -/
theorem test_buBytes :
    ran .buBytes State.reset (fun t => gave t .ok (.count 0)) = true ∧
    refusedWith .buReadBit State.reset .readChannelIdle = true ∧
    refusedWith .hdDecompress State.reset .readChannelIdle = true := by decide

/-- V26: BU_CLOSE keeps `bu_bytes`; in IDLE it is refused. -/
theorem test_buClose :
    ran .buClose { reading [0xD0] with buBytes := 1 } (fun t => gave t .ok .none && t.buStatus == .idle
      && t.buBytes == 1 && t.src.attached == false) = true ∧
    refusedWith .buClose plain .readChannelIdle = true := by decide

/-! ## canonical_tree_serializer -/

/-- V32's frequencies (R144's worked example) and its tree. -/
def abraFreq : Vector Word32 256 := load [(0x61, 5), (0x62, 2), (0x63, 1), (0x64, 1), (0x72, 2)]
def abraTree : Tree :=
  .internal (.leaf 0x61) (.internal (.internal (.leaf 0x63) (.leaf 0x64)) (.internal (.leaf 0x62) (.leaf 0x72)))

/-- R141. -/
theorem test_tsFreqClear :
    ran .tsFreqClear { plain with freq := load [(0x61, 5)] } (fun t => gave t .ok .none && t.freqAt 0x61 == 0) = true := by
  decide +kernel

/-- R142's example; the neighbour is untouched. -/
theorem test_tsFreqSet :
    ran (.tsFreqSet 0x61 5) plain (fun t => t.freqAt 0x61 == 5 && t.freqAt 0x60 == 0) = true := by decide +kernel

/-- V32 and V59's tie-break, where the smaller count goes left. -/
theorem test_tsBuild :
    ran .tsBuild { plain with freq := abraFreq } (fun t => gave t .ok .none && t.tree == some abraTree) = true ∧
    ran .tsBuild { plain with freq := load [(0x61, 2), (0x62, 1)] } (fun t =>
      t.tree == some (.internal (.leaf 0x62) (.leaf 0x61))) = true := by decide +kernel

/-- V34 and R143's capacity test with `MAX_NODES` = 3. -/
theorem test_tsBuild_edges :
    ran .tsBuild plain (fun t => t.tree == some (.internal (.leaf 0) (.leaf 0))) = true ∧
    refusedWith .tsBuild { plain with freq := load [(1, 1), (2, 1), (3, 1)], params := ⟨64, 3⟩ }
      .treeStoreTooSmall = true := by decide +kernel

/-- V46: the bytes of V32's tree, the last bit still buffered; V47: refused without a tree. -/
theorem test_tsSerialize :
    ran .tsSerialize { writing 0 8 0 [] with tree := some abraTree } (fun t => gave t .ok .none
      && t.sink.data == [0x58, 0x4B, 0x1D, 0x91, 0x62, 0xB9] && t.bpBytes == 6 && t.bpFree == 7 && t.bpBuf == 0) = true ∧
    refusedWith .tsSerialize (writing 0 8 0 []) .noTree = true := by decide +kernel

/-- V43, rows 1 and 3. -/
theorem test_tsDeserialize :
    ran .tsDeserialize (reading [0x50, 0x68, 0x20]) (fun t => gave t .ok .none
      && t.tree == some (.internal (.leaf 0x41) (.leaf 0x41)) && t.buAvail == 5 && t.buBytes == 3) = true ∧
    ran .tsDeserialize (reading [0xA0, 0x80]) (fun t => t.tree == some (.leaf 0x41) && t.buAvail == 7) = true := by
  decide +kernel

/-- V44 (a) and V45: streams that end early, and a store of three nodes. -/
theorem test_tsDeserialize_fails :
    ran .tsDeserialize (reading [0x00]) (fun t => gave t .truncatedStream .none && t.tree == none) = true ∧
    ran .tsDeserialize (reading [0x50]) (fun t => gave t .malformedTree .none && t.tree == none) = true ∧
    ran .tsDeserialize { reading [0x20, 0x30, 0x18, 0x08] with params := ⟨64, 3⟩ } (fun t =>
      gave t .malformedTree .none) = true ∧
    ran .tsDeserialize { reading [0x40, 0x60, 0x40] with params := ⟨64, 3⟩ } (fun t => gave t .ok .none) = true := by
  decide +kernel

/-- V32: 49 bits; V47: refused without a tree. -/
theorem test_tsSize :
    ran .tsSize { plain with tree := some abraTree } (fun t => gave t .ok (.size 49)) = true ∧
    refusedWith .tsSize plain .noTree = true := by decide +kernel

/-- V32's codes. -/
theorem test_tsCodetable :
    ran .tsCodetable { plain with tree := some abraTree } (fun t => t.codeAt 0x61 == some [false]
      && t.codeAt 0x63 == some [true, false, false] && t.codeAt 0x62 == some [true, true, false]
      && t.codeAt 0x72 == some [true, true, true] && t.codeAt 0 == none) = true := by decide +kernel

/-- V42: the entry left-aligned in `MAX_DEPTH` bits (here 5, from `MAX_NODES` = 11). -/
theorem test_tsCodeGet :
    ran (.tsCodeGet 0x62) { plain with code := abraTree.codeTable, params := ⟨64, 11⟩ } (fun t =>
      gave t .ok (.code true 3 [true, true, false, false, false])) = true ∧
    ran (.tsCodeGet 0x00) { plain with code := abraTree.codeTable, params := ⟨64, 11⟩ } (fun t =>
      gave t .ok (.code false 0 [false, false, false, false, false])) = true := by decide +kernel

/-! ## huffman_encoder and huffman_decoder -/

def abra : List Byte := [0x61, 0x62, 0x72, 0x61, 0x63, 0x61, 0x64, 0x61, 0x62, 0x72, 0x61]
def abraFile : List Byte := [0x58, 0x4B, 0x1D, 0x91, 0x62, 0xB9, 0x00, 0x00, 0x00, 0x00, 0x0B, 0x6E, 0x8A, 0xDC]

/-- V52; and V71, where the tree follows the one bit that the channel has taken. -/
theorem test_heCompress :
    ran .heCompress (input abra) (fun t => gave t .ok .none && t.sink == ⟨abraFile, false, true⟩ && t.bpBytes == 14
      && t.heLen == 11 && t.bpStatus == .idle) = true ∧
    ran .heCompress { writing 0x80 7 0 [] with rawIn := ⟨[0x41, 0x42], 0⟩ } (fun t => gave t .ok .none
      && t.sink.data == [0xA8, 0x34, 0x20, 0, 0, 0, 2, 0x40]) = true := by decide +kernel

/-- V70, row `j` = 8, on the input of V51: the first header byte fails. -/
theorem test_heCompress_fails :
    ran .heCompress { input [0x41] with host := ⟨[.ok, .ok, .ok, .fail [] false], none, 0⟩ } (fun t =>
      gave t .writeFailure .none && t.bpStatus == .failed && t.bpBytes == 3) = true := by decide +kernel

/-- V60. -/
theorem test_hdDecompress :
    ran .hdDecompress (reading abraFile) (fun t => gave t .ok .none && t.rawOut == abra && t.hdRemaining == 0
      && t.buBytes == 14 && t.buAvail == 1) = true := by decide +kernel

/-- V64, V66 and V67: a single leaf, a symbol's second leaf, and a header larger than the data. V44 (b), rows 6, 7 and
12: no tree where the tree part fails, the tree where the header or a code word does. -/
theorem test_hdDecompress_edges :
    ran .hdDecompress (reading (abraFile.take 6)) (fun t => gave t .malformedTree .none && t.tree == none
      && t.buBytes == 6) = true ∧
    ran .hdDecompress (reading (abraFile.take 7)) (fun t => gave t .truncatedStream .none && t.tree == some abraTree
      && t.rawOut == [] && t.buBytes == 7) = true ∧
    ran .hdDecompress (reading (abraFile.take 12)) (fun t => gave t .truncatedStream .none && t.tree == some abraTree
      && t.rawOut == abra.take 4 && t.hdRemaining == 7 && t.buBytes == 12) = true ∧
    ran .hdDecompress (reading [0xA0, 0xFF, 0, 0, 0, 3]) (fun t => gave t .ok .none && t.rawOut == [0x41, 0x41, 0x41]
      && t.buBytes == 6 && t.buAvail == 0) = true ∧
    ran .hdDecompress (reading [0x50, 0x68, 0x3F, 0, 0, 0, 4, 0xF0]) (fun t => gave t .ok .none
      && t.rawOut == [0x41, 0x41, 0x41, 0x41] && t.buBytes == 8 && t.buAvail == 4) = true ∧
    ran .hdDecompress (reading [0x50, 0x68, 0x40, 0, 0, 0, 9, 0x40]) (fun t => gave t .truncatedStream .none
      && t.rawOut == [0x41, 0x42, 0x41, 0x41, 0x41, 0x41, 0x41, 0x41] && t.hdRemaining == 1) = true := by decide +kernel

/-! ## The stream items, emitted (log entry 5) -/

theorem test_tokenInternal :
    ran .tokenInternal (writing 0 8 0 []) (fun t => t.bpBuf == 0 && t.bpFree == 7) = true := by decide

/-- The first nine bits `1 01000001` of V43's stream `A0 80`. -/
theorem test_tokenLeaf :
    ran (.tokenLeaf 0x41) (writing 0 8 0 []) (fun t => t.sink.data == [0xA0] && t.bpBuf == 0x80 && t.bpFree == 7) = true := by
  decide

/-- V15: a full deferred byte goes first. -/
theorem test_lengthHeader :
    ran (.lengthHeader 5) (writing 0xFF 0 0 []) (fun t => t.sink.data == [0xFF, 0, 0, 0, 5] && t.bpBytes == 5) = true := by
  decide

/-! ## The host's moves -/

/-- R230: reset leaves the streams; R245: an attached SRC is not changed. -/
theorem test_host_moves :
    stepped { writing 0x80 7 2 [1, 2] with inbox := [.reset] } (fun t => t.bpStatus == .idle && t.bpBytes == 0
      && t.sink == ⟨[1, 2], true, false⟩) = true ∧
    (∃ r, step { reading [1] with inbox := [.presentSrc [2]] } = .refused r) ∧
    stepped { plain with inbox := [.presentRawIn [7], .reset] } (fun t => t.rawIn == ⟨[7], 0⟩
      && t.inbox == [.reset]) = true := ⟨by decide, ⟨_, rfl⟩, by decide⟩

/-- The step that a reset which cuts the command word `w` takes from `s`, with the streams the host names after it. -/
def cutting (s : State) (w : CmdWord) (c : Cut) : State := { s with inbox := [.resetDuring (.command w) c] }

/-- The step is refused as no move of the host. -/
def notAMove (s : State) : Bool :=
  match step s with
  | .next _ => false
  | .fault _ => false
  | .refused q => q == .notAHostMove

/-- BP_WRITE_LENGTH with a full counter after one byte (`CNT_W` = 1), or a storage that fails at its third byte. -/
def shortCounter : State := { writing 0 8 0 [] with params := ⟨1, 511⟩ }
def failsAtThird : State := { writing 0 8 0 [] with host := ⟨[.ok, .ok, .fail [0x7F] true], some .ok, 0⟩ }

/-- U8: some prefix of what the command appends; behind a failing write what the host has left; a cut ahead of the line
that R107 refuses. -/
theorem test_cut_points :
    stepped (cutting (writing 0 8 0 []) 0x1200DDCCBBAA ⟨⟨[0xDD, 0xCC], true, false⟩, ⟨[], 0, false⟩, ⟨[], 0⟩, []⟩)
      (fun t => t.sink.data == [0xDD, 0xCC] && t.bpBytes == 0 && t.bpStatus == .idle) = true ∧
    stepped (cutting failsAtThird 0x1200DDCCBBAA ⟨⟨[0x7F], true, false⟩, ⟨[], 0, false⟩, ⟨[], 0⟩, []⟩)
      (fun t => t.sink.data == [0x7F]) = true ∧
    stepped (cutting shortCounter 0x1200DDCCBBAA ⟨⟨[0xDD], true, false⟩, ⟨[], 0, false⟩, ⟨[], 0⟩, []⟩)
      (fun t => t.sink.data == [0xDD]) = true ∧
    stepped (cutting (reading [0x50, 0x68, 0x40, 0, 0, 0, 2, 0x40]) 0x500000000000
      ⟨⟨[], false, false⟩, ⟨[0x50, 0x68, 0x40, 0, 0, 0, 2, 0x40], 8, true⟩, ⟨[], 0⟩, [0x41]⟩)
      (fun t => t.rawOut == [0x41] && t.src.pos == 8) = true := by decide +kernel

/-- R48, R230: no cut touches a stream outside its command's row, drops or rewrites an appended byte, or takes `durable`
back: BU_READ_BIT, HD_DECOMPRESS behind a failing output, BP_CLOSE behind a failing flush, BP_WRITE_LENGTH. -/
theorem test_cut_refused :
    notAMove (cutting { reading [1] with sink := ⟨[9], false, true⟩ } 0x210000000000
      ⟨⟨[9], false, false⟩, ⟨[1], 1, true⟩, ⟨[], 0⟩, []⟩) = true ∧
    notAMove (cutting { reading [0x50, 0x68, 0x40, 0, 0, 0, 2, 0x40] with host := ⟨[.fail [7] true], some .ok, 0⟩ }
      0x500000000000 ⟨⟨[7], false, false⟩, ⟨[0x50, 0x68, 0x40, 0, 0, 0, 2, 0x40], 8, true⟩, ⟨[], 0⟩, [7]⟩) = true ∧
    notAMove (cutting { writing 0x80 7 0 [] with host := ⟨[.ok, .fail [7] true], some .ok, 0⟩ } 0x140000000000
      ⟨⟨[7], true, false⟩, ⟨[], 0, false⟩, ⟨[], 0⟩, []⟩) = true ∧
    notAMove (cutting failsAtThird 0x1200DDCCBBAA ⟨⟨[0xDD], true, false⟩, ⟨[], 0, false⟩, ⟨[], 0⟩, [7]⟩) = true ∧
    notAMove (cutting failsAtThird 0x1200DDCCBBAA ⟨⟨[0xDD, 0xCC, 0xBB], true, false⟩, ⟨[], 0, false⟩, ⟨[], 0⟩, []⟩) =
      true := by decide +kernel

/-- R201: the code column. -/
theorem test_status_codes :
    [Status.ok, .openFailure, .writeFailure, .truncatedStream, .malformedTree, .inputTooLong, .endOfData].map
      Status.code = [0, 1, 2, 3, 4, 5, 6] := by decide

/-! ## Witnesses: for each obligation with hypotheses, a state and operands that meet them, clause by clause -/

theorem good_neverFails : good.NeverFails := ⟨fun _ h => (nomatch h), rfl⟩

/-- A script that fails at its answer number `k`. -/
def failsAt (k : Nat) : HostScript := ⟨List.replicate k .ok ++ [.fail [0x7F] true], some .ok, 0⟩

theorem witness_EncodeInvertsDecode : decode (.command 0x366100000005) = .ok (.tsFreqSet 0x61 5) := by decide

theorem witness_LegalCommandWordsAreTheTable :
    legalWord 0x150000000000 = false ∧
    { plain with inbox := [.issue (.command 0x150000000000)] }.inbox = .issue (.command 0x150000000000) :: [] :=
  ⟨by decide, rfl⟩

theorem witness_StepRunsTheDecodedItem :
    { plain with inbox := [.issue (.command 0x130000000000), .reset] }.inbox =
      .issue (.command 0x130000000000) :: [.reset] ∧
    decode (.command 0x130000000000) = .ok .bpBytes := ⟨rfl, by decide⟩

theorem witness_AnEmptyInboxWaits : State.reset.inbox = [] := rfl

theorem witness_ResetGivesTheStatedValues : { writing 1 2 3 [4] with inbox := [.reset] }.inbox = .reset :: [] := rfl

/-- Each half: a cut of BP_WRITE_LENGTH after two of its bytes, on a storage that never fails and on one that does; and
a prefix of SINK and of RAWOUT. -/
theorem witness_ResetCutsACommand :
    (cutting (writing 0 8 0 []) 0x1200DDCCBBAA ⟨⟨[0xDD, 0xCC], true, false⟩, ⟨[], 0, false⟩, ⟨[], 0⟩, []⟩).inbox =
      .resetDuring (.command 0x1200DDCCBBAA) ⟨⟨[0xDD, 0xCC], true, false⟩, ⟨[], 0, false⟩, ⟨[], 0⟩, []⟩ :: [] ∧
    ran (.bpWriteLength 0xDDCCBBAA) { failsAtThird with host := .allOk } (fun u =>
      u.sink.data == [0xDD, 0xCC, 0xBB, 0xAA]) = true ∧
    ran (.bpWriteLength 0xDDCCBBAA) failsAtThird (fun w => w.sink.data == [0x7F]) = true ∧
    plain.host = .allOk ∧ decode (.command 0x1200DDCCBBAA) = .ok (.bpWriteLength 0xDDCCBBAA) ∧
    ([] : List Byte) <+: [0xDD] ∧ ([0xDD] : List Byte) <+: [0xDD, 0xCC, 0xBB, 0xAA] ∧
    decode (.command 0x500000000000) = .ok .hdDecompress ∧
    ran .hdDecompress (reading [0x50, 0x68, 0x40, 0, 0, 0, 2, 0x40]) (fun u => u.rawOut == [0x41, 0x42]) = true ∧
    ([0x41] : List Byte) <+: [0x41, 0x42] :=
  ⟨rfl, by decide, by decide, rfl, by decide, by decide, by decide, by decide, by decide +kernel, by decide⟩

/-- A state in the middle of a run: both channels OPEN, a tree and its table stored, a command to come. -/
def busy : State :=
  { writing 0b11000000 6 1 [0x58] with
    buStatus := .opened, buBuf := 0b01010100, buAvail := 7, buBytes := 1, src := ⟨[0xAA, 0x80], 1, true⟩
    tree := some abraTree, code := abraTree.codeTable, inbox := [.issue (.command 0x130000000000)] }

theorem witness_StepKeepsTheInvariant : busy.Inv ∧ ∃ t, step busy = .next t := by
  refine ⟨⟨⟨by decide, by decide⟩, ⟨by decide, by decide⟩, ⟨by decide, by decide⟩, ?_, .inr ⟨abraTree, rfl, ?_⟩,
    ⟨fun _ => ⟨rfl, rfl⟩, fun _ => rfl⟩, ⟨by decide, by decide⟩, ⟨fun _ => rfl, fun _ => rfl⟩, by decide⟩, _, rfl⟩
  · intro t ht
    cases ht
    decide
  · intro sym
    simp [busy, State.codeAt, Tree.codeTable]

theorem witness_ParametersAreConstant : ∃ t, step busy = .next t := ⟨_, rfl⟩

/-- BP_BYTES drives no unit and writes nothing, so it meets the premise of every clause of the next three. -/
theorem witness_CommandsLeaveInputsAlone : ∃ t, exec .bpBytes busy = .next t := ⟨_, rfl⟩

theorem witness_RegistersHaveTheirWriters :
    (∃ t, exec .bpBytes busy = .next t) ∧ drivesPacker .bpBytes = false ∧ switchesUnpacker .bpBytes = false ∧
    drivesUnpacker .bpBytes = false ∧ writesFreq .bpBytes = false ∧ writesTree .bpBytes = false ∧
    writesCode .bpBytes = false ∧ compresses .bpBytes = false ∧ decompresses .bpBytes = false :=
  ⟨⟨_, rfl⟩, rfl, rfl, rfl, rfl, rfl, rfl, rfl, rfl⟩

theorem witness_StreamsHaveTheirUsers :
    (∃ t, exec .bpBytes busy = .next t) ∧ drivesPacker .bpBytes = false ∧ drivesUnpacker .bpBytes = false ∧
    switchesUnpacker .bpBytes = false ∧ compresses .bpBytes = false ∧ decompresses .bpBytes = false ∧
    asksTheHost .bpBytes = false := ⟨⟨_, rfl⟩, rfl, rfl, rfl, rfl, rfl, rfl⟩

theorem witness_OutputOnlyGrows :
    (writing 0xAA 0 0 []).host.NeverFails ∧ Instr.bpWriteBit true ≠ .bpOpen ∧
    ran (.bpWriteBit true) (writing 0xAA 0 0 []) (fun t => t.sink.data == [0xAA]) = true :=
  ⟨good_neverFails, by decide, by decide⟩

theorem witness_FailedChannelIsSticky :
    ran (.bpWriteBit true) { writing 0xAA 0 0 [] with host := failsAt 0 } (fun t => gave t .writeFailure .none) = true ∧
    ran (.bpWriteLength 1) { writing 0 8 0 [] with host := failsAt 3 } (fun t => gave t .writeFailure .none) = true ∧
    ran .heCompress { input [0x41] with host := failsAt 0 } (fun t => gave t .writeFailure .none) = true ∧
    { writing 0xAA 0 0 [] with bpStatus := .failed }.bpStatus = .failed ∧
    ran .tsFreqClear { writing 0xAA 0 0 [] with bpStatus := .failed } (fun t => gave t .ok .none) = true :=
  ⟨by decide, by decide, by decide +kernel, rfl, by decide⟩

/-- One command for each row; the two rows with counters and nodes at their boundary: a store of three nodes, a counter
that is full, and one that fills up at the last byte but one of a length. -/
theorem witness_RefusalsAreTheTable :
    exec .bpClose plain = .refused .writeChannelIdle ∧ exec .bpOpen busy = .refused .writeChannelInUse ∧
    exec .buClose plain = .refused .readChannelIdle ∧ exec .buOpen busy = .refused .readChannelInUse ∧
    exec .tsSize plain = .refused .noTree ∧
    refusedWith .tsBuild { plain with freq := load [(1, 1), (2, 1), (3, 1)], params := ⟨64, 3⟩ }
      .treeStoreTooSmall = true ∧
    refusedWith .heCompress { input [1, 2, 3] with params := ⟨64, 3⟩ } .treeStoreTooSmall = true ∧
    refusedWith .bpClose { writing 0xAA 0 1 [1] with params := ⟨1, 511⟩ } .byteCounterFull = true ∧
    refusedWith (.bpWriteLength 0) { writing 0 8 0 [] with params := ⟨2, 511⟩ } .byteCounterFull = true ∧
    refusedWith .buReadLength { reading [0, 0, 0, 4] with params := ⟨2, 511⟩ } .byteCounterFull = true ∧
    refusedWith .hdDecompress { reading [0xA0] with params := ⟨1, 511⟩ } .byteCounterFull = true :=
  ⟨rfl, rfl, rfl, rfl, rfl, by decide +kernel, by decide +kernel, by decide, by decide, by decide, by decide +kernel⟩

/-- One command for each status. -/
theorem witness_StatusesAreTheTable :
    ran .bpOpen { plain with host := failsAt 0 } (fun t => gave t .openFailure .none) = true ∧
    ran .bpClose { writing 0 8 0 [] with host := failsAt 0 } (fun t => gave t .writeFailure .none) = true ∧
    ran .buReadLength (reading []) (fun t => gave t .truncatedStream .none) = true ∧
    ran .tsDeserialize (reading [0xA0]) (fun t => gave t .malformedTree .none) = true ∧
    ran .buReadBit (reading []) (fun t => gave t .endOfData .none) = true := by decide +kernel

theorem witness_BpOpenOpensAFreshChannel :
    plain.bpStatus = .idle ∧ plain.host.answer = .ok ∧
    { plain with host := failsAt 0 }.host.answer = .fail [0x7F] true ∧ busy.bpStatus ≠ .idle :=
  ⟨rfl, rfl, rfl, by decide⟩

theorem witness_BpWriteBitInsertsTheBit :
    plain.bpStatus = .idle ∧ { busy with bpStatus := .failed }.bpStatus = .failed ∧
    ((writing 0xFE 1 0 []).bpStatus = .opened ∧ (writing 0xFE 1 0 []).bpFree ≠ 0) ∧
    ({ writing 0xFF 0 1 [1] with params := ⟨1, 511⟩ }.bpFree = 0 ∧
      { writing 0xFF 0 1 [1] with params := ⟨1, 511⟩ }.params.counterMax ≤ 1) ∧
    ((writing 0xFF 0 0 []).bpFree = 0 ∧ 0 < (writing 0xFF 0 0 []).params.counterMax ∧
      (writing 0xFF 0 0 []).host.answer = .ok) ∧
    { writing 0xFF 0 0 [] with host := failsAt 0 }.host.answer = .fail [0x7F] true :=
  ⟨rfl, rfl, ⟨rfl, by decide⟩, ⟨rfl, by decide⟩, ⟨rfl, by decide, rfl⟩, rfl⟩

/-- With a partial byte five bytes are written, without one four: the failure at the first and at the last of them,
and the counter that fills up at the last. -/
theorem witness_BpWriteLengthAlignsAndWrites :
    ((writing 0xA0 5 0 []).bpStatus = .opened ∧ (writing 0xA0 5 0 []).BpBufferOk ∧ (writing 0xA0 5 0 []).host.OkFor 5 ∧
      5 ≤ (writing 0xA0 5 0 []).params.counterMax) ∧
    ((writing 0 8 0 []).BpBufferOk ∧ (writing 0 8 0 []).host.OkFor 4) ∧
    ((failsAt 0).OkFor 0 ∧ ((failsAt 0).after 0).answer = .fail [0x7F] true) ∧
    ((failsAt 4).OkFor 4 ∧ ((failsAt 4).after 4).answer = .fail [0x7F] true) ∧
    (good.OkFor 3 ∧ 0 + 3 = (⟨2, 511⟩ : Params).counterMax) :=
  ⟨⟨rfl, ⟨by decide, by decide⟩, ⟨rfl, rfl, rfl, rfl, rfl, trivial⟩, by decide⟩,
    ⟨⟨by decide, by decide⟩, ⟨rfl, rfl, rfl, rfl, trivial⟩⟩, ⟨trivial, rfl⟩, ⟨⟨rfl, rfl, rfl, rfl, trivial⟩, rfl⟩,
    ⟨⟨rfl, rfl, rfl, trivial⟩, rfl⟩⟩

theorem witness_BpCloseReleasesOnEveryPath :
    ((writing 0xD0 3 0 []).bpStatus = .opened ∧ (writing 0xD0 3 0 []).BpBufferOk ∧ (writing 0xD0 3 0 []).host.OkFor 2 ∧
      1 ≤ (writing 0xD0 3 0 []).params.counterMax) ∧
    ((writing 0 8 0 []).BpBufferOk ∧ (writing 0 8 0 []).host.OkFor 1) ∧
    (failsAt 0).answer = .fail [0x7F] true ∧
    ((failsAt 1).OkFor 1 ∧ ((failsAt 1).after 1).answer = .fail [0x7F] true) ∧
    ({ writing 0xFF 0 1 [1] with params := ⟨1, 511⟩ }.bpFree < 8 ∧ (⟨1, 511⟩ : Params).counterMax ≤ 1) :=
  ⟨⟨rfl, ⟨by decide, by decide⟩, ⟨rfl, rfl, trivial⟩, by decide⟩, ⟨⟨by decide, by decide⟩, ⟨rfl, trivial⟩⟩, rfl,
    ⟨⟨rfl, trivial⟩, rfl⟩, ⟨by decide, by decide⟩⟩

theorem fresh_input (data : List Byte) : (input data).FreshWrite := ⟨rfl, rfl, rfl, rfl, rfl⟩

theorem fresh_reading (data : List Byte) : (reading data).FreshRead := ⟨rfl, rfl, rfl, rfl, rfl⟩

/-- V13: `101`, a length, `11`, and the close. -/
theorem witness_SinkHoldsThePackedRuns :
    (input []).FreshWrite ∧
    (runOk (channelCommands [true, false, true] [(0x01020304, [true, true])]) (input [])).isSome = true ∧
    (runOk (channelCommands [true, false, true] [(0x01020304, [true, true])] ++ [.bpClose]) (input [])).isSome = true ∧
    (input []).host.NeverFails ∧
    (channelContents [true, false, true] [(0x01020304, [true, true])]).1 = [0xA0, 1, 2, 3, 4] ∧
    5 + (pack [true, true]).length ≤ (input []).params.counterMax :=
  ⟨fresh_input [], by decide +kernel, by decide +kernel, good_neverFails, by decide, by decide⟩

theorem witness_BuOpenOpensAFreshChannel :
    plain.buStatus = .idle ∧ plain.host.answer = .ok ∧
    { plain with host := failsAt 0 }.host.answer = .fail [0x7F] true ∧ busy.buStatus ≠ .idle :=
  ⟨rfl, rfl, rfl, by decide⟩

theorem witness_BuReadBitTakesTheTopBit :
    plain.buStatus = .idle ∧ (busy.buStatus = .opened ∧ busy.buAvail ≠ 0) ∧
    ((reading [1]).buAvail = 0 ∧ { reading [1] with params := ⟨0, 511⟩ }.params.counterMax ≤ 0) ∧
    ((reading [1]).buAvail = 0 ∧ 0 < (reading [1]).params.counterMax ∧ (reading [1]).src.data[0]? = some 1) ∧
    (reading []).src.data[0]? = none :=
  ⟨rfl, ⟨rfl, by decide⟩, ⟨rfl, by decide⟩, ⟨rfl, by decide, rfl⟩, rfl⟩

/-- The boundary: exactly four bytes, three bytes, and a counter that fills up at the fourth. -/
theorem witness_BuReadLengthRealignsAndReads :
    (reading [0, 0, 0, 4]).untaken = 0 :: 0 :: 0 :: 4 :: [] ∧
    (reading [0, 0, 0, 4]).buBytes + 4 ≤ (reading [0, 0, 0, 4]).params.counterMax ∧
    ((reading [0, 0, 1]).untaken.length < 4 ∧ 0 + 3 < (reading [0, 0, 1]).params.counterMax) ∧
    (3 ≤ (reading [0, 0, 1]).untaken.length ∧ 0 + 3 = (⟨2, 511⟩ : Params).counterMax) :=
  ⟨rfl, by decide, ⟨by decide, by decide⟩, ⟨by decide, by decide⟩⟩

theorem witness_BuCloseReleasesTheStream : plain.buStatus = .idle ∧ busy.buStatus = .opened := ⟨rfl, rfl⟩

/-- V20 and V23: no read, all reads, and a length after three of them. -/
theorem witness_ReadChannelDeliversTheStream :
    (reading [0xA0, 1, 2, 3, 4, 0xC0]).FreshRead ∧
    (reading [0xA0, 1, 2, 3, 4, 0xC0]).src.data.length < (reading [0xA0, 1, 2, 3, 4, 0xC0]).params.counterMax ∧
    3 ≤ 8 * (reading [0xA0, 1, 2, 3, 4, 0xC0]).src.data.length ∧
    (reading [0xA0, 1, 2, 3, 4, 0xC0]).src.data.drop ((3 + 7) / 8) = 1 :: 2 :: 3 :: 4 :: [0xC0] ∧
    8 = 8 * (reading [0xD0]).src.data.length := ⟨fresh_reading _, by decide, by decide, rfl, rfl⟩

/-- No symbol, one, two (at a store of three nodes, exactly full), three (one too many for it). -/
theorem witness_BuildStoresTheTree :
    symbolsOf plain.freq = [] ∧ symbolsOf (load [(7, 1)]) = [7] ∧
    2 * (symbolsOf (load [(7, 1), (9, 1)])).length ≤ 3 + 1 ∧
    2 * (symbolsOf (load [(7, 1), (8, 1), (9, 1)])).length > 3 + 1 := by decide +kernel

/-- A tie of two frequencies that the sequence numbers decide. -/
theorem witness_BuildJoinsTheTwoLeast :
    symbolsOf (load [(7, 1), (9, 1)]) = 7 :: 9 :: [] ∧ 1 < ([7, 9] : List Byte).length ∧
    ((⟨2, 1, .leaf 9⟩ : Entry) :: [⟨2, 0, .leaf 7⟩, ⟨5, 2, .leaf 8⟩]).Perm
      (⟨2, 0, .leaf 7⟩ :: ⟨2, 1, .leaf 9⟩ :: [⟨5, 2, .leaf 8⟩]) ∧
    (∀ x ∈ ([⟨2, 1, .leaf 9⟩, ⟨2, 0, .leaf 7⟩, ⟨5, 2, .leaf 8⟩] : List Entry), x.seq < 3) ∧
    (([⟨2, 1, .leaf 9⟩, ⟨2, 0, .leaf 7⟩, ⟨5, 2, .leaf 8⟩] : List Entry).map (·.seq)).Nodup ∧
    (∀ x ∈ ([⟨2, 1, .leaf 9⟩, ⟨5, 2, .leaf 8⟩] : List Entry), 2 < x.f ∨ (2 = x.f ∧ 0 < x.seq)) ∧
    (∀ x ∈ ([⟨5, 2, .leaf 8⟩] : List Entry), 2 < x.f ∨ (2 = x.f ∧ 1 < x.seq)) :=
  ⟨by decide +kernel, by decide, List.Perm.swap _ _ _, by decide, by decide, by decide, by decide⟩

theorem witness_BuiltTreesMeetTheInvariants : 2 ≤ (symbolsOf (load [(7, 1), (9, 1)])).length := by decide +kernel

theorem witness_PlaceholderTreesHaveOneBitCodes : (0x42 : Byte) ≠ 0x41 := by decide

theorem witness_CodetableStoresThePaths : plain.tree = none ∧ busy.tree = some abraTree := ⟨rfl, rfl⟩

theorem witness_CodeGetReadsTheTable : busy.codeAt 0 = none ∧ busy.codeAt 0x61 = some [false] := by decide +kernel

/-- The tree of V54: `A` is 0, `B` is 1. Its first two bits are `0 1`. -/
def abTree : Tree := .internal (.leaf 0x41) (.leaf 0x42)

/-- V47 and R152: no tree, an IDLE channel, all of V32's tree; and with two places left in the current byte the third bit
finds the buffer full: it fails, or is refused. -/
theorem witness_SerializeWritesTheTreeBits :
    plain.tree = none ∧ { plain with tree := some abraTree }.bpStatus = .idle ∧
    (busy.tree = some abraTree ∧ (runOk (writeBitCommands abraTree.ser) busy).isSome = true) ∧
    (busy.bpStatus = .opened ∧ busy.host.NeverFails ∧ busy.bpBytes + abraTree.size ≤ busy.params.counterMax) ∧
    abTree.ser = [false, true] ++ false :: (abTree.ser.drop 3) ∧
    (match runOk (writeBitCommands [false, true]) { writing 0 2 0 [] with host := failsAt 0 } with
      | some u => ran (.bpWriteBit false) u (fun v => gave v .writeFailure .none)
      | none => false) = true ∧
    (match runOk (writeBitCommands [false, true]) { writing 0 2 1 [1] with params := ⟨1, 511⟩ } with
      | some u => refusedWith (.bpWriteBit false) u .byteCounterFull
      | none => false) = true :=
  ⟨rfl, rfl, ⟨rfl, by decide +kernel⟩, ⟨rfl, good_neverFails, by decide⟩, by decide, by decide, by decide⟩

theorem reading_buffer (data : List Byte) : (reading data).BuBufferOk :=
  ⟨by simp [reading, plain, State.reset], by simp [reading, plain, State.reset]⟩
theorem reading_cursors (data : List Byte) : (reading data).CursorsOk := ⟨Nat.zero_le _, Nat.zero_le _⟩
theorem reading_counts (data : List Byte) : (reading data).CountsAreTrue :=
  ⟨fun h => by simp [reading, plain, State.reset] at h, fun _ => rfl⟩

/-- What the statements about a read channel ask of its state. -/
def Ready (s : State) : Prop :=
  s.buStatus = .opened ∧ s.BuBufferOk ∧ s.CursorsOk ∧ s.CountsAreTrue ∧ s.src.data.length < s.params.counterMax

theorem reading_ready (data : List Byte) (h : data.length < 100) : Ready (reading data) :=
  ⟨rfl, reading_buffer data, reading_cursors data, reading_counts data, Nat.lt_trans h (show 100 < 2 ^ 64 - 1 by decide)⟩

/-- V43, row 1. -/
theorem witness_DeserializeRecoversTheTree :
    Ready (reading [0x50, 0x68, 0x20]) ∧
    (placeholder 0x41).nodes ≤ (reading [0x50, 0x68, 0x20]).params.maxNodes ∧
    (reading [0x50, 0x68, 0x20]).unread = (placeholder 0x41).ser ++ List.replicate 5 false :=
  ⟨reading_ready _ (by decide), by decide, by decide⟩

/-- A chain to the left of four leaves: seven nodes, whose first three tokens are `0`. -/
def chain : Tree := .internal (.internal (.internal (.leaf 1) (.leaf 2)) (.leaf 3)) (.leaf 4)

/-- Three unread zeros and a store of three nodes: the stream ends exactly where the fourth node would start. -/
def threeZeros : State := { reading [0] with buAvail := 3, buBytes := 1, src := ⟨[0], 1, true⟩, params := ⟨64, 3⟩ }

/-- V44 (a): the empty stream, `A0` (the end after seven symbol bits), and the end at the store's capacity. -/
theorem witness_DeserializeReportsTheEnd :
    (Ready (reading []) ∧ 0 < (Tree.leaf 0x41).tokens.length ∧ (reading []).unread = []) ∧
    (Ready (reading [0xA0]) ∧ 0 < 511 ∧ (Tree.leaf 0x41).tokens[0]? = some (some 0x41) ∧ (reading [0xA0]).unread = true :: (msb8 0x41).take 7) ∧
    (Ready threeZeros ∧ 3 < chain.tokens.length ∧
      3 ≤ threeZeros.params.maxNodes ∧ threeZeros.unread = (chain.tokens.take 3).flatMap tokenBits) :=
  ⟨⟨reading_ready _ (by decide), by decide, rfl⟩, ⟨reading_ready _ (by decide), by decide, rfl, by decide⟩,
    ⟨rfl, ⟨by decide, by decide⟩, ⟨by decide, by decide⟩, ⟨fun h => (nomatch h), fun _ => rfl⟩, by decide⟩, by decide,
    by decide, by decide⟩

/-- V45: `00 00` and a store of three nodes. -/
theorem witness_DeserializeHasACapacity :
    Ready { reading [0, 0] with params := ⟨64, 3⟩ } ∧
    { reading [0, 0] with params := ⟨64, 3⟩ }.params.maxNodes < chain.tokens.length ∧
    { reading [0, 0] with params := ⟨64, 3⟩ }.unread =
      (chain.tokens.take 3).flatMap tokenBits ++ false :: List.replicate 12 false :=
  ⟨⟨rfl, ⟨by decide, by decide⟩, ⟨by decide, by decide⟩, ⟨fun h => (nomatch h), fun _ => rfl⟩, by decide⟩, by decide,
    by decide⟩

theorem witness_SerializedTreesAreReadBack :
    { input [] with tree := some (placeholder 0x41) }.FreshWrite ∧
    (match runOk [.tsSerialize, .bpClose] { input [] with tree := some (placeholder 0x41) } with
      | some u => u.sink.data == (reading [0x50, 0x68, 0x20]).src.data
      | none => false) = true ∧
    (reading [0x50, 0x68, 0x20]).FreshRead ∧
    (placeholder 0x41).nodes ≤ (reading [0x50, 0x68, 0x20]).params.maxNodes :=
  ⟨⟨rfl, rfl, rfl, rfl, rfl⟩, by decide +kernel, fresh_reading _, by decide⟩

theorem witness_SizeIsTheSerializedLength : plain.tree = none ∧ busy.tree = some abraTree := ⟨rfl, rfl⟩

theorem witness_StreamItemsAreEmitted :
    busy.bpStatus = .opened ∧ busy.host.NeverFails ∧ busy.bpBytes + 9 ≤ busy.params.counterMax ∧ busy.BpBufferOk :=
  ⟨rfl, good_neverFails, by decide, by decide, by decide⟩

/-- V54, `AB` on a fresh channel; and V71, on a channel that has taken the bit `1`. -/
theorem witness_CompressWritesTheFile :
    (input [0x41, 0x42]).FreshWrite ∧ runOk (channelCommands [] []) (input [0x41, 0x42]) = some (input [0x41, 0x42]) ∧
    (runOk (channelCommands [true] []) (input [0x41, 0x42])).isSome = true ∧
    ran .heCompress (input [0x41, 0x42]) (fun t => gave t .ok .none) = true ∧
    (input [0x41, 0x42]).host.NeverFails ∧ (input [0x41, 0x42]).rawIn.data.length < 2 ^ 32 ∧
    2 * (symbolsOf (frequencies [0x41, 0x42])).length ≤ (input [0x41, 0x42]).params.maxNodes + 1 ∧
    ([] ++ pack ([] ++ (buildTree (frequencies [0x41, 0x42])).ser) ++ be32 2 ++
      pack (codeWords (buildTree (frequencies [0x41, 0x42])) [0x41, 0x42])).length ≤
        (input [0x41, 0x42]).params.counterMax :=
  ⟨fresh_input _, rfl, by decide +kernel, by decide +kernel, good_neverFails, by decide, by decide +kernel,
    by decide +kernel⟩

theorem input_opened (data : List Byte) : (input data).bpStatus ≠ .idle := fun h => nomatch h

theorem input_length (data : List Byte) (n : Nat) (h : data.length = n) : n ≤ (input data).rawIn.data.length :=
  Nat.le_of_eq h.symm

/-- V72: 2^32 bytes of zero. -/
theorem witness_CompressRefusesLongInputs :
    (input (List.replicate (2 ^ 32) 0)).bpStatus ≠ .idle ∧
    2 ^ 32 ≤ (input (List.replicate (2 ^ 32) 0)).rawIn.data.length := by
  exact ⟨input_opened _, input_length _ _ List.length_replicate⟩

theorem witness_CompressEndsInThreeWays :
    ran .heCompress (input [0x41]) (fun t => gave t .ok .none) = true ∧
    ran .heCompress { input [0x41] with host := failsAt 8 } (fun t => gave t .writeFailure .none
      && t.bpStatus == .idle) = true := by decide +kernel

theorem witness_CompressOnAChannelNotOpen :
    plain.bpStatus = .idle ∧ { input [0x41] with bpStatus := .failed }.bpStatus = .failed ∧
    { input [0x41] with bpStatus := .failed }.rawIn.data.length < 2 ^ 32 ∧
    2 * (symbolsOf (frequencies [0x41])).length ≤ 511 + 1 := ⟨rfl, rfl, by decide, by decide +kernel⟩

theorem witness_EdgeInputsHaveTheStatedFiles :
    (0 < 9 ∧ 9 < 2 ^ 32) ∧ ((List.range 256).map (BitVec.ofNat 8)).length < 2 ^ 32 ∧
    ∀ a : Byte, a ∈ (List.range 256).map (BitVec.ofNat 8) := by
  refine ⟨by decide, by simp, fun a => List.mem_map.mpr ⟨a.toNat, List.mem_range.mpr a.isLt, ?_⟩⟩
  simp

/-- V54's file read back, one byte of codes and six bits of padding; and V66, where the
path taken is not the symbol's code word. -/
theorem witness_DecompressEmitsTheSymbols :
    (Ready (reading [0x50, 0x68, 0x40, 0, 0, 0, 2, 0x40]) ∧
      (reading [0x50, 0x68, 0x40, 0, 0, 0, 2, 0x40]).buAvail = 0 ∧ good.OkFor 2 ∧ abTree.nodes ≤ 511 ∧
      (reading [0x50, 0x68, 0x40, 0, 0, 0, 2, 0x40]).untaken = [0x50, 0x68, 0x40] ++ be32 2 ++ [0x40] ∧
      streamBits [0x50, 0x68, 0x40] = abTree.ser ++ List.replicate 5 false ∧ (List.replicate 5 false).length < 8 ∧
      streamBits [0x40] = ([(0x41, [false]), (0x42, [true])] : List (Byte × Bits)).flatMap (·.2) ++
        List.replicate 6 false ∧
      (∀ e ∈ ([(0x41, [false]), (0x42, [true])] : List (Byte × Bits)), e ∈ abTree.paths)) ∧
    (streamBits [0x50, 0x68, 0x3F] = (placeholder 0x41).ser ++ List.replicate 5 true ∧
      streamBits [0xF0] = (List.replicate 4 ((0x41 : Byte), [true])).flatMap (·.2) ++ List.replicate 4 false ∧
      (∀ e ∈ List.replicate 4 ((0x41 : Byte), [true]), e ∈ (placeholder 0x41).paths)) :=
  ⟨⟨reading_ready _ (by decide), rfl, good_neverFails.okFor 2, by decide, by decide, by decide, by decide, by decide,
    by decide⟩, by decide, by decide, by decide⟩

/-- V64: the tree's padding is not zero. -/
theorem witness_DecompressOfASingleLeaf :
    Ready (reading [0xA0, 0xFF, 0, 0, 0, 3]) ∧ (reading [0xA0, 0xFF, 0, 0, 0, 3]).buAvail = 0 ∧ good.OkFor 3 ∧
    1 ≤ (reading [0xA0, 0xFF, 0, 0, 0, 3]).params.maxNodes ∧
    (reading [0xA0, 0xFF, 0, 0, 0, 3]).untaken = [0xA0, 0xFF] ++ be32 3 ++ [] ∧
    streamBits [0xA0, 0xFF] = true :: msb8 0x41 ++ List.replicate 7 true ∧ (List.replicate 7 true).length < 8 :=
  ⟨reading_ready _ (by decide), rfl, good_neverFails.okFor 3, by decide, by decide, by decide, by decide⟩

/-- V69: a header larger than the data, no code byte. -/
theorem witness_DecompressReportsTruncation :
    Ready (reading [0x50, 0x68, 0x40, 0xFF, 0xFF, 0xFF, 0xFF]) ∧
    (reading [0x50, 0x68, 0x40, 0xFF, 0xFF, 0xFF, 0xFF]).buAvail = 0 ∧ good.OkFor 0 ∧ abTree.nodes ≤ 511 ∧
    (reading [0x50, 0x68, 0x40, 0xFF, 0xFF, 0xFF, 0xFF]).untaken = [0x50, 0x68, 0x40] ++ be32 0xFFFFFFFF ++ [] ∧
    streamBits [0x50, 0x68, 0x40] = abTree.ser ++ List.replicate 5 false ∧
    streamBits [] = ([] : List (Byte × Bits)).flatMap (·.2) ++ [] ∧ 0 < (0xFFFFFFFF : Word32).toNat ∧
    ((0x41 : Byte), [false]) ∈ abTree.paths ∧ ([] : Bits) <+: [false] ∧ ([] : Bits) ≠ [false] :=
  ⟨reading_ready _ (by decide), rfl, trivial, by decide, by decide, by decide, by decide, by decide, by decide,
    by decide, by decide⟩

/-- V73: the second write fails. -/
def brokenOutput : State := { reading [0x50, 0x68, 0x40, 0, 0, 0, 3, 0xA0] with host := failsAt 1 }

theorem witness_DecompressReportsWriteFailure :
    Ready brokenOutput ∧ brokenOutput.buAvail = 0 ∧ abTree.nodes ≤ 511 ∧
    brokenOutput.host.OkFor 1 ∧ (brokenOutput.host.after 1).answer = .fail [0x7F] true ∧
    brokenOutput.untaken = [0x50, 0x68, 0x40] ++ be32 3 ++ [0xA0] ∧
    streamBits [0x50, 0x68, 0x40] = abTree.ser ++ List.replicate 5 false ∧
    streamBits [0xA0] = ([(0x42, [true])] ++ [(0x41, [false])] : List (Byte × Bits)).flatMap (·.2) ++
      [true, false, false, false, false, false] ∧
    (∀ e ∈ ([(0x42, [true])] ++ [(0x41, [false])] : List (Byte × Bits)), e ∈ abTree.paths) ∧
    1 < (3 : Word32).toNat :=
  ⟨⟨rfl, reading_buffer [0x50, 0x68, 0x40, 0, 0, 0, 3, 0xA0], ⟨by decide, by decide⟩,
      ⟨fun h => (nomatch h), fun _ => rfl⟩, by decide⟩,
    rfl, by decide, ⟨rfl, trivial⟩, rfl, by decide, by decide, by decide, by decide, by decide⟩

/-- V44 (b), rows 1 and 10. -/
theorem witness_DecompressStopsAtTheFirstError :
    ran .tsDeserialize (reading [0x58]) (fun t => gave t .malformedTree .none) = true ∧
    ran .tsDeserialize (reading [0x50, 0x68, 0x20, 0, 0, 0]) (fun u => gave u .ok .none
      && ran .buReadLength u (fun v => gave v .truncatedStream .none)) = true := by decide +kernel

theorem witness_DecompressLeavesTheChannelOpen :
    ran .hdDecompress (reading [0x40, 0x20, 0, 0, 0, 0, 0]) (fun t => gave t .ok .none) = true := by decide +kernel

/-- V54 compressed, and a fresh read channel on what that wrote. -/
theorem witness_DecompressInvertsCompress :
    ∃ t s' : State, (input [0x41, 0x42]).FreshWrite ∧ (input [0x41, 0x42]).params.wf = true ∧
      exec .heCompress (input [0x41, 0x42]) = .next t ∧ t.result = some ⟨.ok, .none⟩ ∧ s'.FreshRead ∧
      s'.params = (input [0x41, 0x42]).params ∧ s'.src.data = t.sink.data ∧ s'.rawOut = [] ∧
      s'.host.OkFor (input [0x41, 0x42]).rawIn.data.length := by
  obtain ⟨t, h, hr⟩ := ran_next
    (show ran .heCompress (input [0x41, 0x42]) (fun t => t.result == some ⟨.ok, .none⟩) = true by decide +kernel)
  exact ⟨t, reading t.sink.data, fresh_input _, by decide, h, beq_iff_eq.mp hr, fresh_reading _, rfl, rfl, rfl,
    good_neverFails.okFor 2⟩

end Sys2Proof.Machine.Tests
end

section
/-! PROOFS. What no command changes: the parameters, the inputs the host has chosen and the moves it has still to make
(00_scope.md R5, 10_state.md R33, 70_reset_and_hazards.md R246). -/

namespace Sys2Proof.Machine

/-- The parameters, the bytes of the two input streams and the host's coming moves are the same in both states. -/
structure SameInputs (s t : State) : Prop where
  params : t.params = s.params
  inbox : t.inbox = s.inbox
  srcData : t.src.data = s.src.data
  rawInData : t.rawIn.data = s.rawIn.data

theorem SameInputs.refl (s : State) : SameInputs s s := ⟨rfl, rfl, rfl, rfl⟩

theorem SameInputs.trans {s t u : State} (h : SameInputs s t) (k : SameInputs t u) : SameInputs s u :=
  ⟨k.params.trans h.params, k.inbox.trans h.inbox, k.srcData.trans h.srcData, k.rawInData.trans h.rawInData⟩

theorem OnlyPacker.sameInputs {s t : State} (h : OnlyPacker s t) : SameInputs s t :=
  ⟨h.params, h.inbox, congrArg Src.data h.src, congrArg RawIn.data h.rawIn⟩

theorem OnlyUnpacker.sameInputs {s t : State} (h : OnlyUnpacker s t) : SameInputs s t :=
  ⟨h.params, h.inbox, h.srcData, congrArg RawIn.data h.rawIn⟩

theorem setCode_sameInputs (s : State) (v : Vector (Option Bits) 256) : SameInputs s (s.setCode v) :=
  ⟨rfl, rfl, rfl, rfl⟩

theorem rawInRead_sameInputs (s : State) : SameInputs s s.rawInRead.2 := by
  rcases s.rawInRead_cases with ⟨b, _, h⟩ | ⟨_, h⟩ <;> rw [h]
  · exact ⟨rfl, rfl, rfl, rfl⟩
  · exact SameInputs.refl s

/-! ## Pieces of pseudocode -/

variable {α β : Type} {s : State}

/-- A piece of pseudocode, started in `s`, has the same inputs wherever it runs on or ends the command. -/
def Flow.KeepsInputs (s : State) (x : Flow α) : Prop := x.Post (fun _ t => SameInputs s t) (SameInputs s)

theorem Flow.KeepsInputs.ret {t : State} (h : SameInputs s t) (a : α) : (Flow.ret a t).KeepsInputs s := h

/-- Two lines that each keep the inputs keep them together. -/
theorem Flow.KeepsInputs.bind {x : Flow α} {f : α → State → Flow β} (hx : x.KeepsInputs s)
    (hf : ∀ a t, (f a t).KeepsInputs t) : (x.bind f).KeepsInputs s :=
  Flow.Post.bind hx fun a t h => (hf a t).mono (fun _ _ k => h.trans k) fun _ k => h.trans k

/-- Register writes ahead of a line that keeps the inputs. -/
theorem Flow.KeepsInputs.after {t : State} {x : Flow α} (hx : x.KeepsInputs t) (h : SameInputs s t) :
    x.KeepsInputs s :=
  hx.mono (fun _ _ k => h.trans k) fun _ k => h.trans k

/-- A command ends by recording its result, which is none of the inputs. -/
theorem Flow.KeepsInputs.finish {x : Flow Value} {t : State} (hx : x.KeepsInputs s) (h : x.finish = .next t) :
    SameInputs s t :=
  Flow.Post.finish hx (fun _ _ k => k) (fun _ _ k => ⟨k.params, k.inbox, k.srcData, k.rawInData⟩) h

/-- A command whose lines keep the inputs and whose value is read off their answer. -/
theorem Flow.KeepsInputs.finish_ret {x : Flow α} {g : α → Value} {t : State} (hx : x.KeepsInputs s)
    (h : (x.bind fun a u => .ret (g a) u).finish = .next t) : SameInputs s t :=
  (hx.bind fun _ u => .ret (.refl u) _).finish h

theorem Flow.Post.keepsInputs_packer {x : Flow α} (hx : x.Post (fun _ t => OnlyPacker s t) (OnlyPacker s)) :
    x.KeepsInputs s :=
  hx.mono (fun _ _ k => k.sameInputs) fun _ k => k.sameInputs

theorem Flow.Post.keepsInputs_unpacker {x : Flow α} (hx : x.Post (fun _ t => OnlyUnpacker s t) (OnlyUnpacker s)) :
    x.KeepsInputs s :=
  hx.mono (fun _ _ k => k.sameInputs) fun _ k => k.sameInputs

variable (s)

theorem readBit_keepsInputs : (readBit s).KeepsInputs s :=
  (readBit_only s).mono (fun _ _ k => k.sameInputs) fun _ k => k.elim

theorem buReadable_keepsInputs : (buReadable s).KeepsInputs s :=
  (buReadable_only s).mono (fun _ t k => k ▸ SameInputs.refl t) fun _ k => k.elim

theorem buClose_keepsInputs : (buClose s).KeepsInputs s :=
  (buReadable_keepsInputs s).bind fun _ _ => .ret (by constructor <;> rfl) _

theorem theTree_keepsInputs : (theTree s).KeepsInputs s :=
  (theTree_only s).mono (fun _ t k => k.2 ▸ SameInputs.refl t) fun _ k => k.elim

theorem build_keepsInputs : (build s).KeepsInputs s := by
  unfold build
  split
  · trivial
  · exact ⟨rfl, rfl, rfl, rfl⟩

theorem makeCodeTable_keepsInputs : (makeCodeTable s).KeepsInputs s :=
  (theTree_keepsInputs s).bind fun _ _ => .ret (setCode_sameInputs _ _) _

theorem deserialize_keepsInputs : (deserialize s).KeepsInputs s :=
  (buReadable_keepsInputs s).bind fun _ u =>
    ((parse_only _ 0 (u.setTree none).clearCode).keepsInputs_unpacker.bind fun _ _ => .ret (by constructor <;> rfl) _).after
      ⟨rfl, rfl, rfl, rfl⟩

/-! ## The two codecs -/

theorem notIdle_keepsInputs : (notIdle s).KeepsInputs s := by
  unfold notIdle
  split
  · trivial
  · exact SameInputs.refl s
  · exact SameInputs.refl s

theorem scan_keepsInputs (rest : List Byte) : (scan rest s).KeepsInputs s := by
  induction rest generalizing s with
  | nil => exact SameInputs.refl s
  | cons r rest ih =>
    have hread := rawInRead_sameInputs s
    unfold scan
    split
    · exact hread
    · exact (ih _).after ⟨hread.params, hread.inbox, hread.srcData, hread.rawInData⟩

theorem scanInput_keepsInputs : (scanInput s).KeepsInputs s :=
  (scan_keepsInputs _ _).after ⟨rfl, rfl, rfl, rfl⟩

theorem encodeSymbols_keepsInputs (rest : List Byte) : (encodeSymbols rest s).KeepsInputs s := by
  induction rest generalizing s with
  | nil => exact SameInputs.refl s
  | cons r rest ih =>
    unfold encodeSymbols
    split
    · trivial
    · exact ((writeBits_only _ _).keepsInputs_packer.bind fun _ t => ih t).after (rawInRead_sameInputs s)

theorem encodeInput_keepsInputs : (encodeInput s).KeepsInputs s :=
  (encodeSymbols_keepsInputs _ _).after ⟨rfl, rfl, rfl, rfl⟩

/-- The seven steps of R171, one after the other. -/
theorem compress_keepsInputs : (compress s).KeepsInputs s :=
  (notIdle_keepsInputs s).bind fun _ s =>
  (scanInput_keepsInputs s).bind fun _ s =>
  (build_keepsInputs s).bind fun _ s =>
  (serialize_only s).keepsInputs_packer.bind fun _ s =>
  (writeLength_only s.heLen s).keepsInputs_packer.bind fun _ s =>
  (makeCodeTable_keepsInputs s).bind fun _ s =>
  (encodeInput_keepsInputs s).bind fun _ s => (bpClose_only s).keepsInputs_packer

theorem decodeSymbols_keepsInputs (t : Tree) (k : Nat) : (decodeSymbols t k s).KeepsInputs s := by
  induction k generalizing s with
  | zero => exact SameInputs.refl s
  | succ k ih =>
    refine (decodeOne_only t s).keepsInputs_unpacker.bind fun sym u => ?_
    rcases u.rawOutWrite_cases sym with h | ⟨left, h⟩ <;> rw [h]
    · exact (ih _).after (by constructor <;> simp)
    · constructor <;> simp

/-- The steps of R186, one after the other. -/
theorem decompress_keepsInputs : (decompress s).KeepsInputs s :=
  (deserialize_keepsInputs s).bind fun t s =>
  (readLength_only s).keepsInputs_unpacker.bind fun n _ =>
    (decodeSymbols_keepsInputs _ t n.toNat).after ⟨rfl, rfl, rfl, rfl⟩

/-! ## The commands and the steps -/

theorem bpOpened_sameInputs : SameInputs s (bpOpened s).2 := by
  unfold bpOpened
  rcases s.sinkOpen_cases with h | h <;> rw [h] <;> constructor <;> simp

theorem buOpened_sameInputs : SameInputs s (buOpened s).2 := by
  unfold buOpened
  rcases s.srcOpen_cases with h | h <;> rw [h] <;> constructor <;> simp

variable {s} {t : State}

theorem execBpOpen_sameInputs (h : execBpOpen s = .next t) : SameInputs s t := by
  unfold execBpOpen at h
  split at h <;> cases h
  exact (bpOpened_sameInputs s).trans ⟨rfl, rfl, rfl, rfl⟩

theorem execBuOpen_sameInputs (h : execBuOpen s = .next t) : SameInputs s t := by
  unfold execBuOpen at h
  split at h <;> cases h
  exact (buOpened_sameInputs s).trans ⟨rfl, rfl, rfl, rfl⟩

theorem execBuReadBit_sameInputs (h : execBuReadBit s = .next t) : SameInputs s t := by
  refine ((readBit_keepsInputs s).bind fun r u => ?_).finish h
  cases r <;> exact SameInputs.refl u

/-- R246: no instruction changes the parameters, the bytes of the input streams or the host's coming moves. -/
theorem exec_sameInputs {i : Instr} (h : exec i s = .next t) : SameInputs s t := by
  cases i with
  | bpOpen => exact execBpOpen_sameInputs h
  | bpWriteBit bit => exact (writeBit_only bit s).keepsInputs_packer.finish_ret h
  | bpWriteLength n => exact (writeLength_only n s).keepsInputs_packer.finish_ret h
  | bpClose => exact (bpClose_only s).keepsInputs_packer.finish_ret h
  | buOpen => exact execBuOpen_sameInputs h
  | buReadBit => exact execBuReadBit_sameInputs h
  | buReadLength => exact (readLength_only s).keepsInputs_unpacker.finish_ret h
  | buClose => exact (buClose_keepsInputs s).finish_ret h
  | tsBuild => exact (build_keepsInputs s).finish_ret h
  | tsSerialize => exact (serialize_only s).keepsInputs_packer.finish_ret h
  | tsDeserialize => exact (deserialize_keepsInputs s).finish_ret h
  | tsSize => exact (theTree_keepsInputs s).finish_ret h
  | tsCodetable => exact (makeCodeTable_keepsInputs s).finish_ret h
  | heCompress => exact (compress_keepsInputs s).finish_ret h
  | hdDecompress => exact (decompress_keepsInputs s).finish_ret h
  | tokenInternal => exact (writeBit_only false s).keepsInputs_packer.finish_ret h
  | tokenLeaf sym => exact (emitLeaf_only sym s).keepsInputs_packer.finish_ret h
  | lengthHeader n => exact (writeLength_only n s).keepsInputs_packer.finish_ret h
  | bpBytes | buBytes | tsFreqClear | tsFreqSet | tsCodeGet => cases h; exact ⟨rfl, rfl, rfl, rfl⟩

theorem runItem_sameInputs {item : Item} (h : runItem item s = .next t) : SameInputs s t := by
  unfold runItem at h
  split at h
  · exact exec_sameInputs h
  · cases h

theorem runItemCut_params {item : Item} {c : Cut} (h : runItemCut item c s = .next t) : t.params = s.params := by
  unfold runItemCut at h
  split at h
  · obtain ⟨-, rfl⟩ := cutCommand_next h
    rfl
  · cases h

/-- No move of the host changes the parameters, a reset included (R5). -/
theorem perform_params {m : HostMove} (h : perform m s = .next t) : t.params = s.params := by
  cases m with
  | issue item => exact (runItem_sameInputs h).params
  | resetDuring item c => exact runItemCut_params h
  | presentSrc data => simp only [perform, presentSrc] at h; split at h <;> cases h; rfl
  | releaseSink => simp only [perform, hostReleasesSink] at h; split at h <;> cases h; rfl
  | releaseSrc => simp only [perform, hostReleasesSrc] at h; split at h <;> cases h; rfl
  | reset | presentRawIn | supplyRawOut => cases h; rfl

theorem step_params (h : step s = .next t) : t.params = s.params := by
  unfold step at h
  split at h
  · cases h; rfl
  · rename_i rest _
    exact perform_params (s := s.setInbox rest) h

end Sys2Proof.Machine
end

section
/-! PROOFS. The statements of 00_scope.md. -/

namespace Sys2Proof.Machine

/-- Settles O11: the step is one move of the host, and none of them changes the parameters. -/
theorem parametersAreConstant : Obligations.ParametersAreConstant :=
  fun _ _ h => step_params h

/-- Settles O32: the length of a packed run and the bits it holds, by recursion on the run eight bits at a time
(`streamBits_pack`). -/
theorem packedBitsReadBack : Obligations.PackedBitsReadBack :=
  fun r => ⟨pack_length r, streamBits_pack r⟩

end Sys2Proof.Machine
end

section
/-! PROOFS. Reset: the registers it leaves, and that the invariant holds there whatever the host-side streams are
(10_state.md R34, 70_reset_and_hazards.md R230). -/

namespace Sys2Proof.Machine

/-- Every register of the core has its reset value (R34). -/
structure RegistersReset (t : State) : Prop where
  bpStatus : t.bpStatus = .idle
  bpBuf : t.bpBuf = 0
  bpFree : t.bpFree = 8
  bpBytes : t.bpBytes = 0
  buStatus : t.buStatus = .idle
  buBuf : t.buBuf = 0
  buAvail : t.buAvail = 0
  buBytes : t.buBytes = 0
  freq : t.freq = Vector.replicate 256 0
  tree : t.tree = none
  code : t.code = Vector.replicate 256 none
  heLen : t.heLen = 0
  hdRemaining : t.hdRemaining = 0

theorem reset_registersReset : RegistersReset State.reset := by constructor <;> rfl

theorem resetCore_registersReset (s : State) : RegistersReset (resetCore s) := by constructor <;> rfl

theorem cutReset_registersReset (i : Instr) (s : State) (c : Cut) : RegistersReset (cutReset i s c) := by
  constructor <;> rfl

theorem RegistersReset.freqAt {t : State} (h : RegistersReset t) (sym : Byte) : t.freqAt sym = 0 := by
  simp [State.freqAt, h.freq]

theorem RegistersReset.codeAt {t : State} (h : RegistersReset t) (sym : Byte) : t.codeAt sym = none :=
  clearCode_all t h.code sym

/-- With the registers reset both units are IDLE, and the invariant asks nothing of the streams but their cursors. -/
theorem RegistersReset.inv {t : State} (h : RegistersReset t) (hc : t.CursorsOk) (hp : t.params.wf = true) : t.Inv where
  bpBuffer := by simp [State.BpBufferOk, h.bpFree, h.bpBuf]
  buBuffer := by simp [State.BuBufferOk, h.buAvail, h.buBuf]
  counters := by simp [State.CountersOk, h.bpBytes, h.buBytes]
  treeFits := by simp [State.TreeFits, h.tree]
  codeTree := .inl h.codeAt
  attached := ⟨fun hb => absurd h.bpStatus hb, fun hb => absurd h.buStatus hb⟩
  cursors := hc
  counts := by simp [State.CountsAreTrue, h.bpStatus, h.buStatus]
  params := hp

end Sys2Proof.Machine
end

section
/-! PROOFS. Every command and every move of the host keeps the invariant. -/

namespace Sys2Proof.Machine

variable {s t : State}

/-! ## The invariant under single writes -/

theorem State.Inv.setFreq (h : s.Inv) (f : Vector Word32 256) : (s.setFreq f).Inv :=
  ⟨h.bpBuffer, h.buBuffer, h.counters, h.treeFits, h.codeTree, h.attached, h.cursors, h.counts, h.params⟩

theorem State.Inv.setRawOut (h : s.Inv) (l : List Byte) : (s.setRawOut l).Inv :=
  ⟨h.bpBuffer, h.buBuffer, h.counters, h.treeFits, h.codeTree, h.attached, h.cursors, h.counts, h.params⟩

theorem State.Inv.setRawIn (h : s.Inv) {r : RawIn} (hr : r.pos ≤ r.data.length) : (s.setRawIn r).Inv :=
  ⟨h.bpBuffer, h.buBuffer, h.counters, h.treeFits, h.codeTree, h.attached, ⟨h.cursors.1, hr⟩, h.counts, h.params⟩

/-- SINK is free while the write channel is IDLE (R49). -/
theorem State.Inv.setSink (h : s.Inv) (hi : s.bpStatus = .idle) (k : Sink) : (s.setSink k).Inv :=
  ⟨h.bpBuffer, h.buBuffer, h.counters, h.treeFits, h.codeTree, ⟨fun hb => absurd hi hb, h.attached.2⟩, h.cursors,
    ⟨fun hb => (nomatch hi.symm.trans hb), h.counts.2⟩, h.params⟩

/-- SRC is free, but for its cursor, while the read channel is IDLE (R49). -/
theorem State.Inv.setSrc (h : s.Inv) (hi : s.buStatus = .idle) {r : Src} (hr : r.pos ≤ r.data.length) :
    (s.setSrc r).Inv :=
  ⟨h.bpBuffer, h.buBuffer, h.counters, h.treeFits, h.codeTree, ⟨h.attached.1, fun hb => absurd hi hb⟩,
    ⟨hr, h.cursors.2⟩, ⟨h.counts.1, fun hb => nomatch hi.symm.trans hb⟩, h.params⟩

/-- The read channel goes to IDLE. -/
theorem State.Inv.buIdle (h : s.Inv) : (s.setBuStatus .idle).Inv :=
  ⟨h.bpBuffer, h.buBuffer, h.counters, h.treeFits, h.codeTree, ⟨h.attached.1, fun hb => absurd rfl hb⟩, h.cursors,
    ⟨h.counts.1, fun hb => nomatch hb⟩, h.params⟩

/-- A detached SRC belongs to no read channel (R49). -/
theorem State.Inv.buStatus_idle (h : s.Inv) (ha : s.src.attached ≠ true) : s.buStatus = .idle :=
  not_not.mp fun hb => ha (h.attached.2 hb)

/-! ## The commands -/

theorem buReadable_inv (h : s.Inv) : (buReadable s).Post (fun _ t => t.Inv) State.Inv :=
  (buReadable_only s).mono (fun _ _ k => k ▸ h) fun _ k => k.elim

theorem theTree_inv (h : s.Inv) : (theTree s).Post (fun u t => t.Inv ∧ t.tree = some u) State.Inv :=
  (theTree_only s).mono (fun _ _ k => k.2 ▸ ⟨h, k.1⟩) fun _ k => k.elim

theorem buClose_inv (h : s.Inv) : (buClose s).Post (fun _ t => t.Inv) State.Inv :=
  (buReadable_inv h).bind fun _ _ k => k.buIdle.setSrc rfl k.cursors.1

theorem build_inv (h : s.Inv) : (build s).Post (fun _ t => t.Inv) State.Inv := by
  unfold build
  split
  · trivial
  · exact h.buildTree (by omega)

theorem serialize_inv (h : s.Inv) : (serialize s).Post (fun _ t => t.Inv) State.Inv :=
  (theTree_inv h).bind fun u _ k => emit_inv u k.1

theorem makeCodeTable_inv (h : s.Inv) : (makeCodeTable s).Post (fun _ t => t.Inv) State.Inv :=
  (theTree_inv h).bind fun _ _ k => k.1.codeTable k.2

/-- A fresh write channel has an empty buffer, a zero count and an attached empty SINK (R101). -/
theorem bpOpened_inv (h : s.Inv) : (bpOpened s).2.Inv := by
  unfold bpOpened
  rcases s.sinkOpen_cases with hw | hw <;> rw [hw]
  · exact ⟨⟨by simp, by simp⟩, h.buBuffer, ⟨Nat.zero_le _, h.counters.2⟩, h.treeFits, h.codeTree,
      ⟨fun _ => ⟨rfl, rfl⟩, h.attached.2⟩, h.cursors, ⟨fun _ => rfl, h.counts.2⟩, h.params⟩
  · exact h.setHost _

/-- A fresh read channel has an empty buffer, a zero count and an attached SRC with its cursor at 0 (R121). -/
theorem buOpened_inv (h : s.Inv) : (buOpened s).2.Inv := by
  unfold buOpened
  rcases s.srcOpen_cases with hw | hw <;> rw [hw]
  · exact ⟨h.bpBuffer, ⟨by simp, by simp⟩, ⟨h.counters.1, Nat.zero_le _⟩, h.treeFits, h.codeTree,
      ⟨h.attached.1, fun _ => rfl⟩, ⟨Nat.zero_le _, h.cursors.2⟩, ⟨h.counts.1, fun _ => rfl⟩, h.params⟩
  · exact h.setHost _

theorem execBpOpen_inv (h : s.Inv) (he : execBpOpen s = .next t) : t.Inv := by
  unfold execBpOpen at he
  split at he <;> cases he
  exact (bpOpened_inv h).setResult _

theorem execBuOpen_inv (h : s.Inv) (he : execBuOpen s = .next t) : t.Inv := by
  unfold execBuOpen at he
  split at he <;> cases he
  exact (buOpened_inv h).setResult _

/-- A command ends by recording its result, of which the invariant says nothing. -/
theorem Flow.Post.finish_inv {P : Value → State → Prop} {x : Flow Value} (hx : x.Post P State.Inv)
    (hP : ∀ v u, P v u → u.Inv) (he : x.finish = .next t) : t.Inv :=
  hx.finish hP (fun _ r k => k.setResult r) he

/-- A command whose value is read off the answer of its lines. -/
theorem Flow.Post.finish_ret_inv {α : Type} {x : Flow α} {g : α → Value} (hx : x.Post (fun _ u => u.Inv) State.Inv)
    (he : (x.bind fun a u => .ret (g a) u).finish = .next t) : t.Inv :=
  (hx.bind (f := fun a u => .ret (g a) u) (P' := fun _ u => u.Inv) fun _ _ k => k).finish_inv (fun _ _ k => k) he

theorem execBuReadBit_inv (h : s.Inv) (he : execBuReadBit s = .next t) : t.Inv := by
  refine ((readBit_inv h).bind (P' := fun _ u => u.Inv) fun r u k => ?_).finish_inv (fun _ _ k => k) he
  cases r <;> exact k.1

theorem exec_inv {i : Instr} (h : s.Inv) (he : exec i s = .next t) : t.Inv := by
  cases i with
  | bpOpen => exact execBpOpen_inv h he
  | bpWriteBit bit => exact ((writeBit_inv bit h).mono (fun _ _ k => k.1) fun _ k => k).finish_ret_inv he
  | bpWriteLength n => exact (writeLength_inv n h).finish_ret_inv he
  | bpClose => exact (bpClose_inv h).finish_ret_inv he
  | buOpen => exact execBuOpen_inv h he
  | buReadBit => exact execBuReadBit_inv h he
  | buReadLength => exact (readLength_inv h).finish_ret_inv he
  | buClose => exact (buClose_inv h).finish_ret_inv he
  | tsBuild => exact (build_inv h).finish_ret_inv he
  | tsSerialize => exact (serialize_inv h).finish_ret_inv he
  | tsDeserialize => exact (deserialize_inv h).finish_ret_inv he
  | tsSize => exact ((theTree_inv h).mono (fun _ _ k => k.1) fun _ k => k).finish_ret_inv he
  | tsCodetable => exact (makeCodeTable_inv h).finish_ret_inv he
  | heCompress => exact (compress_inv h).finish_ret_inv he
  | hdDecompress => exact (decompress_inv h).finish_ret_inv he
  | tokenInternal => exact ((writeBit_inv false h).mono (fun _ _ k => k.1) fun _ k => k).finish_ret_inv he
  | tokenLeaf sym => exact (emitLeaf_inv sym h).finish_ret_inv he
  | lengthHeader n => exact (writeLength_inv n h).finish_ret_inv he
  | bpBytes | buBytes | tsCodeGet => cases he; exact h.setResult _
  | tsFreqClear | tsFreqSet => cases he; exact (h.setFreq _).setResult _

/-! ## The moves of the host -/

/-- A cursor that a cut may leave lies within its stream (R33, U8). -/
theorem srcPoint_cursor {whole : State} {c : Src} (h : srcPoint s whole c = true)
    (hs : s.src.pos ≤ s.src.data.length) : c.pos ≤ c.data.length := by
  rcases (srcPoint_iff s whole c).mp h with rfl | ⟨-, hpos, -⟩
  · exact hs
  · exact hpos

theorem rawInPoint_cursor {c : RawIn} (h : rawInPoint s c = true) (hs : s.rawIn.pos ≤ s.rawIn.data.length) :
    c.pos ≤ c.data.length := by
  rcases (rawInPoint_iff s c).mp h with rfl | ⟨-, -, hpos, -⟩
  · exact hs
  · exact hpos

/-- The cursors of a possible cut lie within their streams, whichever streams the instruction uses. -/
theorem cutAdmissible_cursors {i : Instr} {c : Cut} (h : cutAdmissible i s c = true) (hs : s.CursorsOk) :
    c.src.pos ≤ c.src.data.length ∧ c.rawIn.pos ≤ c.rawIn.data.length := by
  obtain ⟨-, ⟨hsrc, hsrc'⟩, ⟨hraw, hraw'⟩, -⟩ := (cutAdmissible_iff i s c).mp h
  constructor
  · by_cases hd : drivesUnpacker i = true ∨ switchesUnpacker i = true
    · exact srcPoint_cursor (hsrc hd) hs.1
    · rw [not_or, Bool.not_eq_true, Bool.not_eq_true] at hd
      have hc : c.src = s.src := hsrc' hd.1 hd.2
      exact hc ▸ hs.1
  · by_cases hc : compresses i = true
    · exact rawInPoint_cursor (hraw hc) hs.2
    · have hr : c.rawIn = s.rawIn := hraw' (Bool.eq_false_iff.mpr hc)
      exact hr ▸ hs.2

theorem runItem_inv {item : Item} (h : s.Inv) (he : runItem item s = .next t) : t.Inv := by
  unfold runItem at he
  split at he
  · exact exec_inv h he
  · cases he

theorem runItemCut_inv {item : Item} {c : Cut} (h : s.Inv) (he : runItemCut item c s = .next t) : t.Inv := by
  unfold runItemCut at he
  split at he
  · obtain ⟨hadm, rfl⟩ := cutCommand_next he
    exact (cutReset_registersReset _ s c).inv (cutAdmissible_cursors hadm h.cursors) h.params
  · cases he

theorem presentSrc_inv {data : List Byte} (h : s.Inv) (he : presentSrc data s = .next t) : t.Inv := by
  unfold presentSrc at he
  split at he
  · cases he
  · cases he
    exact h.setSrc (h.buStatus_idle (by assumption)) (Nat.zero_le _)

theorem hostReleasesSink_inv (h : s.Inv) (he : hostReleasesSink s = .next t) : t.Inv := by
  unfold hostReleasesSink at he
  split at he <;> cases he
  exact h.setSink (by assumption) _

theorem hostReleasesSrc_inv (h : s.Inv) (he : hostReleasesSrc s = .next t) : t.Inv := by
  unfold hostReleasesSrc at he
  split at he <;> cases he
  exact h.setSrc (by assumption) h.cursors.1

theorem perform_inv {m : HostMove} (h : s.Inv) (he : perform m s = .next t) : t.Inv := by
  cases m with
  | issue item => exact runItem_inv h he
  | reset => cases he; exact (resetCore_registersReset s).inv h.cursors h.params
  | resetDuring item c => exact runItemCut_inv h he
  | presentSrc data => exact presentSrc_inv h he
  | presentRawIn data => cases he; exact h.setRawIn (Nat.zero_le _)
  | supplyRawOut => cases he; exact h.setRawOut []
  | releaseSink => exact hostReleasesSink_inv h he
  | releaseSrc => exact hostReleasesSrc_inv h he

theorem step_inv (h : s.Inv) (he : step s = .next t) : t.Inv := by
  unfold step at he
  split at he
  · cases he; exact h
  · exact perform_inv (h.setInbox _) he

end Sys2Proof.Machine
end

section
/-! PROOFS. Which registers an instruction may write: the frame R29 gives it. -/

namespace Sys2Proof.Machine

/-- The registers whose rows of R29 do not name `i` are the same in both states. -/
structure RegisterFrame (i : Instr) (s t : State) : Prop where
  packer : drivesPacker i = false →
    t.bpStatus = s.bpStatus ∧ t.bpBuf = s.bpBuf ∧ t.bpFree = s.bpFree ∧ t.bpBytes = s.bpBytes
  buStatus : switchesUnpacker i = false → t.buStatus = s.buStatus
  unpacker : drivesUnpacker i = false → t.buBuf = s.buBuf ∧ t.buAvail = s.buAvail ∧ t.buBytes = s.buBytes
  freq : writesFreq i = false → t.freq = s.freq
  tree : writesTree i = false → t.tree = s.tree
  code : writesCode i = false → t.code = s.code
  heLen : compresses i = false → t.heLen = s.heLen
  hdRemaining : decompresses i = false → t.hdRemaining = s.hdRemaining

variable {i : Instr} {s t u : State}

theorem RegisterFrame.refl (i : Instr) (s : State) : RegisterFrame i s s := by constructor <;> simp

theorem RegisterFrame.trans (h : RegisterFrame i s t) (k : RegisterFrame i t u) : RegisterFrame i s u where
  packer hi := by
    obtain ⟨h1, h2, h3, h4⟩ := h.packer hi
    obtain ⟨k1, k2, k3, k4⟩ := k.packer hi
    exact ⟨k1.trans h1, k2.trans h2, k3.trans h3, k4.trans h4⟩
  buStatus hi := (k.buStatus hi).trans (h.buStatus hi)
  unpacker hi := by
    obtain ⟨h1, h2, h3⟩ := h.unpacker hi
    obtain ⟨k1, k2, k3⟩ := k.unpacker hi
    exact ⟨k1.trans h1, k2.trans h2, k3.trans h3⟩
  freq hi := (k.freq hi).trans (h.freq hi)
  tree hi := (k.tree hi).trans (h.tree hi)
  code hi := (k.code hi).trans (h.code hi)
  heLen hi := (k.heLen hi).trans (h.heLen hi)
  hdRemaining hi := (k.hdRemaining hi).trans (h.hdRemaining hi)

/-- A write channel's command keeps to its row. -/
theorem OnlyPacker.registerFrame (h : OnlyPacker s t) (hi : drivesPacker i = true) : RegisterFrame i s t where
  packer hf := by simp [hi] at hf
  buStatus _ := h.buStatus
  unpacker _ := ⟨h.buBuf, h.buAvail, h.buBytes⟩
  freq _ := h.freq
  tree _ := h.tree
  code _ := h.code
  heLen _ := h.heLen
  hdRemaining _ := h.hdRemaining

/-- A read channel's command keeps to its row. -/
theorem OnlyUnpacker.registerFrame (h : OnlyUnpacker s t) (hi : drivesUnpacker i = true) : RegisterFrame i s t where
  packer _ := ⟨h.bpStatus, h.bpBuf, h.bpFree, h.bpBytes⟩
  buStatus _ := h.buStatus
  unpacker hf := by simp [hi] at hf
  freq _ := h.freq
  tree _ := h.tree
  code _ := h.code
  heLen _ := h.heLen
  hdRemaining _ := h.hdRemaining

/-! ## Single writes -/

theorem RegisterFrame.setResult (h : RegisterFrame i s t) (r : Option Result) : RegisterFrame i s (t.setResult r) :=
  ⟨h.packer, h.buStatus, h.unpacker, h.freq, h.tree, h.code, h.heLen, h.hdRemaining⟩

theorem setFreq_registerFrame (f : Vector Word32 256) (hi : writesFreq i = true) :
    RegisterFrame i s (s.setFreq f) := by constructor <;> simp [hi]

theorem setTree_registerFrame (x : Option Tree) (hi : writesTree i = true) :
    RegisterFrame i s (s.setTree x) := by constructor <;> simp [hi]

theorem setCode_registerFrame (c : Vector (Option Bits) 256) (hi : writesCode i = true) :
    RegisterFrame i s (s.setCode c) := by constructor <;> simp [hi]

theorem setHeLen_registerFrame (n : Word32) (hi : compresses i = true) :
    RegisterFrame i s (s.setHeLen n) := by constructor <;> simp [hi]

theorem setHdRemaining_registerFrame (n : Word32) (hi : decompresses i = true) :
    RegisterFrame i s (s.setHdRemaining n) := by constructor <;> simp [hi]

theorem rawInRead_registerFrame (i : Instr) (s : State) : RegisterFrame i s s.rawInRead.2 := by
  rcases s.rawInRead_cases with ⟨b, _, h⟩ | ⟨_, h⟩ <;> rw [h] <;> constructor <;> simp

theorem rawOutWrite_registerFrame (i : Instr) (s : State) (b : Byte) : RegisterFrame i s (s.rawOutWrite b).2 := by
  rcases s.rawOutWrite_cases b with h | ⟨left, h⟩ <;> rw [h] <;> constructor <;> simp

/-! ## Pieces of pseudocode -/

variable {α : Type}

/-- A piece of pseudocode, started in `s`, writes only what `i` may write. -/
def Flow.KeepsFrame (i : Instr) (s : State) (x : Flow α) : Prop :=
  x.Post (fun _ t => RegisterFrame i s t) (RegisterFrame i s)

/-- What ran before the piece also wrote only what `i` may write. -/
theorem Flow.KeepsFrame.after {x : Flow α} (hx : x.KeepsFrame i t) (h : RegisterFrame i s t) : x.KeepsFrame i s :=
  hx.mono (fun _ _ k => h.trans k) fun _ k => h.trans k

theorem Flow.Post.packerFrame {x : Flow α} (hx : x.Post (fun _ t => OnlyPacker s t) (OnlyPacker s))
    (hi : drivesPacker i = true) : x.KeepsFrame i s :=
  hx.mono (fun _ _ k => k.registerFrame hi) fun _ k => k.registerFrame hi

theorem Flow.Post.unpackerFrame {x : Flow α} (hx : x.Post (fun _ t => OnlyUnpacker s t) (OnlyUnpacker s))
    (hi : drivesUnpacker i = true) : x.KeepsFrame i s :=
  hx.mono (fun _ _ k => k.registerFrame hi) fun _ k => k.registerFrame hi

theorem readBit_keepsFrame (s : State) (hi : drivesUnpacker i = true) : (readBit s).KeepsFrame i s :=
  (readBit_only s).mono (fun _ _ k => k.registerFrame hi) fun _ k => k.elim

theorem buReadable_keepsFrame (i : Instr) (s : State) : (buReadable s).KeepsFrame i s :=
  (buReadable_only s).mono (fun _ _ k => k ▸ .refl i s) fun _ k => k.elim

theorem theTree_keepsFrame (i : Instr) (s : State) : (theTree s).KeepsFrame i s :=
  (theTree_only s).mono (fun _ _ k => k.2 ▸ .refl i s) fun _ k => k.elim

theorem buClose_keepsFrame (s : State) : (buClose s).KeepsFrame .buClose s :=
  (buReadable_keepsFrame .buClose s).bind fun _ _ k =>
    k.trans (by constructor <;> simp [State.srcRelease, switchesUnpacker])

theorem storeBuiltTree_registerFrame (s : State) (x : Option Tree) (ht : writesTree i = true)
    (hc : writesCode i = true) : RegisterFrame i s (s.clearCode.setTree x) :=
  (setCode_registerFrame _ hc).trans (setTree_registerFrame x ht)

theorem build_keepsFrame (s : State) : (build s).KeepsFrame .tsBuild s := by
  unfold build
  split
  · trivial
  · exact storeBuiltTree_registerFrame s _ rfl rfl

theorem makeCodeTable_keepsFrame (s : State) : (makeCodeTable s).KeepsFrame .tsCodetable s :=
  (theTree_keepsFrame _ s).bind fun _ _ k => k.trans (setCode_registerFrame _ rfl)

/-- TS_DESERIALIZE, by itself and as the first step of HD_DECOMPRESS (R153, R186). -/
theorem deserialize_keepsFrame (s : State) (hu : drivesUnpacker i = true) (ht : writesTree i = true)
    (hc : writesCode i = true) : (deserialize s).KeepsFrame i s :=
  (deserialize_post (RegisterFrame.refl i s)
    (fun _ k => (k.trans (setTree_registerFrame none ht)).trans (setCode_registerFrame _ hc))
    (fun u fuel count k => ((parse_only fuel count u).unpackerFrame hu).after k)
    fun _ x k _ _ => k.trans (setTree_registerFrame (some x) ht)).mono (fun _ _ k => k.1) fun _ k => k.1

theorem compress_keepsFrame (s : State) : (compress s).KeepsFrame .heCompress s :=
  compress_post (RegisterFrame.refl .heCompress s)
    (fun u k => k.trans (rawInRead_registerFrame _ u))
    (fun _ k => k.trans (by constructor <;> simp [State.rawInRewind]))
    (fun _ f n k => (k.trans (setFreq_registerFrame f rfl)).trans (setHeLen_registerFrame n rfl))
    (fun _ n f k => (k.trans (setHeLen_registerFrame n rfl)).trans (setFreq_registerFrame f rfl))
    (fun u k _ => k.trans (storeBuiltTree_registerFrame u _ rfl rfl))
    (fun _ _ k _ => k.trans (setCode_registerFrame _ rfl))
    (fun u bits k => ((writeBits_only bits u).packerFrame rfl).after k)
    (fun u n k => ((writeLength_only n u).packerFrame rfl).after k)
    fun u k => ((bpClose_only u).packerFrame rfl).after k

theorem decompress_keepsFrame (s : State) : (decompress s).KeepsFrame .hdDecompress s :=
  decompress_post (RegisterFrame.refl .hdDecompress s)
    (fun _ k => (k.trans (setTree_registerFrame none rfl)).trans (setCode_registerFrame _ rfl))
    (fun u fuel count k => ((parse_only fuel count u).unpackerFrame rfl).after k)
    (fun _ x k _ _ => k.trans (setTree_registerFrame (some x) rfl))
    (fun u k => ((readLength_only u).unpackerFrame rfl).after k)
    (fun u x k => ((decodeOne_only x u).unpackerFrame rfl).after k)
    (fun u b k => k.trans (rawOutWrite_registerFrame _ u b))
    (fun _ n k => k.trans (setHdRemaining_registerFrame n rfl))

/-! ## The commands -/

/-- A command whose lines write only what it may write, and whose value is read off their answer. -/
theorem Flow.KeepsFrame.finish_ret {x : Flow α} {g : α → Value} (hx : x.KeepsFrame i s)
    (he : (x.bind fun a u => .ret (g a) u).finish = .next t) : RegisterFrame i s t :=
  Flow.Post.finish (Flow.Post.bind (f := fun a u => .ret (g a) u) (P' := fun _ u => RegisterFrame i s u) hx
    fun _ _ k => k) (fun _ _ k => k) (fun _ r k => k.setResult r) he

theorem execBpOpen_registerFrame (he : execBpOpen s = .next t) : RegisterFrame .bpOpen s t := by
  unfold execBpOpen bpOpened at he
  split at he <;> cases he
  rcases s.sinkOpen_cases with h | h <;> rw [h] <;> constructor <;> simp [drivesPacker]

theorem execBuOpen_registerFrame (he : execBuOpen s = .next t) : RegisterFrame .buOpen s t := by
  unfold execBuOpen buOpened at he
  split at he <;> cases he
  rcases s.srcOpen_cases with h | h <;> rw [h] <;> constructor <;> simp [drivesUnpacker, switchesUnpacker]

theorem execBuReadBit_registerFrame (he : execBuReadBit s = .next t) : RegisterFrame .buReadBit s t := by
  refine Flow.Post.finish (Flow.Post.bind (P' := fun _ u => RegisterFrame .buReadBit s u)
    (readBit_keepsFrame s rfl) fun r u k => ?_) (fun _ _ k => k) (fun _ r k => k.setResult r) he
  cases r <;> exact k

theorem exec_registerFrame (he : exec i s = .next t) : RegisterFrame i s t := by
  cases i with
  | bpOpen => exact execBpOpen_registerFrame he
  | bpWriteBit bit => exact ((writeBit_only bit s).packerFrame rfl).finish_ret he
  | bpWriteLength n => exact ((writeLength_only n s).packerFrame rfl).finish_ret he
  | bpClose => exact ((bpClose_only s).packerFrame rfl).finish_ret he
  | buOpen => exact execBuOpen_registerFrame he
  | buReadBit => exact execBuReadBit_registerFrame he
  | buReadLength => exact ((readLength_only s).unpackerFrame rfl).finish_ret he
  | buClose => exact (buClose_keepsFrame s).finish_ret he
  | tsBuild => exact (build_keepsFrame s).finish_ret he
  | tsSerialize => exact ((serialize_only s).packerFrame rfl).finish_ret he
  | tsDeserialize => exact (deserialize_keepsFrame s rfl rfl rfl).finish_ret he
  | tsSize => exact (theTree_keepsFrame _ s).finish_ret he
  | tsCodetable => exact (makeCodeTable_keepsFrame s).finish_ret he
  | heCompress => exact (compress_keepsFrame s).finish_ret he
  | hdDecompress => exact (decompress_keepsFrame s).finish_ret he
  | tokenInternal => exact ((writeBit_only false s).packerFrame rfl).finish_ret he
  | tokenLeaf sym => exact ((emitLeaf_only sym s).packerFrame rfl).finish_ret he
  | lengthHeader n => exact ((writeLength_only n s).packerFrame rfl).finish_ret he
  | bpBytes | buBytes | tsCodeGet => cases he; exact (RegisterFrame.refl _ s).setResult _
  | tsFreqClear | tsFreqSet => cases he; exact (setFreq_registerFrame _ rfl).setResult _

end Sys2Proof.Machine
end

section
/-! PROOFS. The tree built for two or more symbols (10_state.md R22, 42_canonical_tree_serializer.md R147). -/

namespace Sys2Proof.Machine

/-- The leaves of a tree built for two or more symbols are those symbols, each once. -/
theorem buildTree_symbols {freq : Vector Word32 256} (h : 2 ≤ (symbolsOf freq).length) :
    (buildTree freq).symbols.Perm (symbolsOf freq) := by
  unfold buildTree
  match symbolsOf freq, h with
  | a :: b :: rest, _ => exact treeOfSymbols_symbols freq a b rest

theorem symbolsOf_length_le (freq : Vector Word32 256) : (symbolsOf freq).length ≤ 256 := by
  have h := List.length_filter_le (fun e : Word32 × Nat => e.1 != 0) freq.toList.zipIdx
  simpa [symbolsOf] using h

/-- Only a tree that is a single leaf has an empty path. -/
theorem Tree.path_ne_nil {t : Tree} (h : 2 ≤ t.leaves) {e : Byte × Bits} (he : e ∈ t.paths) : e.2 ≠ [] := by
  cases t with
  | leaf s => simp [Tree.leaves] at h
  | internal l r =>
    simp only [Tree.paths, List.mem_append, List.mem_map] at he
    rcases he with ⟨a, -, rfl⟩ | ⟨a, -, rfl⟩ <;> exact List.cons_ne_nil _ _

/-- The codes of two symbols are the paths of two leaves (R84). -/
theorem Tree.table_prefixFree (t : Tree) {a b : Byte} {p q : Bits} (hab : a ≠ b) (ha : t.table a = some p)
    (hb : t.table b = some q) : ¬ p <+: q := by
  have : Std.Symm fun a b : Byte × Bits => ¬ a.2 <+: b.2 ∧ ¬ b.2 <+: a.2 := ⟨fun _ _ h => h.symm⟩
  have hne : (a, p) ≠ (b, q) := fun h => hab (congrArg Prod.fst h)
  exact (t.paths_prefixFree.forall (Tree.table_mem ha) (Tree.table_mem hb) hne).1

end Sys2Proof.Machine
end

section
/-! PROOFS. The statements of 10_state.md. -/

namespace Sys2Proof.Machine

/-- Settles O9: a step is one move of the host; each sub-operation of a command keeps the invariant, and a reset, cut or
not, leaves both units IDLE with the cursors within their streams. -/
theorem stepKeepsTheInvariant : Obligations.StepKeepsTheInvariant :=
  fun _ _ h he => step_inv h he

/-- Settles O13: the instruction's frame, from the frames of its sub-operations. -/
theorem registersHaveTheirWriters : Obligations.RegistersHaveTheirWriters := by
  intro i s t he
  have h := exec_registerFrame he
  exact ⟨h.packer, h.buStatus, h.unpacker, h.freq, h.tree, h.code, h.heLen, h.hdRemaining⟩

/-- Settles O37: the leaves are a permutation of the counted symbols, so that their number bounds the nodes and these
the depth; the codes are paths of leaves, none of them empty and no two comparable (`Tree.paths_prefixFree`). -/
theorem builtTreesMeetTheInvariants : Obligations.BuiltTreesMeetTheInvariants := by
  intro freq h t
  have hperm : t.symbols.Perm (symbolsOf freq) := buildTree_symbols h
  have hleaves : t.leaves = (symbolsOf freq).length := t.symbols_length.symm.trans hperm.length_eq
  have hle := symbolsOf_length_le freq
  have hnodes := t.nodes_eq
  have hdepth := t.depth_bound
  refine ⟨hperm.nodup_iff.mpr (symbolsOf_nodup freq), fun sym => hperm.mem_iff.trans (mem_symbolsOf freq sym), hleaves,
    by omega, hnodes, by omega, by omega, fun sym p hp => ?_, fun a b p q hab ha hb => t.table_prefixFree hab ha hb⟩
  exact Tree.path_ne_nil (by omega) (Tree.table_mem hp)

/-- Settles O7: the values of the first state and of the state after the host's reset are the same structure's. -/
theorem resetGivesTheStatedValues : Obligations.ResetGivesTheStatedValues := by
  unfold Obligations.ResetGivesTheStatedValues
  intro stated
  have hstated (t : State) (h : RegistersReset t) : stated t :=
    ⟨h.bpStatus, h.bpBuf, h.bpFree, h.bpBytes, h.buStatus, h.buBuf, h.buAvail, h.buBytes, h.freqAt, h.tree, h.codeAt,
      h.heLen, h.hdRemaining⟩
  refine ⟨hstated _ reset_registersReset, fun s rest hs => ⟨resetCore (s.setInbox rest), ?_, ?_, rfl, rfl, rfl, rfl⟩⟩
  · simp only [step, hs, perform]
  · exact hstated _ (resetCore_registersReset _)

/-- Settles O10: the registers are reset and the cursors stand at 0 in empty streams (log 8). -/
theorem resetMeetsTheInvariant : Obligations.ResetMeetsTheInvariant :=
  reset_registersReset.inv ⟨Nat.zero_le _, Nat.zero_le _⟩ rfl

end Sys2Proof.Machine
end

section
/-! PROOFS. Which host-side streams an instruction may touch: the frame R48 gives it. -/

namespace Sys2Proof.Machine

/-! ## Pieces of pseudocode that keep a property of the state -/

section Keeps
variable {α β : Type} {R : State → Prop} {t : State}

/-- A piece of pseudocode leaves `R`, wherever it runs on or ends the command. -/
def Flow.Keeps (R : State → Prop) (x : Flow α) : Prop := x.Post (fun _ t => R t) R

theorem Flow.Keeps.bind {x : Flow α} {f : α → State → Flow β} (hx : x.Keeps R) (hf : ∀ a u, R u → (f a u).Keeps R) :
    (x.bind f).Keeps R :=
  Flow.Post.bind hx hf

/-- The command that ends with such a piece leaves `R`, if recording the result does. -/
theorem Flow.Keeps.finish {x : Flow Value} (hx : x.Keeps R) (hr : ∀ u r, R u → R (u.setResult r))
    (he : x.finish = .next t) : R t :=
  Flow.Post.finish hx (fun _ _ k => k) hr he

/-- A command whose value is read off the answer of its lines. -/
theorem Flow.Keeps.finish_ret {x : Flow α} {g : α → Value} (hx : x.Keeps R) (hr : ∀ u r, R u → R (u.setResult r))
    (he : (x.bind fun a u => .ret (g a) u).finish = .next t) : R t :=
  Flow.Keeps.finish (hx.bind (f := fun a u => .ret (g a) u) fun _ _ k => k) hr he

/-- The test that opens the write channel's data commands changes nothing. -/
theorem bpWritable_keeps {s : State} (h : R s) : (bpWritable s).Keeps R :=
  (bpWritable_only s).mono (fun _ _ k => k ▸ h) fun _ k => k ▸ h

/-- The test that opens the read channel's data commands changes nothing. -/
theorem buReadable_keeps {s : State} (h : R s) : (buReadable s).Keeps R :=
  (buReadable_only s).mono (fun _ _ k => k ▸ h) fun _ k => k.elim

/-- Looking up the tree changes nothing. -/
theorem theTree_keeps {s : State} (h : R s) : (theTree s).Keeps R :=
  (theTree_only s).mono (fun _ _ k => k.2 ▸ h) fun _ k => k.elim

end Keeps

/-! ## The frame -/

/-- The streams whose columns of R48 do not name `i` are the same in both states, and so are the host's coming answers
if `i` asks for none. -/
structure StreamFrame (i : Instr) (s t : State) : Prop where
  sink : drivesPacker i = false → t.sink = s.sink
  src : drivesUnpacker i = false → switchesUnpacker i = false → t.src = s.src
  srcAttached : switchesUnpacker i = false → t.src.attached = s.src.attached
  rawIn : compresses i = false → t.rawIn = s.rawIn
  rawOut : decompresses i = false → t.rawOut = s.rawOut
  host : asksTheHost i = false → t.host = s.host

variable {i : Instr} {s t u : State}

theorem StreamFrame.refl (i : Instr) (s : State) : StreamFrame i s s := by constructor <;> simp

theorem StreamFrame.trans (h : StreamFrame i s t) (k : StreamFrame i t u) : StreamFrame i s u where
  sink hi := (k.sink hi).trans (h.sink hi)
  src hd hs := (k.src hd hs).trans (h.src hd hs)
  srcAttached hi := (k.srcAttached hi).trans (h.srcAttached hi)
  rawIn hi := (k.rawIn hi).trans (h.rawIn hi)
  rawOut hi := (k.rawOut hi).trans (h.rawOut hi)
  host hi := (k.host hi).trans (h.host hi)

/-- Every command that drives the packer may call a primitive the host can fail. -/
theorem asksTheHost_of_drivesPacker (hi : drivesPacker i = true) : asksTheHost i = true := by
  cases i <;> simp_all [drivesPacker, asksTheHost]

theorem OnlyPacker.streamFrame (h : OnlyPacker s t) (hi : drivesPacker i = true) : StreamFrame i s t where
  sink hf := by simp [hi] at hf
  src _ _ := h.src
  srcAttached _ := congrArg Src.attached h.src
  rawIn _ := h.rawIn
  rawOut _ := h.rawOut
  host hf := by simp [asksTheHost_of_drivesPacker hi] at hf

theorem OnlyUnpacker.streamFrame (h : OnlyUnpacker s t) (hi : drivesUnpacker i = true) : StreamFrame i s t where
  sink _ := h.sink
  src hf := by simp [hi] at hf
  srcAttached _ := h.srcAttached
  rawIn _ := h.rawIn
  rawOut _ := h.rawOut
  host _ := h.host

/-! ## Single writes -/

/-- Register writes touch no stream: the five equations hold by definition where `u` is `t` with registers written. -/
theorem StreamFrame.of_same (h : StreamFrame i s t) (hsink : u.sink = t.sink := by rfl)
    (hsrc : u.src = t.src := by rfl) (hrawIn : u.rawIn = t.rawIn := by rfl)
    (hrawOut : u.rawOut = t.rawOut := by rfl) (hhost : u.host = t.host := by rfl) : StreamFrame i s u :=
  h.trans (by constructor <;> simp [hsink, hsrc, hrawIn, hrawOut, hhost])

theorem StreamFrame.setResult (h : StreamFrame i s t) (r : Option Result) : StreamFrame i s (t.setResult r) :=
  h.of_same

theorem StreamFrame.setCode (h : StreamFrame i s t) (c : Vector (Option Bits) 256) : StreamFrame i s (t.setCode c) :=
  h.of_same

theorem StreamFrame.setRawIn (h : StreamFrame i s t) (hi : compresses i = true) (r : RawIn) :
    StreamFrame i s (t.setRawIn r) :=
  h.trans (by constructor <;> simp [hi])

theorem StreamFrame.rawInRead (h : StreamFrame i s t) (hi : compresses i = true) : StreamFrame i s t.rawInRead.2 := by
  rcases t.rawInRead_cases with ⟨b, -, hr⟩ | ⟨-, hr⟩ <;> rw [hr]
  · exact h.setRawIn hi _
  · exact h

/-- HD_DECOMPRESS alone calls RawOutWrite, and it asks the host. -/
theorem StreamFrame.rawOutWrite (h : StreamFrame .hdDecompress s t) (b : Byte) :
    StreamFrame .hdDecompress s (t.rawOutWrite b).2 :=
  h.trans (by
    rcases t.rawOutWrite_cases b with hw | ⟨left, hw⟩ <;> rw [hw] <;> constructor <;> simp [decompresses, asksTheHost])

/-! ## Pieces of pseudocode -/

variable {α : Type}

theorem Flow.Post.packerStreams {x : Flow α} (hx : x.Post (fun _ v => OnlyPacker t v) (OnlyPacker t))
    (h : StreamFrame i s t) (hi : drivesPacker i = true) : x.Keeps (StreamFrame i s) :=
  hx.mono (fun _ _ k => h.trans (k.streamFrame hi)) fun _ k => h.trans (k.streamFrame hi)

theorem Flow.Post.unpackerStreams {x : Flow α} (hx : x.Post (fun _ v => OnlyUnpacker t v) (OnlyUnpacker t))
    (h : StreamFrame i s t) (hi : drivesUnpacker i = true) : x.Keeps (StreamFrame i s) :=
  hx.mono (fun _ _ k => h.trans (k.streamFrame hi)) fun _ k => h.trans (k.streamFrame hi)

theorem buClose_keepsStreams (s : State) : (buClose s).Keeps (StreamFrame .buClose s) :=
  (buReadable_keeps (StreamFrame.refl _ s)).bind fun _ _ k =>
    k.trans (by constructor <;> simp [State.srcRelease, switchesUnpacker])

theorem build_keepsStreams (i : Instr) (s : State) : (build s).Keeps (StreamFrame i s) := by
  unfold build
  split
  · trivial
  · exact (StreamFrame.refl i s).of_same

theorem makeCodeTable_keepsStreams (i : Instr) (s : State) : (makeCodeTable s).Keeps (StreamFrame i s) :=
  (theTree_keeps (StreamFrame.refl i s)).bind fun _ _ k => k.setCode _

theorem deserialize_keepsStreams (s : State) : (deserialize s).Keeps (StreamFrame .tsDeserialize s) :=
  (deserialize_post (StreamFrame.refl _ s)
    (fun _ k => k.of_same)
    (fun u fuel count k => (parse_only fuel count u).unpackerStreams k rfl)
    fun _ _ k _ _ => k.of_same).mono (fun _ _ k => k.1) fun _ k => k.1

theorem compress_keepsStreams (s : State) : (compress s).Keeps (StreamFrame .heCompress s) :=
  compress_post (StreamFrame.refl _ s)
    (fun _ k => k.rawInRead rfl)
    (fun _ k => k.setRawIn rfl _)
    (fun _ _ _ k => k.of_same)
    (fun _ _ _ k => k.of_same)
    (fun _ k _ => k.of_same)
    (fun _ _ k _ => k.setCode _)
    (fun u bits k => (writeBits_only bits u).packerStreams k rfl)
    (fun u n k => (writeLength_only n u).packerStreams k rfl)
    fun u k => (bpClose_only u).packerStreams k rfl

theorem decompress_keepsStreams (s : State) : (decompress s).Keeps (StreamFrame .hdDecompress s) :=
  decompress_post (StreamFrame.refl _ s)
    (fun _ k => k.of_same)
    (fun u fuel count k => (parse_only fuel count u).unpackerStreams k rfl)
    (fun _ _ k _ _ => k.of_same)
    (fun u k => (readLength_only u).unpackerStreams k rfl)
    (fun u x k => (decodeOne_only x u).unpackerStreams k rfl)
    (fun _ b k => k.rawOutWrite b)
    (fun _ _ k => k.of_same)

/-! ## The commands -/

/-- A packer's command touches SINK alone. -/
theorem Flow.Post.finish_packerStreams {x : Flow α} {g : α → Value}
    (hx : x.Post (fun _ v => OnlyPacker s v) (OnlyPacker s)) (hi : drivesPacker i = true)
    (he : (x.bind fun a u => .ret (g a) u).finish = .next t) : StreamFrame i s t :=
  (hx.packerStreams (.refl i s) hi).finish_ret (fun _ r k => k.setResult r) he

theorem execBpOpen_streamFrame (he : execBpOpen s = .next t) : StreamFrame .bpOpen s t := by
  unfold execBpOpen bpOpened at he
  split at he <;> cases he
  rcases s.sinkOpen_cases with h | h <;> rw [h] <;> constructor <;> simp [drivesPacker, asksTheHost]

theorem execBuOpen_streamFrame (he : execBuOpen s = .next t) : StreamFrame .buOpen s t := by
  unfold execBuOpen buOpened at he
  split at he <;> cases he
  rcases s.srcOpen_cases with h | h <;> rw [h] <;> constructor <;> simp [switchesUnpacker, asksTheHost]

theorem execBuReadBit_streamFrame (he : execBuReadBit s = .next t) : StreamFrame .buReadBit s t := by
  have hread : (readBit s).Keeps (StreamFrame .buReadBit s) :=
    (readBit_only s).mono (fun _ _ k => k.streamFrame rfl) fun _ k => k.elim
  refine (hread.bind fun r u k => ?_).finish (fun _ r k => k.setResult r) he
  cases r <;> exact k

theorem exec_streamFrame (he : exec i s = .next t) : StreamFrame i s t := by
  have hr : ∀ (u : State) (r : Option Result), StreamFrame i s u → StreamFrame i s (u.setResult r) :=
    fun _ r k => k.setResult r
  cases i with
  | bpOpen => exact execBpOpen_streamFrame he
  | bpWriteBit bit => exact (writeBit_only bit s).finish_packerStreams rfl he
  | bpWriteLength n => exact (writeLength_only n s).finish_packerStreams rfl he
  | bpClose => exact (bpClose_only s).finish_packerStreams rfl he
  | buOpen => exact execBuOpen_streamFrame he
  | buReadBit => exact execBuReadBit_streamFrame he
  | buReadLength => exact ((readLength_only s).unpackerStreams (.refl _ s) rfl).finish_ret hr he
  | buClose => exact (buClose_keepsStreams s).finish_ret hr he
  | tsBuild => exact (build_keepsStreams _ s).finish_ret hr he
  | tsSerialize => exact (serialize_only s).finish_packerStreams rfl he
  | tsDeserialize => exact (deserialize_keepsStreams s).finish_ret hr he
  | tsSize => exact (theTree_keeps (.refl _ s)).finish_ret hr he
  | tsCodetable => exact (makeCodeTable_keepsStreams _ s).finish_ret hr he
  | heCompress => exact (compress_keepsStreams s).finish_ret hr he
  | hdDecompress => exact (decompress_keepsStreams s).finish_ret hr he
  | tokenInternal => exact (writeBit_only false s).finish_packerStreams rfl he
  | tokenLeaf sym => exact (emitLeaf_only sym s).finish_packerStreams rfl he
  | lengthHeader n => exact (writeLength_only n s).finish_packerStreams rfl he
  | bpBytes | buBytes | tsFreqClear | tsFreqSet | tsCodeGet =>
    cases he; exact (StreamFrame.refl _ s).of_same

end Sys2Proof.Machine
end

section
/-! PROOFS. On a storage that never fails the output streams only grow (20_memory.md R42, R47, R55). -/

namespace Sys2Proof.Machine

variable {s t : State} {base : List Byte}

/-! ## SINK -/

/-- The storage never fails, and SINK begins with the bytes `base`. -/
structure SinkExtends (base : List Byte) (s : State) : Prop where
  data : base <+: s.sink.data
  host : s.host.NeverFails

/-- A SinkWrite that answers ok appends (R42). -/
theorem SinkExtends.append (h : SinkExtends base s) (b : Byte) (d : Bool) :
    SinkExtends base (s.drawn.setSink ⟨s.sink.data ++ [b], s.sink.attached, d⟩) :=
  ⟨h.data.trans (List.prefix_append _ _), h.host.advance⟩

theorem SinkExtends.setCode (h : SinkExtends base s) (c : Vector (Option Bits) 256) : SinkExtends base (s.setCode c) :=
  ⟨h.data, h.host⟩

theorem bpFlush_sinkExtends (h : SinkExtends base s) : (bpFlush s).Keeps (SinkExtends base) := by
  unfold bpFlush
  rw [State.sinkWrite_ok h.host.answer]
  split
  · trivial
  · have hk := h.append s.bpBuf false
    exact ⟨hk.data, hk.host⟩

theorem writeBit_sinkExtends (b : Bool) (h : SinkExtends base s) : (writeBit b s).Keeps (SinkExtends base) := by
  refine (bpWritable_keeps h).bind fun _ u hu => ?_
  refine Flow.Keeps.bind (R := SinkExtends base) ?_ fun _ _ hv => ⟨hv.data, hv.host⟩
  split
  · exact bpFlush_sinkExtends hu
  · exact hu

theorem writeBits_sinkExtends (bits : Bits) (h : SinkExtends base s) :
    (writeBits bits s).Keeps (SinkExtends base) := by
  induction bits generalizing s with
  | nil => exact h
  | cons b bs ih => exact (writeBit_sinkExtends b h).bind fun _ _ hu => ih hu

theorem writeByte_sinkExtends (b : Byte) (h : SinkExtends base s) : (writeByte b s).Keeps (SinkExtends base) := by
  unfold writeByte
  rw [State.sinkWrite_ok h.host.answer]
  split
  · trivial
  · have hk := h.append b false
    exact ⟨hk.data, hk.host⟩

theorem writeBytes_sinkExtends (bytes : List Byte) (h : SinkExtends base s) :
    (writeBytes bytes s).Keeps (SinkExtends base) := by
  induction bytes generalizing s with
  | nil => exact h
  | cons b bs ih => exact (writeByte_sinkExtends b h).bind fun _ _ hu => ih hu

theorem writeLength_sinkExtends (n : Word32) (h : SinkExtends base s) :
    (writeLength n s).Keeps (SinkExtends base) := by
  refine (bpWritable_keeps h).bind fun _ u hu => ?_
  refine Flow.Keeps.bind (R := SinkExtends base) ?_ fun _ _ hv => writeBytes_sinkExtends _ hv
  split
  · exact bpFlush_sinkExtends hu
  · exact hu

theorem closeLastByte_sinkExtends (h : SinkExtends base s) : (closeLastByte s).Keeps (SinkExtends base) := by
  unfold closeLastByte
  rw [State.sinkWrite_ok h.host.answer]
  split
  · split
    · trivial
    · have hk := h.append s.bpBuf false
      exact ⟨hk.data, hk.host⟩
  · exact h

/-- A SinkFlush and a SinkRelease touch no byte (R43). -/
theorem closeStorage_sinkExtends (h : SinkExtends base s) : (closeStorage s).Keeps (SinkExtends base) := by
  unfold closeStorage
  rw [State.sinkFlush_ok h.host.answer]
  exact ⟨h.data, h.host.advance⟩

theorem bpClose_sinkExtends (h : SinkExtends base s) : (bpClose s).Keeps (SinkExtends base) := by
  unfold bpClose
  split
  · trivial
  · exact ⟨h.data, h.host⟩
  · exact (closeLastByte_sinkExtends h).bind fun _ _ hu => closeStorage_sinkExtends hu

theorem serialize_sinkExtends (h : SinkExtends base s) : (serialize s).Keeps (SinkExtends base) :=
  (theTree_keeps h).bind fun x u hu => emit_eq_writeBits x u ▸ writeBits_sinkExtends x.ser hu

theorem emitLeaf_sinkExtends (sym : Byte) (h : SinkExtends base s) : (emitLeaf sym s).Keeps (SinkExtends base) :=
  (writeBit_sinkExtends true h).bind fun _ _ hu => writeBits_sinkExtends _ hu

theorem compress_sinkExtends (h : SinkExtends base s) : (compress s).Keeps (SinkExtends base) :=
  compress_post h
    (fun u k => by rcases u.rawInRead_cases with ⟨b, -, hr⟩ | ⟨-, hr⟩ <;> rw [hr] <;> exact ⟨k.data, k.host⟩)
    (fun _ k => ⟨k.data, k.host⟩) (fun _ _ _ k => ⟨k.data, k.host⟩) (fun _ _ _ k => ⟨k.data, k.host⟩)
    (fun _ k _ => ⟨k.data, k.host⟩) (fun _ _ k _ => k.setCode _) (fun _ bits k => writeBits_sinkExtends bits k)
    (fun _ n k => writeLength_sinkExtends n k) fun _ k => bpClose_sinkExtends k

/-- A command of the packer, BP_OPEN apart, that works on a storage that never fails. -/
theorem exec_sinkExtends {i : Instr} (h : SinkExtends base s) (hp : drivesPacker i = true) (hi : i ≠ .bpOpen)
    (he : exec i s = .next t) : SinkExtends base t := by
  have hr : ∀ (u : State) (r : Option Result), SinkExtends base u → SinkExtends base (u.setResult r) :=
    fun _ _ k => ⟨k.data, k.host⟩
  cases i with
  | bpOpen => exact absurd rfl hi
  | bpWriteBit bit => exact (writeBit_sinkExtends bit h).finish_ret hr he
  | bpWriteLength n => exact (writeLength_sinkExtends n h).finish_ret hr he
  | bpClose => exact (bpClose_sinkExtends h).finish_ret hr he
  | tsSerialize => exact (serialize_sinkExtends h).finish_ret hr he
  | heCompress => exact (compress_sinkExtends h).finish_ret hr he
  | tokenInternal => exact (writeBit_sinkExtends false h).finish_ret hr he
  | tokenLeaf sym => exact (emitLeaf_sinkExtends sym h).finish_ret hr he
  | lengthHeader n => exact (writeLength_sinkExtends n h).finish_ret hr he
  | _ => cases hp

/-! ## RAWOUT -/

/-- The storage never fails, and RAWOUT begins with the bytes `base`. -/
structure RawOutExtends (base : List Byte) (s : State) : Prop where
  data : base <+: s.rawOut
  host : s.host.NeverFails

/-- A RawOutWrite that answers ok appends (R47). -/
theorem RawOutExtends.rawOutWrite (h : RawOutExtends base s) (b : Byte) : RawOutExtends base (s.rawOutWrite b).2 := by
  rw [State.rawOutWrite_ok h.host.answer]
  exact ⟨h.data.trans (List.prefix_append _ _), h.host.advance⟩

theorem RawOutExtends.of_onlyUnpacker (h : RawOutExtends base s) (k : OnlyUnpacker s t) : RawOutExtends base t :=
  ⟨k.rawOut ▸ h.data, k.host ▸ h.host⟩

theorem Flow.Post.rawOutExtends {α : Type} {x : Flow α} (hx : x.Post (fun _ u => OnlyUnpacker s u) (OnlyUnpacker s))
    (h : RawOutExtends base s) : x.Keeps (RawOutExtends base) :=
  hx.mono (fun _ _ k => h.of_onlyUnpacker k) fun _ k => h.of_onlyUnpacker k

theorem decompress_rawOutExtends (h : RawOutExtends base s) : (decompress s).Keeps (RawOutExtends base) :=
  decompress_post h (fun _ k => ⟨k.data, k.host⟩) (fun u fuel count k => (parse_only fuel count u).rawOutExtends k)
    (fun _ _ k _ _ => ⟨k.data, k.host⟩) (fun u k => (readLength_only u).rawOutExtends k)
    (fun u x k => (decodeOne_only x u).rawOutExtends k) (fun _ b k => k.rawOutWrite b)
    fun _ _ k => ⟨k.data, k.host⟩

theorem execHdDecompress_rawOutExtends (h : RawOutExtends base s) (he : execHdDecompress s = .next t) :
    RawOutExtends base t :=
  (decompress_rawOutExtends h).finish_ret (fun _ _ k => ⟨k.data, k.host⟩) he

theorem eq_hdDecompress_of_decompresses {i : Instr} (h : decompresses i = true) : i = .hdDecompress := by
  cases i with
  | hdDecompress => rfl
  | _ => cases h

end Sys2Proof.Machine
end

section
/-! PROOFS. The statements of 20_memory.md. -/

namespace Sys2Proof.Machine

/-- Settles O14: the instruction's frame on the streams, from the frames of its sub-operations. -/
theorem streamsHaveTheirUsers : Obligations.StreamsHaveTheirUsers := by
  intro i s t he
  have h := exec_streamFrame he
  exact ⟨h.sink, h.src, h.srcAttached, h.rawIn, h.rawOut, h.host⟩

/-- Settles O15: a stream the instruction does not use is as before (the frame of O14); the packer's commands only
append to SINK, and HD_DECOMPRESS only appends to RAWOUT. -/
theorem outputOnlyGrows : Obligations.OutputOnlyGrows := by
  intro i s t hn hi he
  have hframe := exec_streamFrame he
  constructor
  · cases hp : drivesPacker i with
    | true => exact (exec_sinkExtends ⟨List.prefix_rfl, hn⟩ hp hi he).data
    | false => exact hframe.sink hp ▸ List.prefix_rfl
  · cases hd : decompresses i with
    | true =>
      obtain rfl := eq_hdDecompress_of_decompresses hd
      exact (execHdDecompress_rawOutExtends ⟨List.prefix_rfl, hn⟩ he).data
    | false => exact hframe.rawOut hd ▸ List.prefix_rfl

end Sys2Proof.Machine
end

section
/-! PROOFS. The decoder and the encoder of the command interface: the fields of a command word, what the decoder
answers for each opcode, and the encodings it accepts (30_encoding.md R71 to R75, R81 to R83). -/

namespace Sys2Proof

/-! ## The fields of a command word (R72) -/

@[simp] theorem opField_commandWord (op a : Byte) (b : Word32) : opField (commandWord op a b) = op := by
  apply BitVec.eq_of_getLsbD_eq
  intro i hi
  rw [opField, BitVec.getLsbD_extractLsb', commandWord_getLsbD op a b _ (by omega), if_neg (by omega),
    if_neg (by omega)]
  simp [hi]

@[simp] theorem aField_commandWord (op a : Byte) (b : Word32) : aField (commandWord op a b) = a := by
  apply BitVec.eq_of_getLsbD_eq
  intro i hi
  rw [aField, BitVec.getLsbD_extractLsb', commandWord_getLsbD op a b _ (by omega), if_neg (by omega), if_pos (by omega)]
  simp [hi]

@[simp] theorem bField_commandWord (op a : Byte) (b : Word32) : bField (commandWord op a b) = b := by
  apply BitVec.eq_of_getLsbD_eq
  intro i hi
  rw [bField, BitVec.getLsbD_extractLsb', commandWord_getLsbD op a b _ (by omega), if_pos (by omega)]
  simp [hi]

/-- A command word has no bit outside its three fields. -/
@[simp] theorem commandWord_fields (w : CmdWord) : commandWord (opField w) (aField w) (bField w) = w := by
  apply BitVec.eq_of_getLsbD_eq
  intro i hi
  rw [commandWord_getLsbD _ _ _ i hi]
  simp only [opField, aField, bField, BitVec.getLsbD_extractLsb']
  by_cases hb : i < 32
  · simp [hb]
  · by_cases ha : i < 40
    · simp [hb, ha, show i - 32 < 8 by omega, show 32 + (i - 32) = i by omega]
    · simp [hb, ha, show i - 40 < 8 by omega, show 40 + (i - 40) = i by omega]

theorem eq_iff_fields (w v : CmdWord) :
    w = v ↔ opField w = opField v ∧ aField w = aField v ∧ bField w = bField v := by
  constructor
  · rintro rfl; exact ⟨rfl, rfl, rfl⟩
  · rintro ⟨hop, ha, hb⟩
    rw [← commandWord_fields w, hop, ha, hb, commandWord_fields]

@[simp] theorem opField_and (w v : CmdWord) : opField (w &&& v) = opField w &&& opField v := BitVec.extractLsb'_and
@[simp] theorem aField_and (w v : CmdWord) : aField (w &&& v) = aField w &&& aField v := BitVec.extractLsb'_and
@[simp] theorem bField_and (w v : CmdWord) : bField (w &&& v) = bField w &&& bField v := BitVec.extractLsb'_and

/-! ## What the decoder answers for each opcode (R71, R75) -/

/-- The commands without operands, each with its opcode (R71). -/
def plainCommands : List (Byte × Instr) :=
  [(0x10, .bpOpen), (0x13, .bpBytes), (0x14, .bpClose), (0x20, .buOpen), (0x21, .buReadBit), (0x22, .buReadLength),
    (0x23, .buBytes), (0x24, .buClose), (0x30, .tsBuild), (0x31, .tsSerialize), (0x32, .tsDeserialize), (0x33, .tsSize),
    (0x34, .tsCodetable), (0x35, .tsFreqClear), (0x40, .heCompress), (0x50, .hdDecompress)]

@[simp] theorem guardReserved_eq_ok (ok : Bool) (v i : Instr) : guardReserved ok v = .ok i ↔ ok = true ∧ v = i := by
  cases ok <;> simp [guardReserved]

theorem noOperands_eq_ok (w : CmdWord) (v i : Instr) :
    noOperands w v = .ok i ↔ (aField w = 0 ∧ bField w = 0) ∧ v = i := by
  simp [noOperands]

section
variable {w : CmdWord}

theorem decodeCommand_plain {e : Byte × Instr} (he : e ∈ plainCommands) (h : opField w = e.1) :
    decodeCommand w = noOperands w e.2 := by
  simp only [plainCommands, List.mem_cons, List.not_mem_nil, or_false] at he
  rcases he with rfl | rfl | rfl | rfl | rfl | rfl | rfl | rfl | rfl | rfl | rfl | rfl | rfl | rfl | rfl | rfl <;>
    simp [decodeCommand, h]

theorem decodeCommand_bpWriteBit (h : opField w = 0x11) : decodeCommand w =
    guardReserved (aField w >>> 1 == 0 && bField w == 0) (.bpWriteBit ((aField w).getLsbD 0)) := by
  simp [decodeCommand, h]

theorem decodeCommand_bpWriteLength (h : opField w = 0x12) :
    decodeCommand w = guardReserved (aField w == 0) (.bpWriteLength (bField w)) := by
  simp [decodeCommand, h]

theorem decodeCommand_tsFreqSet (h : opField w = 0x36) :
    decodeCommand w = .ok (.tsFreqSet (aField w) (bField w)) := by
  simp [decodeCommand, h]

theorem decodeCommand_tsCodeGet (h : opField w = 0x37) :
    decodeCommand w = guardReserved (bField w == 0) (.tsCodeGet (aField w)) := by
  simp [decodeCommand, h]

/-- Every opcode but the twenty is reserved (R75). -/
theorem decodeCommand_reserved (h : opField w ∉ plainCommands.map (·.1)) (h11 : opField w ≠ 0x11)
    (h12 : opField w ≠ 0x12) (h36 : opField w ≠ 0x36) (h37 : opField w ≠ 0x37) :
    decodeCommand w = .error .reservedOpcode := by
  simp only [plainCommands, List.map_cons, List.map_nil, List.mem_cons, List.not_mem_nil, or_false, not_or] at h
  unfold decodeCommand
  simp only [ne_eq, ← BitVec.toNat_inj] at h h11 h12 h36 h37
  split <;> simp_all

end

/-- How a command word comes to be accepted as an instruction (R71 to R73, R75). -/
inductive AcceptedAs (w : CmdWord) : Instr → Prop where
  | plain (e : Byte × Instr) (mem : e ∈ plainCommands) (op : opField w = e.1) (a : aField w = 0) (b : bField w = 0) :
    AcceptedAs w e.2
  | bpWriteBit (op : opField w = 0x11) (a : aField w >>> 1 = 0) (b : bField w = 0) :
    AcceptedAs w (.bpWriteBit ((aField w).getLsbD 0))
  | bpWriteLength (op : opField w = 0x12) (a : aField w = 0) : AcceptedAs w (.bpWriteLength (bField w))
  | tsFreqSet (op : opField w = 0x36) : AcceptedAs w (.tsFreqSet (aField w) (bField w))
  | tsCodeGet (op : opField w = 0x37) (b : bField w = 0) : AcceptedAs w (.tsCodeGet (aField w))

theorem AcceptedAs.decodes {w : CmdWord} {i : Instr} (h : AcceptedAs w i) : decodeCommand w = .ok i := by
  cases h with
  | plain e mem op a b => exact (decodeCommand_plain mem op).trans ((noOperands_eq_ok w _ _).mpr ⟨⟨a, b⟩, rfl⟩)
  | bpWriteBit op a b => simp [decodeCommand_bpWriteBit op, a, b]
  | bpWriteLength op a => simp [decodeCommand_bpWriteLength op, a]
  | tsFreqSet op => exact decodeCommand_tsFreqSet op
  | tsCodeGet op b => simp [decodeCommand_tsCodeGet op, b]

theorem acceptedAs_of_decodeCommand {w : CmdWord} {i : Instr} (h : decodeCommand w = .ok i) : AcceptedAs w i := by
  by_cases hp : opField w ∈ plainCommands.map (·.1)
  · obtain ⟨e, he, hop⟩ := List.mem_map.mp hp
    rw [decodeCommand_plain he hop.symm, noOperands_eq_ok] at h
    obtain ⟨⟨ha, hb⟩, rfl⟩ := h
    exact .plain e he hop.symm ha hb
  by_cases h11 : opField w = 0x11
  · simp only [decodeCommand_bpWriteBit h11, guardReserved_eq_ok, Bool.and_eq_true, beq_iff_eq] at h
    obtain ⟨⟨ha, hb⟩, rfl⟩ := h
    exact .bpWriteBit h11 ha hb
  by_cases h12 : opField w = 0x12
  · simp only [decodeCommand_bpWriteLength h12, guardReserved_eq_ok, beq_iff_eq] at h
    obtain ⟨ha, rfl⟩ := h
    exact .bpWriteLength h12 ha
  by_cases h36 : opField w = 0x36
  · obtain rfl : Instr.tsFreqSet (aField w) (bField w) = i := by simpa [decodeCommand_tsFreqSet h36] using h
    exact .tsFreqSet h36
  by_cases h37 : opField w = 0x37
  · simp only [decodeCommand_tsCodeGet h37, guardReserved_eq_ok, beq_iff_eq] at h
    obtain ⟨hb, rfl⟩ := h
    exact .tsCodeGet h37 hb
  · simp [decodeCommand_reserved hp h11 h12 h36 h37] at h

/-- The decoder of command words, said once. -/
theorem decodeCommand_eq_ok (w : CmdWord) (i : Instr) : decodeCommand w = .ok i ↔ AcceptedAs w i :=
  ⟨acceptedAs_of_decodeCommand, AcceptedAs.decodes⟩

/-! ## The encoder and the decoder -/

theorem encode_plain : ∀ e ∈ plainCommands, encode e.2 = .command (commandWord e.1 0 0) := by decide

/-- A command without operands is decoded from its opcode and zero operand fields. -/
theorem decode_encode_plain {i : Instr} (h : i ∈ plainCommands.map (·.2)) : decode (encode i) = .ok i := by
  obtain ⟨e, he, rfl⟩ := List.mem_map.mp h
  rw [encode_plain e he]
  exact (AcceptedAs.plain e he (by simp) (by simp) (by simp)).decodes

/-- The bit of BP_WRITE_BIT is `A[0]`, and where the other bits of `A` are zero it is all of `A` (R72, R73). -/
theorem ofBool_getLsbD_zero : ∀ a : Byte, a >>> 1 = 0 → (BitVec.ofBool (a.getLsbD 0)).setWidth 8 = a := by decide

theorem AcceptedAs.encode_eq {w : CmdWord} {i : Instr} (h : AcceptedAs w i) : encode i = .command w := by
  rw [← commandWord_fields w]
  cases h with
  | plain e mem op a b => rw [encode_plain e mem, op, a, b]
  | bpWriteBit op a b => rw [encode, ofBool_getLsbD_zero _ a, op, b]
  | bpWriteLength op a => rw [encode, op, a]
  | tsFreqSet op => rw [encode, op]
  | tsCodeGet op b => rw [encode, op, b]

theorem encode_of_decodeToken {bits : Bits} {i : Instr} (h : decodeToken bits = .ok i) :
    encode i = .treeToken bits := by
  rcases bits with _ | ⟨_ | _, rest⟩
  · cases h
  · simp only [decodeToken] at h
    split at h <;> cases h
    subst rest
    rfl
  · simp only [decodeToken] at h
    split at h <;> cases h
    rename_i h8
    rw [encode, Machine.msb8_byteOfBits rest h8]

/-! ## Which words are legal (R75) -/

theorem TableRow.covers_iff (r : TableRow) (w : CmdWord) : r.covers w = true ↔
    opField w &&& opField r.mask = opField r.pattern ∧ aField w &&& aField r.mask = aField r.pattern ∧
      bField w &&& bField r.mask = bField r.pattern := by
  rw [TableRow.covers, beq_iff_eq, eq_iff_fields, opField_and, aField_and, bField_and]

/-- `OP` is one of the twenty opcodes, and the bits of `A` and `B` that its command does not use are zero (R75). -/
def ReservedBitsZero (w : CmdWord) : Prop :=
  (opField w ∈ plainCommands.map (·.1) ∧ aField w = 0 ∧ bField w = 0) ∨
  (opField w = 0x11 ∧ (aField w).extractLsb' 1 7 = 0 ∧ bField w = 0) ∨ (opField w = 0x12 ∧ aField w = 0) ∨
  opField w = 0x36 ∨ (opField w = 0x37 ∧ bField w = 0)

/-- The decoder's shift says that `A[7:1]` is zero, and so does the table's mask (`and_mask_eq_zero_iff`). -/
theorem shiftRight_one_eq_zero_iff : ∀ a : Byte, a >>> 1 = 0 ↔ a.extractLsb' 1 7 = 0 := by decide

theorem and_mask_eq_zero_iff : ∀ a : Byte, a &&& 0xFE#8 = 0#8 ↔ a.extractLsb' 1 7 = 0#7 := by decide

theorem acceptedAs_iff (w : CmdWord) : (∃ i, AcceptedAs w i) ↔ ReservedBitsZero w := by
  constructor
  · rintro ⟨i, h⟩
    cases h with
    | plain e mem op a b => exact .inl ⟨List.mem_map.mpr ⟨e, mem, op.symm⟩, a, b⟩
    | bpWriteBit op a b => exact .inr (.inl ⟨op, (shiftRight_one_eq_zero_iff _).mp a, b⟩)
    | bpWriteLength op a => exact .inr (.inr (.inl ⟨op, a⟩))
    | tsFreqSet op => exact .inr (.inr (.inr (.inl op)))
    | tsCodeGet op b => exact .inr (.inr (.inr (.inr ⟨op, b⟩)))
  · rintro (⟨h, a, b⟩ | ⟨op, a, b⟩ | ⟨op, a⟩ | op | ⟨op, b⟩)
    · obtain ⟨e, mem, op⟩ := List.mem_map.mp h
      exact ⟨_, .plain e mem op.symm a b⟩
    · exact ⟨_, .bpWriteBit op ((shiftRight_one_eq_zero_iff _).mpr a) b⟩
    · exact ⟨_, .bpWriteLength op a⟩
    · exact ⟨_, .tsFreqSet op⟩
    · exact ⟨_, .tsCodeGet op b⟩

/-- The row of a command without operands. -/
def plainRow (op : Byte) : TableRow :=
  ⟨commandWord op 0 0, commandWord (BitVec.allOnes 8) (BitVec.allOnes 8) (BitVec.allOnes 32)⟩

/-- The rows of BP_WRITE_BIT, BP_WRITE_LENGTH, TS_FREQ_SET and TS_CODE_GET: the mask leaves out the operand's bits. -/
def operandRows : List TableRow :=
  [⟨commandWord 0x11 0 0, commandWord (BitVec.allOnes 8) 0xFE (BitVec.allOnes 32)⟩,
    ⟨commandWord 0x12 0 0, commandWord (BitVec.allOnes 8) (BitVec.allOnes 8) 0⟩,
    ⟨commandWord 0x36 0 0, commandWord (BitVec.allOnes 8) 0 0⟩,
    ⟨commandWord 0x37 0 0, commandWord (BitVec.allOnes 8) 0 (BitVec.allOnes 32)⟩]

theorem commandRows_perm : commandRows.Perm (plainCommands.map (plainRow ·.1) ++ operandRows) := by decide

theorem plainRow_covers_iff (op : Byte) (w : CmdWord) :
    (plainRow op).covers w = true ↔ opField w = op ∧ aField w = 0 ∧ bField w = 0 := by
  simp only [TableRow.covers_iff, plainRow, opField_commandWord, aField_commandWord, bField_commandWord,
    BitVec.and_allOnes]

theorem operandRows_any_covers_iff (w : CmdWord) : operandRows.any (·.covers w) = true ↔
    (opField w = 0x11 ∧ (aField w).extractLsb' 1 7 = 0 ∧ bField w = 0) ∨ (opField w = 0x12 ∧ aField w = 0) ∨
      opField w = 0x36 ∨ (opField w = 0x37 ∧ bField w = 0) := by
  simp [operandRows, TableRow.covers_iff, and_mask_eq_zero_iff, -BitVec.reduceAllOnes]

theorem legalWord_iff (w : CmdWord) : legalWord w = true ↔ ReservedBitsZero w := by
  rw [legalWord, commandRows_perm.any_eq, List.any_append, Bool.or_eq_true, operandRows_any_covers_iff]
  refine or_congr ?_ Iff.rfl
  simp only [List.any_map, List.any_eq_true, Function.comp, plainRow_covers_iff, List.mem_map]
  constructor
  · rintro ⟨e, mem, op, a, b⟩
    exact ⟨⟨e, mem, op.symm⟩, a, b⟩
  · rintro ⟨⟨e, mem, op⟩, a, b⟩
    exact ⟨e, mem, op.symm, a, b⟩

theorem exists_decode_command_iff (w : CmdWord) : (∃ i, decode (.command w) = .ok i) ↔ ReservedBitsZero w :=
  (exists_congr (decodeCommand_eq_ok w)).trans (acceptedAs_iff w)

end Sys2Proof
end

section
/-! PROOFS. A step on an item the host issues (30_encoding.md R70, R75). -/

namespace Sys2Proof.Machine

variable {s : State} {x : Item} {rest : List HostMove}

theorem step_issue (h : s.inbox = .issue x :: rest) : step s = runItem x (s.setInbox rest) := by
  simp only [step, h, perform]

theorem runItem_of_decode {i : Instr} (h : decode x = .ok i) : runItem x s = exec i s := by
  simp only [runItem, h]

theorem runItem_of_reserved {e : DecodeError} (h : decode x = .error e) :
    runItem x s = .refused (.reservedEncoding e) := by
  simp only [runItem, h]

end Sys2Proof.Machine
end

section
/-! PROOFS. The three stream items on an OPEN channel whose storage never fails (30_encoding.md R81 to R83). -/

namespace Sys2Proof.Machine

variable {s : State}

theorem emitInternal_eq_writeBits (s : State) : emitInternal s = writeBits [false] s := by
  unfold emitInternal writeBits
  cases writeBit false s <;> rfl

theorem emitLeaf_eq_writeBits (sym : Byte) (s : State) : emitLeaf sym s = writeBits (true :: msb8 sym) s := rfl

/-- A token whose emission is the bit writes of `bits` leaves what the BP_WRITE_BIT commands of `bits` leave. -/
theorem writeBits_finish_eq_runOk (bits : Bits) (ho : s.bpStatus = .opened) (hn : s.host.NeverFails)
    (hc : s.bpBytes + bits.length ≤ s.params.counterMax) :
    ∃ u, runOk (writeBitCommands bits) s = some u ∧
      ((writeBits bits s).bind fun _ t => .ret .none t).finish = .next { u with result := some ⟨.ok, .none⟩ } := by
  obtain ⟨v, hv, -, -⟩ := writeBits_opened bits ho hn hc
  obtain ⟨u, hu, hr⟩ := runOk_of_writeBits hv
  refine ⟨u, hu, ?_⟩
  rw [hv, Flow.bind_ret, Flow.finish_ret, ← hr]
  rfl

theorem writeLength_eq {n : Word32} (ho : s.bpStatus = .opened) : writeLength n s =
    (if s.bpFree < 8 then bpFlush s else .ret () s).bind fun _ t => writeBytes (be32 n) t := by
  simp [writeLength, bpWritable, ho, State.bitsAccumulated]

/-- A length on an OPEN channel: the buffered byte, if it holds a bit, and the four bytes (R103). -/
theorem writeLength_neverFails (n : Word32) (ho : s.bpStatus = .opened) (hb : s.BpBufferOk) (hn : s.host.NeverFails)
    (hc : s.bpBytes + 5 ≤ s.params.counterMax) :
    ∃ u, writeLength n s = .ret () u ∧ u.bpFree = 8 ∧
      u.sink.data = s.sink.data ++ (if s.bpFree < 8 then [s.bpBuf] else []) ++ be32 n := by
  have hne : be32 n ≠ [] := List.cons_ne_nil _ _
  rw [writeLength_eq ho]
  by_cases hfree : s.bpFree < 8
  · rw [if_pos hfree, bpFlush_ok (by omega) hn.answer, Flow.bind_ret,
      writeBytes_ok _ (s := flushed s) (hn.advance.okFor _) hne (by simp [flushed, be32]; omega)]
    exact ⟨_, rfl, rfl, by simp [flushed, hfree]⟩
  · rw [if_neg hfree, Flow.bind_ret, writeBytes_ok _ (hn.okFor _) hne (by simp [be32]; omega)]
    exact ⟨_, rfl, (hb.empty hfree).2, by simp [hfree]⟩

end Sys2Proof.Machine
end

section
/-! PROOFS. The statements of 30_encoding.md. -/

namespace Sys2Proof.Machine

/-- Settles O2: the decoder reads the fields the encoder has written. -/
theorem decodeInvertsEncode : Obligations.DecodeInvertsEncode := by
  intro i
  cases i with
  | bpWriteBit b => cases b <;> rfl
  | bpWriteLength n => simp [encode, decode, decodeCommand_bpWriteLength]
  | tsFreqSet sym count => simp [encode, decode, decodeCommand_tsFreqSet]
  | tsCodeGet sym => simp [encode, decode, decodeCommand_tsCodeGet]
  | tokenInternal => rfl
  | tokenLeaf sym => simp [encode, decode, decodeToken, byteOfBits_msb8]
  | lengthHeader n => rfl
  | _ => exact decode_encode_plain (by decide)

/-- Settles O3: an accepted command word is the word of its three fields (`commandWord_fields`), and a leaf token's bits
are those of the byte they are read as. -/
theorem encodeInvertsDecode : Obligations.EncodeInvertsDecode := by
  intro x i h
  cases x with
  | command w => exact (acceptedAs_of_decodeCommand h).encode_eq
  | treeToken bits => exact encode_of_decodeToken h
  | header n => cases h; rfl

/-- Settles O4: the decoder, the table of masks and the rule's own words are the same predicate on the three fields;
what decodes to nothing is an error, which a step turns into a refusal. -/
theorem legalCommandWordsAreTheTable : Obligations.LegalCommandWordsAreTheTable := by
  intro w
  have hdecode := exists_decode_command_iff w
  refine ⟨hdecode, hdecode.trans (legalWord_iff w).symm, fun hw s rest hs => ?_⟩
  cases h : decode (.command w) with
  | ok i => exact absurd ((legalWord_iff w).mpr (hdecode.mp ⟨i, h⟩)) (by simp [hw])
  | error e => exact ⟨e, (step_issue hs).trans (runItem_of_reserved h)⟩

/-- Settles O48: a token's emission is a run of bit writes, and so the BP_WRITE_BIT commands of its bits; a header is
written as a length. -/
theorem streamItemsAreEmitted : Obligations.StreamItemsAreEmitted := by
  intro s
  constructor
  · intro ho hn hc
    constructor
    · rw [exec, execTokenInternal, emitInternal_eq_writeBits]
      exact writeBits_finish_eq_runOk [false] ho hn (by simp; omega)
    · intro sym
      rw [exec, execTokenLeaf, emitLeaf_eq_writeBits]
      exact writeBits_finish_eq_runOk (true :: msb8 sym) ho hn (by simpa using hc)
  · intro n ho hb hn hc
    obtain ⟨u, hu, hfree, hdata⟩ := writeLength_neverFails n ho hb hn hc
    exact ⟨u.setResult (some ⟨.ok, .none⟩), by simp [exec, execLengthHeader, hu], rfl, hfree, hdata⟩

/-- Settles O1: the decoder run on the ten words. -/
theorem knownCommandWordsDecode : Obligations.KnownCommandWordsDecode := by
  unfold Obligations.KnownCommandWordsDecode
  decide

/-- Settles O5: the issued item is decoded and its instruction runs on the state without the move. -/
theorem stepRunsTheDecodedItem : Obligations.StepRunsTheDecodedItem :=
  fun _ _ _ _ hs h => (step_issue hs).trans (runItem_of_decode h)

end Sys2Proof.Machine
end

section
/-! PROOFS. The errors of the write channel: with which status each of its pieces ends a command, and in which state
(40_bit_packer.md R102, R103, R105). -/

namespace Sys2Proof.Machine

/-! ## Pieces of pseudocode that end a command with a status -/

section Raises
variable {α β : Type} {Q Q' : Status → State → Prop}

/-- Where a piece of pseudocode ends the command with a status, `Q` holds of that status and the state; nothing is said
of the other ends. -/
def Flow.Raises (Q : Status → State → Prop) : Flow α → Prop
  | .ret _ _ => True
  | .raise e s => Q e s
  | .refuse _ _ => True

theorem Flow.Raises.bind {x : Flow α} {f : α → State → Flow β} (hx : x.Raises Q) (hf : ∀ a s, (f a s).Raises Q) :
    (x.bind f).Raises Q := by
  cases x with
  | ret a s => exact hf a s
  | raise e s => exact hx
  | refuse r s => trivial

theorem Flow.Raises.mono {x : Flow α} (hx : x.Raises Q) (hq : ∀ e s, Q e s → Q' e s) : x.Raises Q' := by
  cases x with
  | ret a s => trivial
  | raise e s => exact hq e s hx
  | refuse r s => trivial

variable {x : Flow α} {g : α → Value} {t : State} {e : Status} {v : Value}

/-- A command that returned an error was ended by one of its lines. -/
theorem Flow.Raises.raised (hx : x.Raises Q) (he : (x.bind fun a u => .ret (g a) u).finish = .next t)
    (hr : t.result = some ⟨e, v⟩) (hne : e ≠ .ok) : ∃ u, Q e u ∧ t = u.setResult (some ⟨e, v⟩) := by
  cases x with
  | ret a u => cases he; cases hr; exact absurd rfl hne
  | raise e' u => cases he; cases hr; exact ⟨u, hx, rfl⟩
  | refuse r u => cases he

/-- A command that returned OK ran to its end, if none of its lines raises OK. -/
theorem Flow.Raises.returned (hx : x.Raises Q) (hq : ∀ u, ¬ Q .ok u)
    (he : (x.bind fun a u => .ret (g a) u).finish = .next t) (hr : t.result = some ⟨.ok, v⟩) :
    ∃ a u, x = .ret a u ∧ t = u.setResult (some ⟨.ok, v⟩) := by
  cases x with
  | ret a u => cases he; cases hr; exact ⟨a, u, rfl, rfl⟩
  | raise e' u => cases he; cases hr; exact absurd hx (hq u)
  | refuse r u => cases he

theorem theTree_raises (s : State) : (theTree s).Raises Q := by
  unfold theTree; split <;> trivial

end Raises

/-! ## The write channel -/

/-- How a write ends a command: `WriteFailure`, on a channel that is FAILED (R102, R103, R106). -/
def WriteFails (e : Status) (t : State) : Prop := e = .writeFailure ∧ t.bpStatus = .failed

/-- How BP_CLOSE ends with an error: `WriteFailure`, on a channel that is released (R105). -/
def CloseFails (e : Status) (t : State) : Prop :=
  e = .writeFailure ∧ t.bpStatus = .idle ∧ t.sink.attached = false

variable (s : State)

theorem bpWritable_raises : (bpWritable s).Raises WriteFails := by
  unfold bpWritable
  split
  · trivial
  · exact ⟨rfl, ‹_›⟩
  · trivial

theorem bpFlush_raises : (bpFlush s).Raises WriteFails := by
  unfold bpFlush
  split
  · trivial
  · rcases s.sinkWrite_cases s.bpBuf with h | ⟨left, h⟩ <;> rw [h]
    · trivial
    · exact ⟨rfl, rfl⟩

theorem writeBit_raises (b : Bool) : (writeBit b s).Raises WriteFails := by
  refine (bpWritable_raises s).bind fun _ u => Flow.Raises.bind ?_ fun _ _ => trivial
  split
  · exact bpFlush_raises u
  · trivial

theorem writeBits_raises (bits : Bits) : (writeBits bits s).Raises WriteFails := by
  induction bits generalizing s with
  | nil => trivial
  | cons b bs ih => exact (writeBit_raises s b).bind fun _ u => ih u

theorem writeByte_raises (b : Byte) : (writeByte b s).Raises WriteFails := by
  unfold writeByte
  split
  · trivial
  · rcases s.sinkWrite_cases b with h | ⟨left, h⟩ <;> rw [h]
    · trivial
    · exact ⟨rfl, rfl⟩

theorem writeBytes_raises (bytes : List Byte) : (writeBytes bytes s).Raises WriteFails := by
  induction bytes generalizing s with
  | nil => trivial
  | cons b bs ih => exact (writeByte_raises s b).bind fun _ u => ih u

theorem writeLength_raises (n : Word32) : (writeLength n s).Raises WriteFails := by
  refine (bpWritable_raises s).bind fun _ u => Flow.Raises.bind ?_ fun _ v => writeBytes_raises v _
  split
  · exact bpFlush_raises u
  · trivial

theorem serialize_raises : (serialize s).Raises WriteFails :=
  (theTree_raises s).bind fun x u => emit_eq_writeBits x u ▸ writeBits_raises u x.ser

theorem closeLastByte_raises : (closeLastByte s).Raises CloseFails := by
  unfold closeLastByte
  split
  · split
    · trivial
    · rcases s.sinkWrite_cases s.bpBuf with h | ⟨left, h⟩ <;> rw [h]
      · trivial
      · exact ⟨rfl, rfl, rfl⟩
  · trivial

theorem closeStorage_raises : (closeStorage s).Raises CloseFails := by
  unfold closeStorage
  rcases s.sinkFlush_cases with h | ⟨d, h⟩ <;> rw [h]
  · trivial
  · exact ⟨rfl, rfl, rfl⟩

theorem bpClose_raises : (bpClose s).Raises CloseFails := by
  unfold bpClose
  split
  · trivial
  · exact ⟨rfl, rfl, rfl⟩
  · exact (closeLastByte_raises s).bind fun _ u => closeStorage_raises u

/-! ## HE_COMPRESS -/

/-- How a failing write ends HE_COMPRESS: in one of its writes, or in its close (R171). -/
def CompressFails (e : Status) (t : State) : Prop := e = .writeFailure →
  t.bpStatus = .failed ∨ (t.bpStatus = .idle ∧ t.sink.attached = false)

theorem WriteFails.compressFails (e : Status) (t : State) (h : WriteFails e t) : CompressFails e t := fun _ => .inl h.2
theorem CloseFails.compressFails (e : Status) (t : State) (h : CloseFails e t) : CompressFails e t := fun _ => .inr h.2

theorem notIdle_raises {Q : Status → State → Prop} : (notIdle s).Raises Q := by
  unfold notIdle; split <;> trivial

theorem build_raises {Q : Status → State → Prop} : (build s).Raises Q := by
  unfold build; split <;> trivial

/-- The first scan ends the command with `InputTooLong` alone (R173). -/
theorem scan_raises (l : List Byte) : (scan l s).Raises CompressFails := by
  induction l generalizing s with
  | nil => trivial
  | cons r rest ih =>
    unfold scan
    split
    · exact fun h => by cases h
    · exact ih _

theorem encodeSymbols_raises (l : List Byte) : (encodeSymbols l s).Raises WriteFails := by
  induction l generalizing s with
  | nil => trivial
  | cons r rest ih =>
    unfold encodeSymbols
    split
    · trivial
    · exact (writeBits_raises _ _).bind fun _ u => ih u

/-- The seven steps of R171, one after the other. -/
theorem compress_raises : (compress s).Raises CompressFails :=
  (notIdle_raises s).bind fun _ _ =>
  (scan_raises _ _).bind fun _ s =>
  (build_raises s).bind fun _ s =>
  ((serialize_raises s).mono WriteFails.compressFails).bind fun _ s =>
  ((writeLength_raises s _).mono WriteFails.compressFails).bind fun _ s =>
  Flow.Raises.bind ((theTree_raises s).bind fun _ _ => trivial) fun _ _ =>
  ((encodeSymbols_raises _ _).mono WriteFails.compressFails).bind fun _ s =>
    (bpClose_raises s).mono CloseFails.compressFails

end Sys2Proof.Machine
end

section
/-! PROOFS. The write channel's commands under each course of the host's answers (40_bit_packer.md R101 to R105). -/

namespace Sys2Proof.Machine

variable {s : State}

/-! ## The host's answers and the storage primitives -/

theorem HostScript.okFor_succ_iff (k : Nat) (h : HostScript) :
    h.OkFor (k + 1) ↔ h.OkFor k ∧ (h.after k).answer = .ok := by
  induction k generalizing h with
  | zero => simp [HostScript.OkFor, HostScript.after]
  | succ k ih => rw [HostScript.OkFor, ih h.advance, ← and_assoc]; rfl

theorem HostScript.after_succ (k : Nat) (h : HostScript) : h.after (k + 1) = (h.after k).advance := by
  induction k generalizing h with
  | zero => rfl
  | succ k ih => exact ih h.advance

section Fails
variable {l : List Byte} {d : Bool} (h : s.host.answer = .fail l d)
include h

theorem State.sinkWrite_fail (b : Byte) :
    s.sinkWrite b = (false, s.drawn.setSink ⟨l, s.sink.attached, s.sink.durable⟩) := by
  simp [State.sinkWrite, State.answer, h]

theorem State.sinkFlush_fail : s.sinkFlush = (false, s.drawn.setSink ⟨s.sink.data, s.sink.attached, d⟩) := by
  simp [State.sinkFlush, State.answer, h]

theorem bpFlush_fail (hc : s.bpBytes < s.params.counterMax) : bpFlush s =
    .raise .writeFailure ((s.drawn.setSink ⟨l, s.sink.attached, s.sink.durable⟩).setBpStatus .failed) := by
  simp [bpFlush, State.bpCounterFull, Nat.not_le.mpr hc, State.sinkWrite_fail h]

end Fails

theorem bpFlush_full (hc : s.params.counterMax ≤ s.bpBytes) : bpFlush s = .refuse .byteCounterFull s := by
  simp [bpFlush, State.bpCounterFull, hc]

/-! ## What a command answers, by how its lines end -/

section Ends
variable {b : Bool} {n : Word32} {t : State} {e : Status} {r : Refusal}

theorem exec_bpWriteBit_raise (h : writeBit b s = .raise e t) :
    exec (.bpWriteBit b) s = .next (t.setResult (some ⟨e, .none⟩)) := by
  simp [exec, execBpWriteBit, h]

theorem exec_bpWriteBit_refuse (h : writeBit b s = .refuse r t) : exec (.bpWriteBit b) s = .refused r := by
  simp [exec, execBpWriteBit, h]

theorem exec_bpWriteLength_ret (h : writeLength n s = .ret () t) :
    exec (.bpWriteLength n) s = .next (t.setResult (some ⟨.ok, .none⟩)) := by
  simp [exec, execBpWriteLength, h]

theorem exec_bpWriteLength_raise (h : writeLength n s = .raise e t) :
    exec (.bpWriteLength n) s = .next (t.setResult (some ⟨e, .none⟩)) := by
  simp [exec, execBpWriteLength, h]

theorem exec_bpWriteLength_refuse (h : writeLength n s = .refuse r t) : exec (.bpWriteLength n) s = .refused r := by
  simp [exec, execBpWriteLength, h]

theorem exec_bpClose_ret (h : bpClose s = .ret () t) :
    exec .bpClose s = .next (t.setResult (some ⟨.ok, .none⟩)) := by
  simp [exec, execBpClose, h]

theorem exec_bpClose_raise (h : bpClose s = .raise e t) :
    exec .bpClose s = .next (t.setResult (some ⟨e, .none⟩)) := by
  simp [exec, execBpClose, h]

theorem exec_bpClose_refuse (h : bpClose s = .refuse r t) : exec .bpClose s = .refused r := by
  simp [exec, execBpClose, h]

end Ends

/-! ## The opening test -/

theorem exec_bpOpen_inUse (h : s.bpStatus ≠ .idle) : exec .bpOpen s = .refused .writeChannelInUse := by
  rcases hs : s.bpStatus with _ | _ | _
  · exact absurd hs h
  all_goals simp [exec, execBpOpen, hs]

theorem bpOpened_ok (h : s.host.answer = .ok) :
    bpOpened s = (true, (((s.drawn.setSink ⟨[], true, false⟩).setBpStatus .opened).setBpBuffer 0 8).setBpBytes 0) := by
  simp [bpOpened, State.sinkOpen, State.answer, h]

theorem bpOpened_fail {l : List Byte} {d : Bool} (h : s.host.answer = .fail l d) : bpOpened s = (false, s.drawn) := by
  simp [bpOpened, State.sinkOpen, State.answer, h]

theorem exec_bpOpen_ok (h : s.bpStatus = .idle) (ha : s.host.answer = .ok) : exec .bpOpen s =
    .next (((((s.drawn.setSink ⟨[], true, false⟩).setBpStatus .opened).setBpBuffer 0 8).setBpBytes 0).setResult
      (some ⟨.ok, .none⟩)) := by
  simp [exec, execBpOpen, h, bpOpened_ok ha]

theorem exec_bpOpen_fail {l : List Byte} {d : Bool} (h : s.bpStatus = .idle) (ha : s.host.answer = .fail l d) :
    exec .bpOpen s = .next (s.drawn.setResult (some ⟨.openFailure, .none⟩)) := by
  simp [exec, execBpOpen, h, bpOpened_fail ha]

theorem exec_bpWriteBit_idle (b : Bool) (h : s.bpStatus = .idle) :
    exec (.bpWriteBit b) s = .refused .writeChannelIdle :=
  exec_bpWriteBit_refuse (writeBit_idle b h)

theorem exec_bpWriteBit_failed (b : Bool) (h : s.bpStatus = .failed) :
    exec (.bpWriteBit b) s = .next (s.setResult (some ⟨.writeFailure, .none⟩)) :=
  exec_bpWriteBit_raise (writeBit_failed b h)

theorem writeLength_idle (n : Word32) (h : s.bpStatus = .idle) : writeLength n s = .refuse .writeChannelIdle s := by
  simp [writeLength, bpWritable, h]

theorem writeLength_failed (n : Word32) (h : s.bpStatus = .failed) : writeLength n s = .raise .writeFailure s := by
  simp [writeLength, bpWritable, h]

theorem exec_bpWriteLength_idle (n : Word32) (h : s.bpStatus = .idle) :
    exec (.bpWriteLength n) s = .refused .writeChannelIdle :=
  exec_bpWriteLength_refuse (writeLength_idle n h)

theorem exec_bpWriteLength_failed (n : Word32) (h : s.bpStatus = .failed) :
    exec (.bpWriteLength n) s = .next (s.setResult (some ⟨.writeFailure, .none⟩)) :=
  exec_bpWriteLength_raise (writeLength_failed n h)

theorem bpClose_idle (h : s.bpStatus = .idle) : bpClose s = .refuse .writeChannelIdle s := by simp [bpClose, h]

theorem bpClose_failed (h : s.bpStatus = .failed) : bpClose s = .raise .writeFailure (bpRelease s) := by
  simp [bpClose, h]

theorem exec_bpClose_idle (h : s.bpStatus = .idle) : exec .bpClose s = .refused .writeChannelIdle :=
  exec_bpClose_refuse (bpClose_idle h)

theorem exec_bpClose_failed (h : s.bpStatus = .failed) :
    exec .bpClose s = .next ((bpRelease s).setResult (some ⟨.writeFailure, .none⟩)) :=
  exec_bpClose_raise (bpClose_failed h)

/-- A flush leaves the buffer empty: the bit goes to position 7 (R102). -/
theorem insertBit_flushed (b : Bool) (s : State) :
    insertBit b (flushed s) = (flushed s).setBpBuffer (bitAt b 7) 7 := by
  simp [insertBit, flushed]

/-! ## BP_WRITE_LENGTH on an OPEN channel -/

/-- The buffered byte that BP_WRITE_LENGTH and BP_CLOSE write, if it holds a bit (R103, R105). -/
def pendingByte (s : State) : List Byte := if s.bpFree < 8 then [s.bpBuf] else []

theorem pendingByte_of_bits (h : s.bpFree < 8) : pendingByte s = [s.bpBuf] := if_pos h
theorem pendingByte_of_empty (h : ¬ s.bpFree < 8) : pendingByte s = [] := if_neg h

theorem be32_length (n : Word32) : (be32 n).length = 4 := rfl

section Length
variable (n : Word32)

theorem writeLength_of_bits (ho : s.bpStatus = .opened) (hf : s.bpFree < 8) :
    writeLength n s = (bpFlush s).bind fun _ t => writeBytes (be32 n) t := by
  rw [writeLength_eq ho, if_pos hf]

theorem writeLength_of_empty (ho : s.bpStatus = .opened) (hf : ¬ s.bpFree < 8) :
    writeLength n s = writeBytes (be32 n) s := by
  rw [writeLength_eq ho, if_neg hf, Flow.bind_ret]

theorem writeLength_ok (ho : s.bpStatus = .opened) (hb : s.BpBufferOk)
    (hk : s.host.OkFor (pendingByte s ++ be32 n).length)
    (hc : s.bpBytes + (pendingByte s ++ be32 n).length ≤ s.params.counterMax) :
    writeLength n s = .ret () { s with
      bpBuf := 0, bpFree := 8, bpBytes := s.bpBytes + (pendingByte s ++ be32 n).length
      sink := ⟨s.sink.data ++ (pendingByte s ++ be32 n), s.sink.attached, false⟩
      host := s.host.after (pendingByte s ++ be32 n).length } := by
  have hne : be32 n ≠ [] := List.cons_ne_nil _ _
  by_cases hf : s.bpFree < 8
  · rw [pendingByte_of_bits hf] at hk hc ⊢
    have hc' : s.bpBytes + 1 + (be32 n).length ≤ s.params.counterMax := by
      rw [List.length_append, List.length_singleton] at hc; omega
    rw [writeLength_of_bits n ho hf, bpFlush_ok (by omega) hk.1, Flow.bind_ret,
      writeBytes_ok (be32 n) (s := flushed s) hk.2 hne hc', ← List.append_assoc]
    rfl
  · obtain ⟨hbuf, hfree⟩ := hb.empty hf
    rw [pendingByte_of_empty hf, List.nil_append] at hk hc ⊢
    rw [writeLength_of_empty n ho hf, writeBytes_ok (be32 n) hk hne hc, ← hbuf, ← hfree]

/-- The write after `j` ok ones fails: the flush of the buffered byte, or one of the four bytes. -/
theorem writeLength_fail {j : Nat} {l : List Byte} {d : Bool} (ho : s.bpStatus = .opened) (hb : s.BpBufferOk)
    (hj : j < (pendingByte s ++ be32 n).length) (hk : s.host.OkFor j) (ha : (s.host.after j).answer = .fail l d)
    (hc : s.bpBytes + j < s.params.counterMax) :
    writeLength n s = .raise .writeFailure { s with
      bpStatus := .failed, bpBuf := if j = 0 then s.bpBuf else 0, bpFree := if j = 0 then s.bpFree else 8
      bpBytes := s.bpBytes + j, sink := ⟨l, s.sink.attached, if j = 0 then s.sink.durable else false⟩
      host := s.host.after (j + 1) } := by
  by_cases hf : s.bpFree < 8
  · rw [writeLength_of_bits n ho hf]
    cases j with
    | zero => rw [bpFlush_fail ha hc]; rfl
    | succ j =>
      rw [pendingByte_of_bits hf] at hj
      rw [bpFlush_ok (by omega) hk.1, Flow.bind_ret, writeBytes_fail (be32 n) (s := flushed s) j l d
        (by simpa using hj) hk.2 ha (by simp [flushed]; omega)]
      simp [flushed, HostScript.after, Nat.add_assoc, Nat.add_comm 1 j]
  · obtain ⟨hbuf, hfree⟩ := hb.empty hf
    rw [pendingByte_of_empty hf] at hj
    rw [writeLength_of_empty n ho hf, writeBytes_fail (be32 n) j l d hj hk ha hc, hbuf, hfree, ite_self, ite_self,
      ← hbuf, ← hfree]

theorem writeLength_full {j : Nat} (ho : s.bpStatus = .opened) (hj : j < (pendingByte s ++ be32 n).length)
    (hk : s.host.OkFor j) (hc : s.bpBytes + j = s.params.counterMax) :
    ∃ t, writeLength n s = .refuse .byteCounterFull t := by
  by_cases hf : s.bpFree < 8
  · rw [writeLength_of_bits n ho hf]
    cases j with
    | zero => exact ⟨s, by rw [bpFlush_full (by omega)]; rfl⟩
    | succ j =>
      rw [pendingByte_of_bits hf] at hj
      rw [bpFlush_ok (by omega) hk.1, Flow.bind_ret]
      exact writeBytes_full (be32 n) (s := flushed s) j (by simpa using hj) hk.2 (by simp [flushed]; omega)
  · rw [pendingByte_of_empty hf] at hj
    rw [writeLength_of_empty n ho hf]
    exact writeBytes_full (be32 n) j hj hk hc

end Length

/-! ## BP_CLOSE on an OPEN channel -/

theorem closeLastByte_flushed (hf : s.bpFree < 8) (hc : s.bpBytes < s.params.counterMax) (ha : s.host.answer = .ok) :
    closeLastByte s = .ret () (flushed s) := by
  simp [closeLastByte, State.bitsAccumulated, hf, State.bpCounterFull, Nat.not_le.mpr hc, State.sinkWrite_ok ha,
    flushed]

theorem closeLastByte_of_empty (hf : ¬ s.bpFree < 8) : closeLastByte s = .ret () s := by
  simp [closeLastByte, State.bitsAccumulated, hf]

/-- The last byte, if any, has been written; `durable` is left open, since the storage flush that follows sets it. -/
theorem closeLastByte_ok (hb : s.BpBufferOk) (hk : s.host.OkFor (pendingByte s).length)
    (hc : s.bpBytes + (pendingByte s).length ≤ s.params.counterMax) :
    ∃ durable, closeLastByte s = .ret () { s with
      bpBuf := 0, bpFree := 8, bpBytes := s.bpBytes + (pendingByte s).length
      sink := ⟨s.sink.data ++ pendingByte s, s.sink.attached, durable⟩
      host := s.host.after (pendingByte s).length } := by
  by_cases hf : s.bpFree < 8
  · rw [pendingByte_of_bits hf] at hk hc ⊢
    exact ⟨false, closeLastByte_flushed hf hc hk.1⟩
  · obtain ⟨hbuf, hfree⟩ := hb.empty hf
    refine ⟨s.sink.durable, ?_⟩
    rw [pendingByte_of_empty hf, List.append_nil, closeLastByte_of_empty hf, ← hbuf, ← hfree]
    rfl

theorem bpClose_opened (ho : s.bpStatus = .opened) :
    bpClose s = (closeLastByte s).bind fun _ t => closeStorage t := by
  simp [bpClose, ho]

theorem closeLastByte_fail {l : List Byte} {d : Bool} (hf : s.bpFree < 8) (hc : s.bpBytes < s.params.counterMax)
    (ha : s.host.answer = .fail l d) : closeLastByte s =
      .raise .writeFailure (bpRelease (s.drawn.setSink ⟨l, s.sink.attached, s.sink.durable⟩)) := by
  simp [closeLastByte, State.bitsAccumulated, hf, State.bpCounterFull, Nat.not_le.mpr hc, State.sinkWrite_fail ha]

theorem closeLastByte_full (hf : s.bpFree < 8) (hc : s.params.counterMax ≤ s.bpBytes) :
    closeLastByte s = .refuse .byteCounterFull s := by
  simp [closeLastByte, State.bitsAccumulated, hf, State.bpCounterFull, hc]

theorem closeStorage_ok (h : s.host.answer = .ok) :
    closeStorage s = .ret () (bpRelease (s.drawn.setSink ⟨s.sink.data, s.sink.attached, true⟩)) := by
  simp [closeStorage, State.sinkFlush_ok h]

theorem closeStorage_fail {l : List Byte} {d : Bool} (h : s.host.answer = .fail l d) : closeStorage s =
    .raise .writeFailure (bpRelease (s.drawn.setSink ⟨s.sink.data, s.sink.attached, d⟩)) := by
  simp [closeStorage, State.sinkFlush_fail h]

end Sys2Proof.Machine
end

section
/-! PROOFS. The FAILED channel: entered by a failed write, inert until BP_CLOSE (40_bit_packer.md R106). -/

namespace Sys2Proof.Machine

variable {i : Instr} {s t : State} {v : Value}

/-! ## How the channel comes to be FAILED -/

theorem execBpOpen_result (he : execBpOpen s = .next t) : t.result ≠ some ⟨.writeFailure, v⟩ := by
  unfold execBpOpen at he
  split at he <;> cases he
  cases (bpOpened s).1 <;> simp

/-- A packer's command that is ended by a failing write leaves the channel FAILED; BP_CLOSE and HE_COMPRESS, which may
release it, apart (R106). -/
theorem exec_writeFailure (hp : drivesPacker i = true) (hc : i ≠ .bpClose) (hh : i ≠ .heCompress)
    (he : exec i s = .next t) (hr : t.result = some ⟨.writeFailure, v⟩) : t.bpStatus = .failed := by
  have hwrite {x : Flow Unit} {g : Unit → Value} (hx : x.Raises WriteFails)
      (he : (x.bind fun a u => .ret (g a) u).finish = .next t) : t.bpStatus = .failed := by
    obtain ⟨u, hu, rfl⟩ := hx.raised he hr (by decide)
    exact hu.2
  cases i with
  | bpOpen => exact absurd hr (execBpOpen_result he)
  | bpWriteBit b => exact hwrite (writeBit_raises s b) he
  | bpWriteLength n => exact hwrite (writeLength_raises s n) he
  | bpClose => exact absurd rfl hc
  | tsSerialize => exact hwrite (serialize_raises s) he
  | heCompress => exact absurd rfl hh
  | tokenInternal => exact hwrite (writeBit_raises s false) he
  | tokenLeaf sym => exact hwrite (writeBits_raises s (true :: msb8 sym)) he
  | lengthHeader n => exact hwrite (writeLength_raises s n) he
  | _ => cases hp

/-! ## What a command does to a FAILED channel -/

theorem writeBits_failed {bits : Bits} (h : s.bpStatus = .failed) (hne : bits ≠ []) :
    writeBits bits s = .raise .writeFailure s := by
  cases bits with
  | nil => exact absurd rfl hne
  | cons b bs => rw [writeBits, writeBit_failed b h, Flow.bind_raise]

theorem Tree.ser_ne_nil (x : Tree) : x.ser ≠ [] := by cases x <;> simp [Tree.ser]

/-- A serialized tree has a bit, and the first write fails (R152). -/
theorem serialize_failed (h : s.bpStatus = .failed) : (serialize s).Post (fun _ _ => False) (· = s) := by
  refine ((theTree_only s).mono (fun _ _ k => k) fun _ k => k.elim).bind fun x u hu => ?_
  obtain ⟨-, rfl⟩ := hu
  rw [emit_eq_writeBits, writeBits_failed h x.ser_ne_nil]
  exact rfl

/-- The channel is FAILED, and its SINK and count are those of `s` (R106). -/
structure StaysFailed (s t : State) : Prop where
  status : t.bpStatus = .failed
  sink : t.sink = s.sink
  bytes : t.bpBytes = s.bpBytes

theorem StaysFailed.refl (h : s.bpStatus = .failed) : StaysFailed s s := ⟨h, rfl, rfl⟩

/-- HE_COMPRESS comes no further than its serialization, which fails (R176). -/
theorem compress_staysFailed (h : s.bpStatus = .failed) : (compress s).Keeps (StaysFailed s) := by
  have hnotIdle : (notIdle s).Keeps (StaysFailed s) := by
    unfold notIdle
    split
    · trivial
    · exact .refl h
    · exact .refl h
  have hread : ∀ u, StaysFailed s u → StaysFailed s u.rawInRead.2 := fun u hu => by
    rcases u.rawInRead_cases with ⟨b, -, hr⟩ | ⟨-, hr⟩ <;> rw [hr]
    · exact ⟨hu.status, hu.sink, hu.bytes⟩
    · exact hu
  have hscan : ∀ u, StaysFailed s u → (scanInput u).Keeps (StaysFailed s) := fun u hu =>
    scan_post _ ⟨hu.status, hu.sink, hu.bytes⟩ hread fun _ _ _ k => ⟨k.status, k.sink, k.bytes⟩
  have hbuild : ∀ u, StaysFailed s u → (build u).Keeps (StaysFailed s) := fun u hu => by
    unfold build
    split
    · trivial
    · exact ⟨hu.status, hu.sink, hu.bytes⟩
  refine Flow.Keeps.bind hnotIdle fun _ u hu => (hscan u hu).bind fun _ u hu => (hbuild u hu).bind fun _ u hu => ?_
  exact ((serialize_failed hu.status).mono (fun _ _ k => k) fun _ k => k ▸ hu).bind fun _ _ k => k.elim

theorem exec_staysFailed (h : s.bpStatus = .failed) (hi : i ≠ .bpClose) (he : exec i s = .next t) :
    StaysFailed s t := by
  cases hp : drivesPacker i with
  | false =>
    obtain ⟨hstatus, -, -, hbytes⟩ := (exec_registerFrame he).packer hp
    exact ⟨hstatus.trans h, (exec_streamFrame he).sink hp, hbytes⟩
  | true =>
    have hkeeps {x : Flow Unit} {g : Unit → Value} (hx : x.Keeps (StaysFailed s))
        (he : (x.bind fun a u => .ret (g a) u).finish = .next t) : StaysFailed s t :=
      hx.finish_ret (fun _ _ k => ⟨k.status, k.sink, k.bytes⟩) he
    have hraise {x : Flow Unit} (hx : x = .raise .writeFailure s) : x.Keeps (StaysFailed s) := by
      rw [hx]
      exact StaysFailed.refl h
    cases i with
    | bpOpen => rw [exec_bpOpen_inUse (by simp [h])] at he; cases he
    | bpWriteBit b => exact hkeeps (hraise (writeBit_failed b h)) he
    | bpWriteLength n => exact hkeeps (hraise (writeLength_failed n h)) he
    | bpClose => exact absurd rfl hi
    | tsSerialize => exact hkeeps ((serialize_failed h).mono (fun _ _ k => k.elim) (by rintro _ rfl; exact .refl h)) he
    | heCompress => exact hkeeps (compress_staysFailed h) he
    | tokenInternal => exact hkeeps (hraise (writeBit_failed false h)) he
    | tokenLeaf sym => exact hkeeps (hraise (writeBits_failed h (List.cons_ne_nil true (msb8 sym)))) he
    | lengthHeader n => exact hkeeps (hraise (writeLength_failed n h)) he
    | _ => cases hp

end Sys2Proof.Machine
end

section
/-! PROOFS. Runs of write commands on one channel: what SINK and the buffer hold after runs of bits separated by lengths
(40_bit_packer.md R108). -/

namespace Sys2Proof.Machine

variable {s t : State} {base : List Byte} {r : Bits}

/-! ## Packed bits at the last byte -/

/-- The bytes of a run that have been sent are the first of its packed bytes (R31, R108). -/
theorem pack_eq_sent (r : Bits) (hr : r ≠ []) :
    pack r = pack (r.take (sentBits r)) ++ [packByte (r.drop (sentBits r)) 0] := by
  have hpos := List.length_pos_iff.mpr hr
  rw [← pack_short (r.drop (sentBits r))]
  · exact pack_take_drop r _ (sentBits_le r)
  · rw [Ne, List.drop_eq_nil_iff]; unfold sentBits; omega
  · rw [List.length_drop]; unfold sentBits; omega

theorem pack_take_sentBits_length (r : Bits) : (pack (r.take (sentBits r))).length = (r.length + 7) / 8 - 1 := by
  rw [pack_length, List.length_take]; unfold sentBits; omega

theorem pack_take_sentBits (r : Bits) : pack (r.take (sentBits r)) = (pack r).take ((r.length + 7) / 8 - 1) := by
  by_cases hr : r = []
  · subst hr; rfl
  · rw [pack_eq_sent r hr, List.take_left' (pack_take_sentBits_length r)]

/-- The buffered byte is the last of the packed bytes. -/
theorem packByte_drop_sentBits (r : Bits) : packByte (r.drop (sentBits r)) 0 =
    if r = [] then 0 else (pack r).getD ((r.length + 7) / 8 - 1) 0 := by
  by_cases hr : r = []
  · subst hr; rfl
  · rw [if_neg hr, pack_eq_sent r hr, ← pack_take_sentBits_length r]
    simp

theorem Holds.bpFree_eq (h : Holds base r s) : s.bpFree = if r = [] then 8 else 8 - ((r.length - 1) % 8 + 1) := by
  rw [h.free]
  by_cases hr : r = []
  · subst hr; rfl
  · have hpos := List.length_pos_iff.mpr hr
    rw [if_neg hr]; unfold sentBits; omega

/-! ## Runs of commands -/

theorem State.FreshWrite.holds (h : s.FreshWrite) : Holds [] [] s :=
  (Holds.nil_iff _ _).mpr ⟨h.status, h.data, h.free, h.buf, by rw [h.bytes, h.data]; rfl⟩

/-- The channel holds the same whatever result is recorded. -/
theorem Holds.of_setResult {u : State} (h : Holds base r s) (hu : ∀ x, u.setResult x = s.setResult x) :
    Holds base r u := by
  have hs : Holds base r (s.setResult none) := ⟨h.status, h.data, h.free, h.buf, h.bytes⟩
  rw [← hu none] at hs
  exact ⟨hs.status, hs.data, hs.free, hs.buf, hs.bytes⟩

/-- One command that returned OK. -/
theorem runOk_singleton {i : Instr} :
    runOk [i] s = some t ↔ exec i s = .next t ∧ ∃ v, t.result = some ⟨.ok, v⟩ := by
  rw [runOk]
  constructor
  · intro h
    split at h
    · split at h
      · cases h; exact ⟨‹_›, _, ‹_›⟩
      · cases h
    · cases h
    · cases h
  · rintro ⟨he, v, hv⟩
    simp [he, hv, runOk]

theorem channelCommands_cons (r : Bits) (p : Word32 × Bits) (segments : List (Word32 × Bits)) :
    channelCommands r (p :: segments) =
      writeBitCommands r ++ ([.bpWriteLength p.1] ++ channelCommands p.2 segments) := rfl

theorem channelCommands_nil (r : Bits) : channelCommands r [] = writeBitCommands r := List.append_nil _

theorem not_writeFails_ok (u : State) : ¬ WriteFails .ok u := fun h => by cases h.1
theorem not_closeFails_ok (u : State) : ¬ CloseFails .ok u := fun h => by cases h.1

/-- After a run of bits that all returned OK. -/
theorem Holds.writeBitCommands {bits : Bits} (h : Holds base [] s) (hr : runOk (writeBitCommands bits) s = some t) :
    Holds base bits t := by
  obtain ⟨v, hv, ht⟩ := writeBits_of_runOk hr
  exact (h.writeBits hv).of_setResult ht

/-- After a length that returned OK. -/
theorem Holds.lengthCommand {n : Word32} (h : Holds base r s) (hr : runOk [.bpWriteLength n] s = some t) :
    Holds (base ++ pack r ++ be32 n) [] t := by
  obtain ⟨he, v, hv⟩ := runOk_singleton.mp hr
  obtain ⟨_, u, hu, rfl⟩ := (writeLength_raises s n).returned not_writeFails_ok he hv
  exact (h.writeLength hu).of_setResult fun _ => rfl

/-- After a close that returned OK (R108 (a)). -/
theorem Holds.closeCommand (h : Holds base r s) (hr : runOk [.bpClose] s = some t) : Closed (base ++ pack r) t := by
  obtain ⟨he, v, hv⟩ := runOk_singleton.mp hr
  obtain ⟨_, u, hu, rfl⟩ := (bpClose_raises s).returned not_closeFails_ok he hv
  obtain ⟨hstatus, hdata, hbytes, hdurable, hattached⟩ := (h.close hu).1
  exact ⟨hstatus, hdata, hbytes, hdurable, hattached⟩

/-- After the write commands of R108 that all returned OK (R108 (b)). -/
theorem Holds.channelCommands (segments : List (Word32 × Bits)) (h : Holds base [] s)
    (hr : runOk (channelCommands r segments) s = some t) :
    Holds (base ++ (channelContents r segments).1) (channelContents r segments).2 t := by
  induction segments generalizing base r s with
  | nil =>
    rw [channelCommands_nil] at hr
    simpa [channelContents] using h.writeBitCommands hr
  | cons p rest ih =>
    rw [channelCommands_cons, runOk_append, Option.bind_eq_some_iff] at hr
    obtain ⟨u, hu, hr⟩ := hr
    rw [runOk_append, Option.bind_eq_some_iff] at hr
    obtain ⟨w, hw, hr⟩ := hr
    simpa [channelContents] using ih ((h.writeBitCommands hu).lengthCommand hw) hr

/-! ## On a storage that never fails -/

/-- The channel holds `base` and the run `r`, the storage never fails, and `bp_bytes` is counted up to `max`. -/
structure Takes (max : Nat) (base : List Byte) (r : Bits) (s : State) : Prop where
  holds : Holds base r s
  host : s.host.NeverFails
  params : s.params.counterMax = max

variable {max : Nat}

theorem Takes.of_setResult {u : State} (h : Takes max base r s) (hu : ∀ x, u.setResult x = s.setResult x) :
    Takes max base r u := by
  have hs : Takes max base r (s.setResult none) := ⟨h.holds.of_setResult fun _ => rfl, h.host, h.params⟩
  rw [← hu none] at hs
  exact ⟨h.holds.of_setResult hu, hs.host, hs.params⟩

theorem Takes.writeBitCommands (h : Takes max base [] s) (bits : Bits) (hc : base.length + (pack bits).length ≤ max) :
    ∃ t, runOk (writeBitCommands bits) s = some t ∧ Takes max base bits t := by
  rw [pack_length] at hc
  obtain ⟨v, hv, hholds, hhost, -, honly⟩ := h.holds.writeBits_total bits h.host (by
    rw [h.params, List.length_nil, Nat.zero_add]; omega)
  obtain ⟨t, ht, hres⟩ := runOk_of_writeBits hv
  exact ⟨t, ht, Takes.of_setResult ⟨hholds, hhost, honly.params ▸ h.params⟩ hres⟩

theorem Takes.lengthCommand (h : Takes max base r s) (n : Word32) (hc : base.length + (pack r).length + 4 ≤ max) :
    ∃ t, runOk [.bpWriteLength n] s = some t ∧ Takes max (base ++ pack r ++ be32 n) [] t := by
  obtain ⟨u, hu, hholds, hhost, -, honly⟩ := h.holds.writeLength_total n h.host (by rw [h.params]; exact hc)
  exact ⟨_, runOk_singleton.mpr ⟨exec_bpWriteLength_ret hu, _, rfl⟩,
    Takes.of_setResult (s := u) ⟨hholds, hhost, honly.params ▸ h.params⟩ fun _ => rfl⟩

/-- All the write commands of R108 return OK, if the counter has room for the bytes and the last run. -/
theorem Takes.channelCommands (segments : List (Word32 × Bits)) (h : Takes max base [] s)
    (hc : base.length + (channelContents r segments).1.length + (pack (channelContents r segments).2).length ≤ max) :
    ∃ t, runOk (channelCommands r segments) s = some t ∧
      Takes max (base ++ (channelContents r segments).1) (channelContents r segments).2 t := by
  induction segments generalizing base r s with
  | nil =>
    obtain ⟨t, ht, k⟩ := h.writeBitCommands r hc
    exact ⟨t, by rw [channelCommands_nil, ht], by simpa [channelContents] using k⟩
  | cons p rest ih =>
    simp only [channelContents, List.length_append, be32_length] at hc
    obtain ⟨u, hu, ku⟩ := h.writeBitCommands r (by omega)
    obtain ⟨w, hw, kw⟩ := ku.lengthCommand p.1 (by omega)
    obtain ⟨t, ht, k⟩ := ih (r := p.2) kw (by simp only [List.length_append, be32_length]; omega)
    refine ⟨t, ?_, by simpa [channelContents] using k⟩
    rw [channelCommands_cons, runOk_append, hu, Option.bind_some, runOk_append, hw, Option.bind_some, ht]

theorem Takes.closeCommand (h : Takes max base r s) (hc : base.length + (pack r).length ≤ max) :
    ∃ t, runOk [.bpClose] s = some t := by
  obtain ⟨t, ht, -⟩ := h.holds.close_total h.host (by rw [h.params]; exact hc)
  exact ⟨_, runOk_singleton.mpr ⟨exec_bpClose_ret ht, _, rfl⟩⟩

end Sys2Proof.Machine
end

section
/-! PROOFS. The statements of 40_bit_packer.md. -/

namespace Sys2Proof.Machine

/-- Settles O16: `WriteFailure` is raised by a failed write, which sets FAILED, or by a close, which releases; and in
FAILED a write raises it before it touches anything, so that HE_COMPRESS comes no further than its first token. -/
theorem failedChannelIsSticky : Obligations.FailedChannelIsSticky := by
  refine ⟨fun i s t v hp hc hh he hr => exec_writeFailure hp hc hh he hr, fun s t v he hr => ?_, fun s h => ?_⟩
  · obtain ⟨u, hu, rfl⟩ := (compress_raises s).raised he hr (by decide)
    exact hu rfl
  · refine ⟨fun i t hi he => ?_, fun b => ?_, fun n => ?_, rfl, ?_, ?_⟩
    · have hk := exec_staysFailed h hi he
      exact ⟨hk.status, hk.sink, hk.bytes⟩
    · exact exec_bpWriteBit_failed b h
    · exact exec_bpWriteLength_failed n h
    · exact exec_bpClose_failed h
    · exact exec_bpOpen_inUse (by simp [h])

/-- Settles O25: each command keeps what the channel holds in step with the bits and lengths written so far (`Holds`),
by induction on the segments. -/
theorem sinkHoldsThePackedRuns : Obligations.SinkHoldsThePackedRuns := by
  intro s r segments hfresh
  have hholds {t : State} (ht : runOk (channelCommands r segments) s = some t) :
      Holds (channelContents r segments).1 (channelContents r segments).2 t := hfresh.holds.channelCommands segments ht
  refine ⟨fun t ht => ?_, fun t ht => ?_, fun hn hc => ?_⟩
  · have h := hholds ht
    exact ⟨by rw [h.data, pack_take_sentBits], h.bytes, h.bpFree_eq, by rw [h.buf, packByte_drop_sentBits]⟩
  · rw [runOk_append, Option.bind_eq_some_iff] at ht
    obtain ⟨u, hu, ht⟩ := ht
    have h := (hholds hu).closeCommand ht
    exact ⟨h.data, by rw [h.bytes, h.data], h.durable⟩
  · have hstart : Takes s.params.counterMax [] [] s := ⟨hfresh.holds, hn, rfl⟩
    obtain ⟨u, hu, ku⟩ := hstart.channelCommands (r := r) segments (by simpa using hc)
    obtain ⟨t, ht⟩ := ku.closeCommand hc
    rw [runOk_append, hu, Option.bind_some, ht]
    rfl

/-- Settles O20: the channel's status and the host's answer decide. -/
theorem bpOpenOpensAFreshChannel : Obligations.BpOpenOpensAFreshChannel :=
  ⟨rfl, fun _ => ⟨exec_bpOpen_ok, fun _ _ => exec_bpOpen_fail, exec_bpOpen_inUse⟩⟩

/-- Settles O21: with room the bit is inserted; a full buffer is flushed first, with the flush's three ends. -/
theorem bpWriteBitInsertsTheBit : Obligations.BpWriteBitInsertsTheBit := by
  refine ⟨by decide, by decide, fun s b => ⟨exec_bpWriteBit_idle b, exec_bpWriteBit_failed b, ?_, ?_, ?_, ?_⟩⟩
  · intro ho hf
    exact exec_bpWriteBit_ret (writeBit_room b ho hf)
  · intro ho hf hc
    exact exec_bpWriteBit_refuse (by rw [writeBit_full b ho hf, bpFlush_full hc, Flow.bind_refuse])
  · intro ho hf hc ha
    have hw : writeBit b s = .ret () ((flushed s).setBpBuffer (bitAt b 7) 7) := by
      rw [writeBit_full b ho hf, bpFlush_ok hc ha, Flow.bind_ret, insertBit_flushed]
    exact exec_bpWriteBit_ret hw
  · intro l d ho hf hc ha
    exact exec_bpWriteBit_raise (by rw [writeBit_full b ho hf, bpFlush_fail ha hc, Flow.bind_raise])

/-- Settles O22: the bytes written are the pending one and the four of the length, and the answers decide how many. -/
theorem bpWriteLengthAlignsAndWrites : Obligations.BpWriteLengthAlignsAndWrites := by
  intro s n
  refine ⟨exec_bpWriteLength_idle n, exec_bpWriteLength_failed n, ?_, ?_, ?_⟩
  · intro ho hb hk hc
    exact exec_bpWriteLength_ret (writeLength_ok n ho hb hk hc)
  · intro j l d ho hb hj hk ha hc
    exact exec_bpWriteLength_raise (writeLength_fail n ho hb hj hk ha hc)
  · intro j ho hj hk hc
    obtain ⟨t, ht⟩ := writeLength_full n ho hj hk hc
    exact exec_bpWriteLength_refuse ht

/-- Settles O23: the command has no other line. -/
theorem bpBytesReturnsTheCount : Obligations.BpBytesReturnsTheCount :=
  ⟨rfl, fun _ => rfl⟩

/-- Settles O24: the last byte's write ends in one of three ways, and where it succeeds the storage flush in one of
two. -/
theorem bpCloseReleasesOnEveryPath : Obligations.BpCloseReleasesOnEveryPath := by
  refine ⟨rfl, fun s => ⟨exec_bpClose_idle, exec_bpClose_failed, ?_, ?_, ?_, ?_⟩⟩
  · intro ho hb hk hc
    obtain ⟨hk, ha⟩ := (HostScript.okFor_succ_iff _ _).mp hk
    obtain ⟨durable, hlast⟩ := closeLastByte_ok hb hk hc
    rw [HostScript.after_succ]
    exact exec_bpClose_ret (by rw [bpClose_opened ho, hlast, Flow.bind_ret]; exact closeStorage_ok ha)
  · intro l d ho hf hc ha
    exact exec_bpClose_raise (by rw [bpClose_opened ho, closeLastByte_fail hf hc ha, Flow.bind_raise])
  · intro l d ho hb hk hc ha
    obtain ⟨durable, hlast⟩ := closeLastByte_ok hb hk hc
    rw [HostScript.after_succ]
    exact exec_bpClose_raise (by rw [bpClose_opened ho, hlast, Flow.bind_ret]; exact closeStorage_fail ha)
  · intro ho hf hc
    exact exec_bpClose_refuse (by rw [bpClose_opened ho, closeLastByte_full hf hc, Flow.bind_refuse])

end Sys2Proof.Machine
end

section
/-! PROOFS. The read channel's commands under each course of SRC (41_bit_unpacker.md R121 to R125). -/

namespace Sys2Proof.Machine

variable {s : State}

/-! ## What a command answers, by how its lines end -/

section Ends
variable {t : State} {e : Status} {r : Refusal}

theorem exec_buReadBit_bit {b : Bool} (h : readBit s = .ret (some b) t) :
    exec .buReadBit s = .next (t.setResult (some ⟨.ok, .bit b⟩)) := by
  simp [exec, execBuReadBit, h]

theorem exec_buReadBit_signal (h : readBit s = .ret none t) :
    exec .buReadBit s = .next (t.setResult (some ⟨.endOfData, .none⟩)) := by
  simp [exec, execBuReadBit, h]

theorem exec_buReadBit_refuse (h : readBit s = .refuse r t) : exec .buReadBit s = .refused r := by
  simp [exec, execBuReadBit, h]

theorem exec_buReadLength_ret {n : Word32} (h : readLength s = .ret n t) :
    exec .buReadLength s = .next (t.setResult (some ⟨.ok, .length n⟩)) := by
  simp [exec, execBuReadLength, h]

theorem exec_buReadLength_raise (h : readLength s = .raise e t) :
    exec .buReadLength s = .next (t.setResult (some ⟨e, .none⟩)) := by
  simp [exec, execBuReadLength, h]

theorem exec_buReadLength_refuse (h : readLength s = .refuse r t) : exec .buReadLength s = .refused r := by
  simp [exec, execBuReadLength, h]

end Ends

/-! ## The opening tests -/

theorem buReadable_idle (h : s.buStatus = .idle) : buReadable s = .refuse .readChannelIdle s := by
  simp [buReadable, h]

theorem buReadable_opened (h : s.buStatus = .opened) : buReadable s = .ret () s := by simp [buReadable, h]

theorem exec_buReadBit_idle (h : s.buStatus = .idle) : exec .buReadBit s = .refused .readChannelIdle :=
  exec_buReadBit_refuse (t := s) (by rw [readBit, buReadable_idle h, Flow.bind_refuse])

theorem exec_buReadLength_idle (h : s.buStatus = .idle) : exec .buReadLength s = .refused .readChannelIdle :=
  exec_buReadLength_refuse (t := s) (by rw [readLength, buReadable_idle h, Flow.bind_refuse])

theorem exec_buClose_idle (h : s.buStatus = .idle) : exec .buClose s = .refused .readChannelIdle := by
  simp [exec, execBuClose, buClose, buReadable_idle h]

theorem exec_buClose_opened (h : s.buStatus = .opened) :
    exec .buClose s = .next ((s.srcRelease.setBuStatus .idle).setResult (some ⟨.ok, .none⟩)) := by
  simp [exec, execBuClose, buClose, buReadable_opened h]

theorem exec_buOpen_inUse (h : s.buStatus ≠ .idle) : exec .buOpen s = .refused .readChannelInUse := by
  cases hs : s.buStatus with
  | idle => exact absurd hs h
  | opened => simp [exec, execBuOpen, hs]

theorem buOpened_ok (h : s.host.answer = .ok) : buOpened s = (true, { s with
    buStatus := .opened, buBuf := 0, buAvail := 0, buBytes := 0, src := ⟨s.src.data, 0, true⟩
    host := s.host.advance }) := by
  simp [buOpened, State.srcOpen, State.answer, h, State.setHost, State.setSrc, State.setBuStatus, State.setBuBuffer,
    State.setBuBytes]

theorem buOpened_fail {l : List Byte} {d : Bool} (h : s.host.answer = .fail l d) : buOpened s = (false, s.drawn) := by
  simp [buOpened, State.srcOpen, State.answer, h]

theorem exec_buOpen_ok (h : s.buStatus = .idle) (ha : s.host.answer = .ok) : exec .buOpen s = .next { s with
    buStatus := .opened, buBuf := 0, buAvail := 0, buBytes := 0, src := ⟨s.src.data, 0, true⟩
    host := s.host.advance, result := some ⟨.ok, .none⟩ } := by
  simp [exec, execBuOpen, h, buOpened_ok ha, State.setResult]

theorem exec_buOpen_fail {l : List Byte} {d : Bool} (h : s.buStatus = .idle) (ha : s.host.answer = .fail l d) :
    exec .buOpen s = .next (s.drawn.setResult (some ⟨.openFailure, .none⟩)) := by
  simp [exec, execBuOpen, h, buOpened_fail ha]

/-! ## The next byte of SRC and the counter's guard -/

theorem buCounterFull_of_le (h : s.params.counterMax ≤ s.buBytes) : s.buCounterFull = true := decide_eq_true h

theorem buCounterFull_of_lt (h : s.buBytes < s.params.counterMax) : s.buCounterFull = false :=
  decide_eq_false (Nat.not_le.mpr h)

/-- The state when `j` bytes of SRC have been taken and counted (R44, R120). -/
def State.taken (s : State) (j : Nat) : State :=
  { s with buBytes := s.buBytes + j, src := ⟨s.src.data, s.src.pos + j, s.src.attached⟩ }

theorem State.taken_untaken (s : State) (j : Nat) : (s.taken j).untaken = s.untaken.drop j :=
  List.drop_drop.symm

theorem State.taken_taken (s : State) (i j : Nat) : (s.taken i).taken j = s.taken (i + j) := by
  simp [State.taken, Nat.add_assoc]

theorem State.srcRead_cons {b : Byte} {rest : List Byte} (h : s.untaken = b :: rest) :
    s.srcRead = (some b, s.setSrc ⟨s.src.data, s.src.pos + 1, s.src.attached⟩) := by
  have hb : s.src.data[s.src.pos]? = some b := by rw [← List.head?_drop, ← State.untaken, h]; rfl
  simp [State.srcRead, hb]

theorem State.srcRead_nil (h : s.untaken = []) : s.srcRead = (none, s) := by
  have hb : s.src.data[s.src.pos]? = none := by rw [← List.head?_drop, ← State.untaken, h]; rfl
  simp [State.srcRead, hb]

/-! ## BU_READ_BIT on an OPEN channel -/

theorem readBit_buffered (ho : s.buStatus = .opened) (h0 : s.buAvail ≠ 0) : readBit s = extractBit s := by
  simp [readBit, buReadable_opened ho, State.noBitsBuffered, h0]

theorem readBit_empty (ho : s.buStatus = .opened) (h0 : s.buAvail = 0) :
    readBit s = (fetchByte s).bind fun more s => if more then extractBit s else .ret none s := by
  simp [readBit, buReadable_opened ho, State.noBitsBuffered, h0]

theorem fetchByte_full (hc : s.params.counterMax ≤ s.buBytes) : fetchByte s = .refuse .byteCounterFull s := by
  simp [fetchByte, buCounterFull_of_le hc]

theorem fetchByte_byte {r : Byte} (hc : s.buBytes < s.params.counterMax) (hr : s.src.data[s.src.pos]? = some r) :
    fetchByte s = .ret true ((s.taken 1).setBuBuffer r 8) := by
  rw [fetchByte, buCounterFull_of_lt hc, State.srcRead_cons (drop_of_getElem? hr)]
  rfl

theorem fetchByte_end (hc : s.buBytes < s.params.counterMax) (hr : s.src.data[s.src.pos]? = none) :
    fetchByte s = .ret false s := by
  have hn : s.untaken = [] := List.drop_of_length_le (List.getElem?_eq_none_iff.mp hr)
  simp [fetchByte, buCounterFull_of_lt hc, State.srcRead_nil hn]

/-! ## BU_READ_LENGTH on an OPEN channel -/

theorem readLength_opened (ho : s.buStatus = .opened) : readLength s = takeLengthBytes 4 0 (s.setBuBuffer 0 0) := by
  rw [readLength, buReadable_opened ho, Flow.bind_ret]

theorem takeLengthBytes_full (k : Nat) (n : Word32) (hc : s.params.counterMax ≤ s.buBytes) :
    takeLengthBytes (k + 1) n s = .refuse .byteCounterFull s := by
  simp [takeLengthBytes, buCounterFull_of_le hc]

theorem takeLengthBytes_end (k : Nat) (n : Word32) (hc : s.buBytes < s.params.counterMax) (hu : s.untaken = []) :
    takeLengthBytes (k + 1) n s = .raise .truncatedStream s := by
  simp [takeLengthBytes, buCounterFull_of_lt hc, State.srcRead_nil hu]

/-- The bytes that are there are taken one after another, as long as the counter has room. -/
theorem takeLengthBytes_append (bytes rest : List Byte) (k : Nat) (n : Word32) (hu : s.untaken = bytes ++ rest)
    (hc : s.buBytes + bytes.length ≤ s.params.counterMax) :
    takeLengthBytes (bytes.length + k) n s = takeLengthBytes k (bytes.foldl appendByte n) (s.taken bytes.length) := by
  induction bytes generalizing s n with
  | nil => rw [List.length_nil, Nat.zero_add]; rfl
  | cons b bs ih =>
    rw [List.length_cons] at hc
    have hu' : (s.taken 1).untaken = bs ++ rest := by rw [State.taken_untaken, hu]; rfl
    have hc' : (s.taken 1).buBytes + bs.length ≤ (s.taken 1).params.counterMax := by
      simp [State.taken]; omega
    have hstep : takeLengthBytes (bs.length + k + 1) n s =
        takeLengthBytes (bs.length + k) (appendByte n b) (s.taken 1) := by
      simp [takeLengthBytes, buCounterFull_of_lt (show s.buBytes < s.params.counterMax by omega),
        State.srcRead_cons hu, State.taken, State.setSrc, State.setBuBytes]
    rw [List.length_cons, Nat.add_right_comm, hstep, ih _ hu' hc', State.taken_taken, Nat.add_comm 1, List.foldl_cons]

/-- `(n << 8) | r` is `256 * n + r` in 32 bits (R123). -/
theorem appendByte_ofNat (a : Nat) (r : Byte) : appendByte (.ofNat 32 a) r = .ofNat 32 (a * 256 + r.toNat) := by
  have hdisj : (BitVec.ofNat 32 a <<< 8) &&& r.setWidth 32 = 0#32 := by
    apply BitVec.eq_of_getLsbD_eq
    intro i hi
    by_cases h8 : i < 8
    · simp [h8]
    · simp [BitVec.getLsbD_of_ge r i (by omega)]
  rw [appendByte, ← BitVec.add_eq_or_of_and_eq_zero _ _ hdisj]
  apply BitVec.eq_of_toNat_eq
  have hr := r.isLt
  simp [Nat.shiftLeft_eq]

/-- Four bytes in front of the cursor: they are the length, most significant first. -/
theorem readLength_ok {b0 b1 b2 b3 : Byte} {rest : List Byte} (ho : s.buStatus = .opened)
    (hu : s.untaken = b0 :: b1 :: b2 :: b3 :: rest) (hc : s.buBytes + 4 ≤ s.params.counterMax) :
    readLength s = .ret
      (.ofNat 32 (b0.toNat * 2 ^ 24 + b1.toNat * 2 ^ 16 + b2.toNat * 2 ^ 8 + b3.toNat))
      ((s.setBuBuffer 0 0).taken 4) := by
  have hval : [b0, b1, b2, b3].foldl appendByte (.ofNat 32 0) =
      .ofNat 32 (b0.toNat * 2 ^ 24 + b1.toNat * 2 ^ 16 + b2.toNat * 2 ^ 8 + b3.toNat) := by
    simp only [List.foldl_cons, List.foldl_nil, appendByte_ofNat]
    exact congrArg (BitVec.ofNat 32) (by omega)
  have htake := takeLengthBytes_append (s := s.setBuBuffer 0 0) [b0, b1, b2, b3] rest 0 (.ofNat 32 0) hu hc
  rw [hval] at htake
  rw [readLength_opened ho]
  exact htake

/-- Fewer than four bytes: those there are taken, and the next read finds the end. -/
theorem readLength_truncated (ho : s.buStatus = .opened) (hl : s.untaken.length < 4)
    (hc : s.buBytes + s.untaken.length < s.params.counterMax) :
    readLength s = .raise .truncatedStream ((s.setBuBuffer 0 0).taken s.untaken.length) := by
  obtain ⟨k, hk⟩ : ∃ k, 4 = s.untaken.length + (k + 1) := ⟨3 - s.untaken.length, by omega⟩
  rw [readLength_opened ho, hk, takeLengthBytes_append (s := s.setBuBuffer 0 0) s.untaken [] _ _
    (List.append_nil _).symm (Nat.le_of_lt hc)]
  exact takeLengthBytes_end k _ hc (by rw [State.taken_untaken]; exact List.drop_length)

/-- The counter fills up after `j` bytes. -/
theorem readLength_full {j : Nat} (ho : s.buStatus = .opened) (h4 : j < 4) (hj : j ≤ s.untaken.length)
    (hc : s.buBytes + j = s.params.counterMax) : ∃ t, readLength s = .refuse .byteCounterFull t := by
  obtain ⟨k, hk⟩ : ∃ k, 4 = (s.untaken.take j).length + (k + 1) := ⟨3 - j, by rw [List.length_take]; omega⟩
  have hlen : (s.untaken.take j).length = j := List.length_take_of_le hj
  have hsplit : (s.setBuBuffer 0 0).untaken = s.untaken.take j ++ s.untaken.drop j :=
    (List.take_append_drop j s.untaken).symm
  rw [readLength_opened ho, hk, takeLengthBytes_append _ _ _ _ hsplit (by rw [hlen]; exact hc.le)]
  exact ⟨_, takeLengthBytes_full k _ (by rw [hlen]; exact hc.ge)⟩

end Sys2Proof.Machine
end

section
/-! PROOFS. Runs of bit reads on one channel: what they deliver, and where the cursor and the buffer then stand
(41_bit_unpacker.md R126). -/

namespace Sys2Proof.Machine

variable {s t : State}

theorem execAll_append {a b : List Instr} (h : execAll a s = .next t) : execAll (a ++ b) s = execAll b t := by
  induction a generalizing s with
  | nil => cases h; rfl
  | cons i rest ih =>
    rw [List.cons_append, execAll]
    rw [execAll] at h
    split at h
    · exact ih h
    · cases h
    · cases h

/-- `t` is `s` after `k` bit reads. -/
structure Delivered (s : State) (k : Nat) (t : State) : Prop where
  reading : Reading t
  avail : t.buAvail < 8
  unread : t.unread = s.unread.drop k
  inputs : SameInputs s t
  result : 0 < k → t.result = some ⟨.ok, .bit (s.unread.getD (k - 1) false)⟩

theorem Reading.setResult (h : Reading s) (r : Option Result) : Reading (s.setResult r) :=
  ⟨h.status, h.avail, h.counts, h.cursor, h.room⟩

theorem Delivered.zero (h : Reading s) (h8 : s.buAvail < 8) : Delivered s 0 s :=
  ⟨h, h8, rfl, .refl s, fun h0 => absurd h0 (Nat.lt_irrefl 0)⟩

/-- One more read takes the next bit. -/
theorem Delivered.read {k : Nat} (h : Delivered s k t) (hk : k < s.unread.length) :
    ∃ u, exec .buReadBit t = .next u ∧ Delivered s (k + 1) u := by
  obtain ⟨u, hu, hrest, hreading, h8, -⟩ :=
    readBit_total h.reading (h.unread.trans (List.drop_eq_getElem_cons hk))
  have hexec := exec_buReadBit_bit hu
  refine ⟨_, hexec, hreading.setResult _, h8, hrest, h.inputs.trans (exec_sameInputs hexec), fun _ => ?_⟩
  simp [hk]

/-- As many reads as there are bits: each returns the next one. -/
theorem Reading.execAll_buReadBit (h : Reading s) (h8 : s.buAvail < 8) {k : Nat} (hk : k ≤ s.unread.length) :
    ∃ t, execAll (List.replicate k .buReadBit) s = .next t ∧ Delivered s k t := by
  induction k with
  | zero => exact ⟨s, rfl, .zero h h8⟩
  | succ k ih =>
    obtain ⟨t, ht, hd⟩ := ih (Nat.le_of_succ_le hk)
    obtain ⟨u, hu, hd'⟩ := hd.read hk
    exact ⟨u, by rw [List.replicate_succ', execAll_append ht, execAll, hu]; rfl, hd'⟩

/-! ## From a fresh channel -/

theorem State.FreshRead.reading (h : s.FreshRead) (hroom : s.src.data.length ≤ s.params.counterMax) : Reading s :=
  ⟨h.status, by rw [h.avail]; omega, by rw [h.bytes, h.pos], by rw [h.pos]; omega, hroom⟩

theorem State.FreshRead.unread (h : s.FreshRead) : s.unread = streamBits s.src.data := by
  rw [unread_empty h.avail, State.untaken, h.pos, List.drop_zero]

/-- The bits still unread, counted by buffer and cursor. -/
theorem State.unread_length (h8 : s.buAvail ≤ 8) :
    s.unread.length = s.buAvail + 8 * (s.src.data.length - s.src.pos) := by
  simp [State.unread, h8]

/-- The cursor stands behind the byte that holds the last bit delivered, and the rest of that byte is buffered. -/
theorem Delivered.position {k : Nat} (h : Delivered s k t) (hf : s.FreshRead) (hk : k ≤ 8 * s.src.data.length) :
    t.src.pos = (k + 7) / 8 ∧ t.buAvail = 8 * ((k + 7) / 8) - k := by
  have hlen : t.unread.length = 8 * s.src.data.length - k := by
    rw [h.unread, hf.unread, List.length_drop, streamBits_length]
  rw [State.unread_length h.reading.avail, h.inputs.srcData] at hlen
  have h8 := h.avail
  have hcur := h.reading.cursor
  rw [h.inputs.srcData] at hcur
  omega

theorem Delivered.untaken {k : Nat} (h : Delivered s k t) (hf : s.FreshRead) (hk : k ≤ 8 * s.src.data.length) :
    t.untaken = s.src.data.drop ((k + 7) / 8) := by
  rw [State.untaken, h.inputs.srcData, (h.position hf hk).1]

/-- After the last bit the signal, and nothing changes. -/
theorem Delivered.signal {k : Nat} (h : Delivered s k t) (hroom : s.src.data.length < s.params.counterMax)
    (hk : s.unread.length ≤ k) : exec .buReadBit t = .next (t.setResult (some ⟨.endOfData, .none⟩)) := by
  have hnil : t.unread = [] := by rw [h.unread, List.drop_of_length_le hk]
  exact exec_buReadBit_signal (readBit_end h.reading (by rw [h.inputs.srcData, h.inputs.params]; exact hroom) hnil)

/-- A length read takes the next four bytes, whatever bits are still buffered. -/
theorem Reading.exec_buReadLength {b0 b1 b2 b3 : Byte} {rest : List Byte} (h : Reading s)
    (hu : s.untaken = b0 :: b1 :: b2 :: b3 :: rest) :
    ∃ u, exec .buReadLength s = .next u ∧ u.untaken = rest ∧ u.result = some ⟨.ok, .length (BitVec.ofNat 32
      (b0.toNat * 2 ^ 24 + b1.toNat * 2 ^ 16 + b2.toNat * 2 ^ 8 + b3.toNat))⟩ := by
  have hlen := congrArg List.length hu
  simp only [State.untaken, List.length_drop, List.length_cons] at hlen
  have hroom : s.buBytes + 4 ≤ s.params.counterMax := by
    have hcount := h.counts
    have hmax := h.room
    omega
  refine ⟨_, exec_buReadLength_ret (readLength_ok h.status hu hroom), ?_, rfl⟩
  calc ((s.setBuBuffer 0 0).taken 4).untaken = s.untaken.drop 4 := State.taken_untaken _ 4
    _ = rest := by rw [hu]; rfl

end Sys2Proof.Machine
end

section
/-! PROOFS. The statements of 41_bit_unpacker.md. -/

namespace Sys2Proof.Machine

/-- Settles O28: the unread bits are dropped, the bytes there are taken as long as the counter has room
(`takeLengthBytes_append`), and what stands behind them decides: nothing more to take, the end, or the guard. -/
theorem buReadLengthRealignsAndReads : Obligations.BuReadLengthRealignsAndReads := by
  refine ⟨rfl, fun s => ⟨exec_buReadLength_idle, ?_, ?_, ?_⟩⟩
  · intro b0 b1 b2 b3 rest ho hu hc
    exact exec_buReadLength_ret (readLength_ok ho hu hc)
  · intro ho hl hc
    exact exec_buReadLength_raise (readLength_truncated ho hl hc)
  · intro j ho h4 hj hc
    obtain ⟨t, ht⟩ := readLength_full ho h4 hj hc
    exact exec_buReadLength_refuse ht

/-- Settles O31: by induction on the reads each one takes the next bit (`Reading.execAll_buReadBit`); the number of
bits still unread then fixes the cursor, the counts and the buffer (`Delivered.position`). -/
theorem readChannelDeliversTheStream : Obligations.ReadChannelDeliversTheStream := by
  intro s k hfresh hroom hk
  have hlen : s.unread.length = 8 * s.src.data.length := by rw [hfresh.unread, streamBits_length]
  obtain ⟨t, ht, hd⟩ := (hfresh.reading hroom.le).execAll_buReadBit (by rw [hfresh.avail]; omega) (hk.trans hlen.ge)
  obtain ⟨hpos, havail⟩ := hd.position hfresh hk
  refine ⟨t, ht, ?_, hd.reading.counts.trans hpos, havail, ?_, ?_, ?_⟩
  · rw [hd.unread, hfresh.unread]
  · rw [← hfresh.unread]; exact hd.result
  · intro hend
    exact hd.signal hroom (hlen.trans hend.symm).le
  · intro b0 b1 b2 b3 rest hu
    exact hd.reading.exec_buReadLength ((hd.untaken hfresh hk).trans hu)

/-- Settles O26: the channel's status and the host's answer decide. -/
theorem buOpenOpensAFreshChannel : Obligations.BuOpenOpensAFreshChannel :=
  ⟨rfl, fun _ => ⟨exec_buOpen_ok, fun _ _ => exec_buOpen_fail, exec_buOpen_inUse⟩⟩

/-- Settles O27: a buffered bit is extracted; with none buffered the fetch has three ends. -/
theorem buReadBitTakesTheTopBit : Obligations.BuReadBitTakesTheTopBit := by
  refine ⟨rfl, fun s => ⟨exec_buReadBit_idle, ?_, ?_, ?_, ?_⟩⟩
  · intro ho h0
    exact exec_buReadBit_bit (readBit_buffered ho h0)
  · intro ho h0 hc
    exact exec_buReadBit_refuse (by rw [readBit_empty ho h0, fetchByte_full hc, Flow.bind_refuse])
  · intro r ho h0 hc hr
    exact exec_buReadBit_bit (by rw [readBit_empty ho h0, fetchByte_byte hc hr]; rfl)
  · intro ho h0 hc hr
    exact exec_buReadBit_signal (by rw [readBit_empty ho h0, fetchByte_end hc hr]; rfl)

/-- Settles O29: the command has no other line. -/
theorem buBytesReturnsTheCount : Obligations.BuBytesReturnsTheCount :=
  ⟨rfl, fun _ => rfl⟩

/-- Settles O30: the channel's status decides. -/
theorem buCloseReleasesTheStream : Obligations.BuCloseReleasesTheStream :=
  ⟨rfl, fun _ => ⟨exec_buClose_idle, exec_buClose_opened⟩⟩

end Sys2Proof.Machine
end

section
/-! PROOFS. The build's loop: each round joins the two least entries, whatever the order of the list, so that the tree
depends on the entries alone (42_canonical_tree_serializer.md R143, R144). -/

namespace Sys2Proof.Machine

/-! ## The symbols and their first entries -/

/-- The symbols with a non-zero count are in ascending order (R143). -/
theorem symbolsOf_ascending (freq : Vector Word32 256) :
    (symbolsOf freq).Pairwise fun a b => a.toNat < b.toNat := by
  have hsub : ((freq.toList.zipIdx.filter fun e => e.1 != 0).map (·.2)).Sublist (List.range' 0 256) := by
    rw [← show freq.toList.zipIdx.map (·.2) = List.range' 0 256 by simp]
    exact List.filter_sublist.map _
  have hmap : symbolsOf freq =
      ((freq.toList.zipIdx.filter fun e => e.1 != 0).map (·.2)).map (BitVec.ofNat 8) := by simp [symbolsOf]
  rw [hmap, List.pairwise_map]
  refine (List.Pairwise.sublist hsub List.pairwise_lt_range').imp_of_mem fun {i j} hi hj hij => ?_
  have hi' := List.mem_range'_1.mp (hsub.subset hi)
  have hj' := List.mem_range'_1.mp (hsub.subset hj)
  simp only [BitVec.toNat_ofNat]
  omega

/-- Entry number `j` is the leaf of symbol `j`, with its frequency and the next sequence number (R144). -/
theorem leafEntries_getElem? (freq : Vector Word32 256) (k : Nat) (syms : List Byte) (j : Nat) (h : j < syms.length) :
    (leafEntries freq k syms)[j]? =
      some ⟨(freq[syms[j].toNat]'syms[j].isLt).toNat, k + j, .leaf syms[j]⟩ := by
  induction syms generalizing k j with
  | nil => cases h
  | cons s rest ih =>
    cases j with
    | zero => rfl
    | succ j =>
      have hj := ih (k + 1) j (Nat.lt_of_succ_lt_succ h)
      rw [Nat.add_right_comm, Nat.add_assoc] at hj
      exact hj

theorem buildTree_of_two {freq : Vector Word32 256} {s s' : Byte} {rest : List Byte}
    (h : symbolsOf freq = s :: s' :: rest) : buildTree freq = combine (rest.length + 1) (rest.length + 2)
      ⟨(freq[s.toNat]'s.isLt).toNat, 0, .leaf s⟩ (leafEntries freq 1 (s' :: rest)) := by
  rw [buildTree, h, treeOfSymbols]

/-! ## The order of the entries -/

theorem Entry.before_iff (a b : Entry) : a.before b = true ↔ a.f < b.f ∨ (a.f = b.f ∧ a.seq < b.seq) := by
  simp [Entry.before]

/-- Two entries with different numbers stand one before the other. -/
theorem Entry.before_of_not_before {a b : Entry} (h : ¬ b.before a = true) (hne : a.seq ≠ b.seq) :
    a.before b = true := by
  rw [Entry.before_iff] at h ⊢
  omega

theorem Entry.not_before_of_before {a b : Entry} (h : a.before b = true) : ¬ b.before a = true := by
  rw [Entry.before_iff] at h ⊢
  omega

theorem Entry.not_before_trans {a b c : Entry} (h : ¬ b.before a = true) (k : ¬ c.before b = true) :
    ¬ c.before a = true := by
  rw [Entry.before_iff] at h k ⊢
  omega

/-- `a` comes before every entry of the list. -/
def Entry.Least (a : Entry) (l : List Entry) : Prop := ∀ x ∈ l, a.f < x.f ∨ (a.f = x.f ∧ a.seq < x.seq)

theorem Entry.Least.perm {a : Entry} {l l' : List Entry} (h : a.Least l) (hp : l.Perm l') : a.Least l' :=
  fun x hx => h x (hp.mem_iff.mpr hx)

theorem Entry.Least.before {a x : Entry} {l : List Entry} (h : a.Least l) (hx : x ∈ l) : a.before x = true :=
  (Entry.before_iff a x).mpr (h x hx)

/-- No entry comes before the one that is extracted. -/
theorem extractLeast_not_before (e : Entry) (rest : List Entry) :
    ∀ x ∈ e :: rest, ¬ x.before (extractLeast e rest).1 = true := by
  induction rest generalizing e with
  | nil => simp [extractLeast, Entry.before]
  | cons y rest ih =>
    unfold extractLeast
    split
    · rename_i hlt
      have hy := ih y y List.mem_cons_self
      refine List.forall_mem_cons.mpr ⟨?_, ih y⟩
      exact Entry.not_before_trans hy (Entry.not_before_of_before hlt)
    · rename_i hlt
      have he := ih e e List.mem_cons_self
      refine List.forall_mem_cons.mpr ⟨he, List.forall_mem_cons.mpr ⟨Entry.not_before_trans he hlt, ?_⟩⟩
      exact fun x hx => ih e x (List.mem_cons_of_mem _ hx)

/-- The entry that comes before all others is the one extracted, wherever it stands in the list. -/
theorem extractLeast_of_least {e a : Entry} {rest others : List Entry} (hp : (e :: rest).Perm (a :: others))
    (ha : a.Least others) : (extractLeast e rest).1 = a ∧ (extractLeast e rest).2.Perm others := by
  have hperm := (extractLeast_perm e rest).trans hp
  have hfirst : (extractLeast e rest).1 = a := by
    rcases List.mem_cons.mp (hperm.mem_iff.mp List.mem_cons_self) with heq | hmem
    · exact heq
    · have hmin := extractLeast_not_before e rest a (hp.mem_iff.mpr List.mem_cons_self)
      exact absurd (ha.before hmem) hmin
  exact ⟨hfirst, (List.perm_cons a).mp (hfirst ▸ hperm)⟩

/-! ## One round -/

/-- The entry that joins `a` and `b`, `a` on the left (R144). -/
def Entry.join (next : Nat) (a b : Entry) : Entry := ⟨a.f + b.f, next, .internal a.tree b.tree⟩

/-- One round joins the least entry and the least of the others, up to the order of those that stay. -/
theorem combine_round (next : Nat) {e a b : Entry} {rest others : List Entry}
    (hp : (e :: rest).Perm (a :: b :: others)) (ha : a.Least (b :: others)) (hb : b.Least others) :
    ∃ l, l.Perm others ∧
      combine rest.length next e rest = combine others.length (next + 1) (Entry.join next a b) l := by
  have hlen : rest.length = others.length + 1 := by simpa using hp.length_eq
  obtain ⟨hfirst, hrest⟩ := extractLeast_of_least hp ha
  obtain ⟨x, more, hmore⟩ : ∃ x more, (extractLeast e rest).2 = x :: more := by
    refine List.exists_cons_of_ne_nil fun hnil => ?_
    rw [hnil] at hrest
    exact List.cons_ne_nil _ _ hrest.nil_eq.symm
  obtain ⟨hsecond, hl⟩ := extractLeast_of_least (hmore ▸ hrest) hb
  refine ⟨_, hl, ?_⟩
  rw [hlen, combine_succ _ next e rest a x more (Prod.ext hfirst hmore), hsecond]
  rfl

/-! ## The order of the list -/

/-- The entries of a list have different numbers, all below `next` (R144). -/
structure Numbered (next : Nat) (l : List Entry) : Prop where
  below : ∀ x ∈ l, x.seq < next
  nodup : (l.map (·.seq)).Nodup

theorem Numbered.perm {next : Nat} {l l' : List Entry} (h : Numbered next l) (hp : l.Perm l') : Numbered next l' :=
  ⟨fun x hx => h.below x (hp.mem_iff.mpr hx), (hp.map _).nodup_iff.mp h.nodup⟩

theorem Numbered.tail {next : Nat} {a : Entry} {l : List Entry} (h : Numbered next (a :: l)) : Numbered next l :=
  ⟨fun x hx => h.below x (List.mem_cons_of_mem a hx), (List.nodup_cons.mp h.nodup).2⟩

/-- After a round the new entry has the next number. -/
theorem Numbered.join {next : Nat} {a b : Entry} {l : List Entry} (h : Numbered next (a :: b :: l)) :
    Numbered (next + 1) (Entry.join next a b :: l) := by
  have hl := h.tail.tail
  refine ⟨List.forall_mem_cons.mpr ⟨Nat.lt_succ_self next, fun x hx => Nat.lt_succ_of_lt (hl.below x hx)⟩, ?_⟩
  refine List.nodup_cons.mpr ⟨fun hmem => ?_, hl.nodup⟩
  obtain ⟨x, hx, hseq⟩ := List.mem_map.mp hmem
  exact (hl.below x hx).ne hseq

/-- Of numbered entries one comes before all others. -/
theorem Numbered.exists_least {next : Nat} {l : List Entry} (h : Numbered next l) (hne : l ≠ []) :
    ∃ a others, l.Perm (a :: others) ∧ a.Least others := by
  obtain ⟨e, rest, rfl⟩ := List.exists_cons_of_ne_nil hne
  have hp := (extractLeast_perm e rest).symm
  refine ⟨_, _, hp, fun x hx => (Entry.before_iff _ x).mp (Entry.before_of_not_before ?_ fun hseq => ?_)⟩
  · exact extractLeast_not_before e rest x (hp.mem_iff.mpr (List.mem_cons_of_mem _ hx))
  · exact (List.nodup_cons.mp (h.perm hp).nodup).1 (List.mem_map.mpr ⟨x, hx, hseq.symm⟩)

/-- The order of the list does not matter: by induction on the rounds, in each of which the same two entries are
joined (R144). -/
theorem combine_perm (next : Nat) {e e' : Entry} {rest rest' : List Entry} (hp : (e :: rest).Perm (e' :: rest'))
    (h : Numbered next (e :: rest)) : combine rest.length next e rest = combine rest'.length next e' rest' := by
  induction hk : rest.length generalizing next e e' rest rest' with
  | zero =>
    obtain rfl := List.length_eq_zero_iff.mp hk
    obtain ⟨rfl, rfl⟩ := List.cons.inj (List.singleton_perm.mp hp).symm
    rfl
  | succ k ih =>
    obtain ⟨a, l, hal, ha⟩ := h.exists_least (List.cons_ne_nil _ _)
    have hl : l.length = k + 1 := by simpa [hk] using hal.length_eq.symm
    obtain ⟨b, others, hbo, hb⟩ := (h.perm hal).tail.exists_least (List.ne_nil_of_length_eq_add_one hl)
    have hab : (e :: rest).Perm (a :: b :: others) := hal.trans (hbo.cons a)
    obtain ⟨m, hm, hround⟩ := combine_round next hab (ha.perm hbo) hb
    obtain ⟨m', hm', hround'⟩ := combine_round next (hp.symm.trans hab) (ha.perm hbo) hb
    have hlen : others.length = k := by simpa [hl] using hbo.length_eq.symm
    have hnum : Numbered (next + 1) (Entry.join next a b :: m) := ((h.perm hab).join).perm (hm.symm.cons _)
    have hih := ih (next + 1) ((hm.trans hm'.symm).cons (Entry.join next a b)) hnum (hm.length_eq.trans hlen)
    rw [← hk, hround, hround', hlen, hih, hm'.length_eq, hlen]

end Sys2Proof.Machine
end

section
/-! PROOFS. The serializer's commands on tables, trees and the write channel: what each answers by whether there is a
tree, and where TS_SERIALIZE stops (42_canonical_tree_serializer.md R141 to R152, R156). -/

namespace Sys2Proof.Machine

variable {s u : State} {x : Tree}

/-! ## The frequency and code tables -/

theorem freqAt_freqCleared (s : State) (sym : Byte) : (freqCleared s).freqAt sym = 0 := by
  simp [freqCleared, State.freqAt]

theorem freqAt_setFreqAt_same (s : State) (sym : Byte) (count : Word32) :
    (s.setFreqAt sym count).freqAt sym = count := by
  simp [State.setFreqAt, State.freqAt]

theorem freqAt_setFreqAt_other (s : State) {sym other : Byte} (count : Word32) (h : other ≠ sym) :
    (s.setFreqAt sym count).freqAt other = s.freqAt other := by
  have hne : sym.toNat ≠ other.toNat := fun heq => h (BitVec.eq_of_toNat_eq heq.symm)
  simp [State.setFreqAt, State.freqAt, hne]

theorem State.codeAt_setResult (s : State) (r : Option Result) (sym : Byte) :
    (s.setResult r).codeAt sym = s.codeAt sym := rfl

/-- A command that writes `code` alone. -/
theorem State.setCode_setResult_eq (s : State) (v : Vector (Option Bits) 256) (r : Option Result) :
    (s.setCode v).setResult r = { s with code := v, result := r } := rfl

theorem exec_tsCodeGet (sym : Byte) (s : State) : exec (.tsCodeGet sym) s =
    .next (s.setResult (some ⟨.ok, codeValue s.params.maxDepth (s.codeAt sym)⟩)) := rfl

theorem exec_tsBuild_refused (h : 2 * (symbolsOf s.freq).length > s.params.maxNodes + 1) :
    exec .tsBuild s = .refused .treeStoreTooSmall := by
  simp [exec, execTsBuild, build, h]

theorem exec_tsBuild_stored (h : 2 * (symbolsOf s.freq).length ≤ s.params.maxNodes + 1) : exec .tsBuild s =
    .next ((s.clearCode.setTree (some (buildTree s.freq))).setResult (some ⟨.ok, .none⟩)) := by
  simp [exec, execTsBuild, build, Nat.not_lt.mpr h]

/-- The table gives a symbol the path of the first leaf that holds it (R148). -/
theorem Tree.table_eq_find? (x : Tree) (sym : Byte) :
    x.table sym = (x.paths.find? fun e => e.1 == sym).map (·.2) := by
  unfold Tree.table
  cases x.paths.find? fun e => e.1 == sym <;> rfl

/-! ## Without a tree, and with one -/

theorem theTree_none (h : s.tree = none) : theTree s = .refuse .noTree s := by simp [theTree, h]

theorem theTree_some (h : s.tree = some x) : theTree s = .ret x s := by simp [theTree, h]

theorem exec_tsCodetable_noTree (h : s.tree = none) : exec .tsCodetable s = .refused .noTree := by
  simp [exec, execTsCodetable, makeCodeTable, theTree_none h]

theorem exec_tsCodetable_tree (h : s.tree = some x) :
    exec .tsCodetable s = .next ((s.setCode x.codeTable).setResult (some ⟨.ok, .none⟩)) := by
  simp [exec, execTsCodetable, makeCodeTable, theTree_some h]

theorem exec_tsSize_noTree (h : s.tree = none) : exec .tsSize s = .refused .noTree := by
  simp [exec, execTsSize, theTree_none h]

theorem exec_tsSize_tree (h : s.tree = some x) :
    exec .tsSize s = .next (s.setResult (some ⟨.ok, .size x.size⟩)) := by
  simp [exec, execTsSize, theTree_some h]

theorem exec_tsSerialize_noTree (h : s.tree = none) : exec .tsSerialize s = .refused .noTree := by
  simp [exec, execTsSerialize, serialize, theTree_none h]

theorem serialize_tree (h : s.tree = some x) : serialize s = writeBits x.ser s := by
  rw [serialize, theTree_some h, Flow.bind_ret, emit_eq_writeBits]

theorem exec_tsSerialize_tree (h : s.tree = some x) :
    exec .tsSerialize s = ((writeBits x.ser s).bind fun _ u => .ret .none u).finish := by
  rw [exec, execTsSerialize, serialize_tree h]

/-! ## TS_SERIALIZE as a run of BP_WRITE_BIT commands -/

/-- A run that returned OK throughout is what TS_SERIALIZE leaves. -/
theorem exec_tsSerialize_of_runOk (h : s.tree = some x) (hr : runOk (writeBitCommands x.ser) s = some u) :
    exec .tsSerialize s = .next (u.setResult (some ⟨.ok, .none⟩)) := by
  obtain ⟨v, hv, hres⟩ := writeBits_of_runOk hr
  rw [exec_tsSerialize_tree h, hv, hres]
  rfl

/-- BP_WRITE_BIT does not look at the result recorded before it. -/
theorem exec_bpWriteBit_setResult (b : Bool) (s : State) (r : Option Result) :
    exec (.bpWriteBit b) (s.setResult r) = exec (.bpWriteBit b) s := by
  simp only [exec, execBpWriteBit, writeBit_setResult]
  cases writeBit b s <;> rfl

/-- The first BP_WRITE_BIT of the run that does not return OK is the end of TS_SERIALIZE: with its error and in its
state, or with its refusal. -/
theorem exec_tsSerialize_of_stop {p q : Bits} {b : Bool} (h : s.tree = some x) (hser : x.ser = p ++ b :: q)
    (hr : runOk (writeBitCommands p) s = some u)
    (hstop : ∀ v y, exec (.bpWriteBit b) u = .next v → v.result ≠ some ⟨.ok, y⟩) :
    exec .tsSerialize s = exec (.bpWriteBit b) u := by
  obtain ⟨w, hw, hres⟩ := writeBits_of_runOk hr
  have hlast : exec (.bpWriteBit b) u = exec (.bpWriteBit b) w := by
    rw [← exec_bpWriteBit_setResult b u none, hres, exec_bpWriteBit_setResult]
  rw [hlast] at hstop ⊢
  rw [exec_tsSerialize_tree h, hser, writeBits_append, hw, Flow.bind_ret, writeBits]
  cases hb : writeBit b w with
  | ret a v => exact absurd rfl (hstop _ _ (exec_bpWriteBit_ret hb))
  | raise e v => rw [exec_bpWriteBit_raise hb]; rfl
  | refuse r v => rw [exec_bpWriteBit_refuse hb]; rfl

/-- After TS_SERIALIZE and BP_CLOSE on a fresh channel that returned OK, SINK holds the packed tree, and the tree is
still stored. -/
theorem State.FreshWrite.serialize_close (hf : s.FreshWrite) (h : s.tree = some x)
    (hr : runOk [.tsSerialize, .bpClose] s = some u) : u.sink.data = pack x.ser ∧ u.tree = some x := by
  rw [show [Instr.tsSerialize, .bpClose] = [.tsSerialize] ++ [.bpClose] from rfl, runOk_append,
    Option.bind_eq_some_iff] at hr
  obtain ⟨w, hw, hclose⟩ := hr
  obtain ⟨hser, y, hy⟩ := runOk_singleton.mp hw
  obtain ⟨_, v, hv, rfl⟩ := (serialize_raises s).returned not_writeFails_ok hser hy
  have hholds : Holds [] x.ser v := hf.holds.writeBits (by rw [← serialize_tree h, hv])
  have hclosed := (hholds.of_setResult (u := v.setResult (some ⟨.ok, y⟩)) fun _ => rfl).closeCommand hclose
  have htree := (exec_registerFrame (runOk_singleton.mp hclose).1).tree rfl
  exact ⟨hclosed.data, htree.trans (((exec_registerFrame hser).tree rfl).trans h)⟩

end Sys2Proof.Machine
end

section
/-! PROOFS. TS_DESERIALIZE: on the bits of a tree, and on bits that end or overrun the tree store at a node
(42_canonical_tree_serializer.md R153 to R155). -/

namespace Sys2Proof.Machine

variable {s u : State} {x : Tree} {e : Status}

/-- An OPEN read channel that meets the invariant, with room in the counter. -/
theorem Reading.of_opened (ho : s.buStatus = .opened) (hb : s.BuBufferOk) (hc : s.CursorsOk) (hk : s.CountsAreTrue)
    (hroom : s.src.data.length ≤ s.params.counterMax) : Reading s :=
  ⟨ho, hb.1, hk.2 ho, hc.1, hroom⟩

/-- The state in which the parse begins: no tree and no code (R153). -/
def State.forgotten (s : State) : State := (s.setTree none).clearCode

theorem Reading.forgotten (h : Reading s) : Reading s.forgotten := ⟨h.status, h.avail, h.counts, h.cursor, h.room⟩

theorem OnlyUnpacker.codeAt_forgotten (h : OnlyUnpacker s.forgotten u) (sym : Byte) : u.codeAt sym = none :=
  clearCode_all u h.code sym

/-! ## What the command answers, by how the parse ends -/

theorem deserialize_opened (ho : s.buStatus = .opened) : deserialize s =
    (parse (s.params.maxNodes + 1) 0 s.forgotten).bind fun t u => .ret t.1 (u.setTree (some t.1)) := by
  rw [deserialize, buReadable_opened ho]
  rfl

theorem exec_tsDeserialize_ret {n : Nat} (ho : s.buStatus = .opened)
    (h : parse (s.params.maxNodes + 1) 0 s.forgotten = .ret (x, n) u) :
    exec .tsDeserialize s = .next ((u.setTree (some x)).setResult (some ⟨.ok, .none⟩)) := by
  rw [exec, execTsDeserialize, deserialize_opened ho, h]
  rfl

theorem exec_tsDeserialize_raise (ho : s.buStatus = .opened)
    (h : parse (s.params.maxNodes + 1) 0 s.forgotten = .raise e u) :
    exec .tsDeserialize s = .next (u.setResult (some ⟨e, .none⟩)) := by
  rw [exec, execTsDeserialize, deserialize_opened ho, h]
  rfl

/-- TS_DESERIALIZE takes exactly the bits of the tree it stores (R155). -/
theorem Reading.exec_tsDeserialize_ser (h : Reading s) {y : Bits} (hn : x.nodes ≤ s.params.maxNodes)
    (hu : s.unread = x.ser ++ y) : ∃ u, exec .tsDeserialize s = .next u ∧ u.result = some ⟨.ok, .none⟩ ∧
      u.tree = some x ∧ (∀ sym, u.codeAt sym = none) ∧ u.unread = y ∧ u.buStatus = .opened := by
  obtain ⟨u, hp, hrest, hreading, honly, -⟩ :=
    parse_ser x (s.params.maxNodes + 1) 0 y h.forgotten hu (by omega) ((Nat.zero_add _).trans_le hn)
  exact ⟨_, exec_tsDeserialize_ret h.status hp, rfl, rfl, honly.codeAt_forgotten, hrest, hreading.status⟩

/-- Where the bits are the first `k` nodes of a tree, what the parse does at the next node is how TS_DESERIALIZE ends
(R153). -/
theorem Reading.exec_tsDeserialize_stops (h : Reading s) {k : Nat} {y z : Bits} (hk : k < x.tokens.length)
    (hcap : k ≤ s.params.maxNodes) (hu : s.unread = (x.tokens.take k).flatMap tokenBits ++ y)
    (hstop : ∀ u f, Reading u → OnlyUnpacker s.forgotten u → u.unread = y →
      ∃ v, parse (f + 1) k u = .raise e v ∧ v.unread = z) :
    ∃ u, exec .tsDeserialize s = .next u ∧ u.result = some ⟨e, .none⟩ ∧ u.tree = none ∧
      (∀ sym, u.codeAt sym = none) ∧ u.unread = z := by
  obtain ⟨v, hv, hz⟩ := parse_stops x k (s.params.maxNodes + 1) 0 h.forgotten hk hu ((Nat.zero_add k).trans_le hcap)
    (Nat.succ_le_succ hcap) (by rwa [Nat.zero_add])
  have honly : OnlyUnpacker s.forgotten v := by
    have hpost := parse_only (s.params.maxNodes + 1) 0 s.forgotten
    rwa [hv] at hpost
  exact ⟨_, exec_tsDeserialize_raise h.status hv, rfl, honly.tree, fun sym => honly.codeAt_forgotten sym, hz⟩

/-! ## The ways a parse stops at a node -/

/-- No bit is left: the stream ends between two nodes (R153). -/
theorem parse_end (f count : Nat) (h : Reading s) (hroom : s.src.data.length < s.params.counterMax)
    (hu : s.unread = []) : parse (f + 1) count s = .raise .truncatedStream s := by
  rw [parse, readBit_end h hroom hu]
  rfl

/-- A leaf's tag and fewer than eight symbol bits: the stream ends inside the leaf (R153). -/
theorem parse_leaf_end (f count : Nat) (h : Reading s) (hroom : s.src.data.length < s.params.counterMax)
    (hcount : count < s.params.maxNodes) {bits : Bits} (hbits : bits.length < 8) (hu : s.unread = true :: bits) :
    ∃ v, parse (f + 1) count s = .raise .malformedTree v ∧ v.unread = [] := by
  obtain ⟨t, ht, hrest, hreading, -, honly⟩ := readBit_total h hu
  have hroom' : t.src.data.length < t.params.counterMax := by rw [honly.srcData, honly.params]; exact hroom
  have hcap : ¬ count ≥ t.params.maxNodes := by rw [honly.params]; omega
  obtain ⟨v, hv, hnil⟩ := readSymbol_end hreading hroom' bits hrest 8 hbits 0
  exact ⟨v, by simp only [parse, ht, Flow.bind_ret, hcap, if_false, if_true, hv, Flow.bind_raise], hnil⟩

/-- The tag of a node that the store has no room for (R154). -/
theorem parse_full (f count : Nat) (h : Reading s) (hcount : s.params.maxNodes ≤ count) {tag : Bool} {y : Bits}
    (hu : s.unread = tag :: y) : ∃ v, parse (f + 1) count s = .raise .malformedTree v ∧ v.unread = y := by
  obtain ⟨t, ht, hrest, -, -, honly⟩ := readBit_total h hu
  exact ⟨t, by simp [parse, ht, honly.params, hcount], hrest⟩

end Sys2Proof.Machine
end

section
/-! PROOFS. The statements of 42_canonical_tree_serializer.md. -/

namespace Sys2Proof.Machine

/-- Settles O35: the store's size decides; the trees of no symbol and of one are the placeholders by definition. -/
theorem buildStoresTheTree : Obligations.BuildStoresTheTree := by
  intro s
  refine ⟨fun sym => mem_symbolsOf s.freq sym, symbolsOf_ascending s.freq, exec_tsBuild_refused, fun h => ?_,
    fun h => ?_, fun a h => ?_⟩
  · exact ⟨_, exec_tsBuild_stored h, rfl, fun sym => State.codeAt_clearCode s sym, rfl⟩
  · rw [buildTree, h]; rfl
  · rw [buildTree, h]; rfl

/-- Settles O36: the least entry of a list is extracted wherever it stands (`extractLeast_of_least`), so that a round
joins the two least (`combine_round`) and the order of the list does not matter (`combine_perm`). -/
theorem buildJoinsTheTwoLeast : Obligations.BuildJoinsTheTwoLeast := by
  refine ⟨fun freq s s' rest h => buildTree_of_two h, fun freq k syms => ?_, ?_, fun next e => rfl, ?_⟩
  · exact ⟨leafEntries_length freq k syms, leafEntries_getElem? freq k syms⟩
  · intro next e a b rest others hp hbelow hnodup ha hb
    obtain ⟨l, hl, hround⟩ := combine_round next hp ha hb
    have hnum : Numbered (next + 1) (Entry.join next a b :: l) :=
      ((Numbered.mk hbelow hnodup).perm hp).join.perm (hl.symm.cons _)
    have horder := combine_perm (next + 1) (hl.cons _) hnum
    rw [hl.length_eq] at horder
    exact hround.trans horder
  · intro next e e' rest rest' hp hbelow hnodup
    exact combine_perm next hp ⟨hbelow, hnodup⟩

/-- Settles O42: the walk of the tree is the run of bit writes of `ser(tree)` (`emit_eq_writeBits`), which goes on or
stops as the run of commands does. -/
theorem serializeWritesTheTreeBits : Obligations.SerializeWritesTheTreeBits := by
  intro s
  refine ⟨exec_tsSerialize_noTree, ?_, ?_, fun t u => exec_tsSerialize_of_runOk, ?_, ?_, ?_⟩
  · intro t ht hidle
    obtain ⟨b, bits, hser⟩ := List.exists_cons_of_ne_nil t.ser_ne_nil
    rw [exec_tsSerialize_tree ht, hser, writeBits, writeBit_idle b hidle]
    rfl
  · intro t ht hfailed
    rw [exec_tsSerialize_tree ht, writeBits_failed hfailed t.ser_ne_nil]
    rfl
  · intro t ht ho hn hc
    rw [exec_tsSerialize_tree ht]
    exact writeBits_finish_eq_runOk t.ser ho hn (by rwa [t.ser_length])
  · intro t p q b u v ht hser hr hv hfail
    rw [exec_tsSerialize_of_stop ht hser hr, hv]
    intro v' y hv' hok
    cases hv.symm.trans hv'
    cases hfail.symm.trans hok
  · intro t p q b u r ht hser hr href
    rw [exec_tsSerialize_of_stop ht hser hr, href]
    intro v' y hv'
    cases href.symm.trans hv'

/-- Settles O43: by induction on the tree the parse takes exactly its bits (`parse_ser`). -/
theorem deserializeRecoversTheTree : Obligations.DeserializeRecoversTheTree :=
  fun _ _ _ ho hb hc hk hroom hn hu => (Reading.of_opened ho hb hc hk hroom).exec_tsDeserialize_ser hn hu

/-- Settles O44: the parse goes through the `k` nodes (`parse_stops`) and finds no bit, or too few of a symbol. -/
theorem deserializeReportsTheEnd : Obligations.DeserializeReportsTheEnd := by
  intro s t k ho hb hc hk hroom hlt
  have hreading := Reading.of_opened ho hb hc hk hroom.le
  have hroom' {u : State} (h : OnlyUnpacker s.forgotten u) : u.src.data.length < u.params.counterMax := by
    rw [h.srcData, h.params]; exact hroom
  constructor
  · intro hcap hu
    exact hreading.exec_tsDeserialize_stops (y := []) hlt hcap (by rw [hu, List.append_nil])
      fun u f hR hO hnil => ⟨u, parse_end f k hR (hroom' hO) hnil, hnil⟩
  · intro sym j hcap _ hj hu
    refine hreading.exec_tsDeserialize_stops hlt hcap.le hu fun u f hR hO hy => ?_
    exact parse_leaf_end f k hR (hroom' hO) (by rw [hO.params]; exact hcap) (by rw [List.length_take]; omega) hy

/-- Settles O45: the parse goes through `MAX_NODES` nodes (`parse_stops`) and has no room for one more. -/
theorem deserializeHasACapacity : Obligations.DeserializeHasACapacity := by
  intro s t tag x ho hb hc hk hroom hlt hu
  obtain ⟨u, hexec, hresult, htree, -, hrest⟩ :=
    (Reading.of_opened ho hb hc hk hroom).exec_tsDeserialize_stops hlt le_rfl hu
      fun v f hR hO hy => parse_full f _ hR (by rw [hO.params]; exact le_rfl) hy
  exact ⟨u, hexec, hresult, htree, hrest⟩

/-- Settles O46: SINK holds the packed tree, whose bits are those of the tree and some padding (`streamBits_pack`). -/
theorem serializedTreesAreReadBack : Obligations.SerializedTreesAreReadBack := by
  intro s u s' t hwrite ht hr hread hdata hroom hn
  obtain ⟨hsink, htree⟩ := hwrite.serialize_close ht hr
  have hunread := hread.unread
  rw [hdata, hsink, streamBits_pack] at hunread
  obtain ⟨v, hexec, hresult, hv, -⟩ := (hread.reading hroom).exec_tsDeserialize_ser hn hunread
  exact ⟨v, _, _, hexec, hresult, hv, exec_tsCodetable_tree hv, exec_tsCodetable_tree htree, rfl⟩

/-- Settles O47: the size is the length of the serialized form, and a full tree has one inner node fewer than leaves. -/
theorem sizeIsTheSerializedLength : Obligations.SizeIsTheSerializedLength := by
  refine ⟨rfl, fun s => exec_tsSize_noTree, fun s t => exec_tsSize_tree, fun t => ⟨t.ser_length, t.size_eq, ?_⟩⟩
  rw [pack_length, t.ser_length, ← t.size_eq]

/-- Settles O33: the command has no other line. -/
theorem freqClearZeroesTheTable : Obligations.FreqClearZeroesTheTable :=
  ⟨rfl, fun s => ⟨_, rfl, freqAt_freqCleared s, rfl⟩⟩

/-- Settles O34: the word is the encoder's, and the command has no other line. -/
theorem freqSetWritesOneEntry : Obligations.FreqSetWritesOneEntry :=
  ⟨fun sym count => decodeInvertsEncode (.tsFreqSet sym count), fun s sym count =>
    ⟨_, rfl, freqAt_setFreqAt_same s sym count, fun _ h => freqAt_setFreqAt_other s count h, rfl⟩⟩

/-- Settles O38: the two leaves hold the one symbol, and the first of them gives the code. -/
theorem placeholderTreesHaveOneBitCodes : Obligations.PlaceholderTreesHaveOneBitCodes := by
  intro a
  refine ⟨rfl, rfl, ?_, fun b hb => ?_, rfl, rfl⟩
  · simp [placeholder, Tree.table, Tree.paths]
  · rw [Tree.table_none_iff]
    simp [placeholder, Tree.symbols, hb]

/-- Settles O39: the three builds are evaluated. -/
theorem buildWorkedExamples : Obligations.BuildWorkedExamples := by
  unfold Obligations.BuildWorkedExamples
  decide +kernel

/-- Settles O40: whether there is a tree decides, and the table is read off its paths. -/
theorem codetableStoresThePaths : Obligations.CodetableStoresThePaths := by
  refine ⟨rfl, fun s => ⟨exec_tsCodetable_noTree, fun t ht => ⟨_, exec_tsCodetable_tree ht, fun sym => ?_, ?_⟩⟩⟩
  · rw [State.codeAt_setResult, codeTable_all, t.table_eq_find?]
  · rw [State.setCode_setResult_eq]

/-- Settles O41: the word is the encoder's, and the entry decides the answer. -/
theorem codeGetReadsTheTable : Obligations.CodeGetReadsTheTable := by
  refine ⟨fun sym => decodeInvertsEncode (.tsCodeGet sym), fun s sym => ⟨fun h => ?_, fun p h => ?_⟩⟩
  · rw [exec_tsCodeGet, h]; rfl
  · rw [exec_tsCodeGet, h]; rfl

end Sys2Proof.Machine
end

section
/-! PROOFS. The symbols of an input and those of the tree built from them, and the files of the edge inputs
(43_huffman_encoder.md R174, R175). -/

namespace Sys2Proof.Machine

variable {l : List Byte} {a : Byte} {n : Nat}

/-- Of an input that fits, the symbols with a non-zero count are those that occur (R175). -/
theorem mem_symbolsOf_frequencies (hl : l.length < 2 ^ 32) (a : Byte) :
    a ∈ symbolsOf (frequencies l) ↔ a ∈ l := by
  have hentry : (frequencies l)[a.toNat]'a.isLt = BitVec.ofNat 32 (l.count a) := by simp [frequencies, occurrences]
  have hcount : (BitVec.ofNat 32 (l.count a)).toNat = l.count a := by
    rw [BitVec.toNat_ofNat, Nat.mod_eq_of_lt (List.count_le_length.trans_lt hl)]
  rw [mem_symbolsOf, hentry, Ne, ← BitVec.toNat_inj, hcount, ← List.count_pos_iff]
  exact Nat.pos_iff_ne_zero.symm

/-- Every symbol of an input that fits has a leaf in the built tree, and so a code (R175). -/
theorem mem_symbols_buildTree (hl : l.length < 2 ^ 32) (ha : a ∈ l) : a ∈ (buildTree (frequencies l)).symbols :=
  mem_treeOfSymbols _ _ ((mem_symbolsOf_frequencies hl a).mpr ha)

theorem symbolsOf_frequencies_nil : symbolsOf (frequencies []) = [] :=
  List.eq_nil_iff_forall_not_mem.mpr fun a => (mem_symbolsOf_frequencies (by decide) a).not.mpr List.not_mem_nil

theorem symbolsOf_frequencies_replicate (hn : 0 < n) (hl : n < 2 ^ 32) (a : Byte) :
    symbolsOf (frequencies (List.replicate n a)) = [a] := by
  have hnodup := symbolsOf_nodup (frequencies (List.replicate n a))
  refine List.perm_singleton.mp ((List.perm_ext_iff_of_nodup hnodup (List.nodup_singleton a)).mpr fun b => ?_)
  rw [mem_symbolsOf_frequencies (by rwa [List.length_replicate]), List.mem_replicate, List.mem_singleton]
  exact and_iff_right hn.ne'

theorem symbolsOf_frequencies_length_of_all (hl : l.length < 2 ^ 32) (h : ∀ a : Byte, a ∈ l) :
    (symbolsOf (frequencies l)).length = 256 := by
  have huniv : (symbolsOf (frequencies l)).toFinset = Finset.univ := Finset.eq_univ_iff_forall.mpr fun a =>
    List.mem_toFinset.mpr ((mem_symbolsOf_frequencies hl a).mpr (h a))
  rw [← List.toFinset_card_of_nodup (symbolsOf_nodup _), huniv, Finset.card_univ, ← FinEnum.card_eq_fintypeCard,
    FinEnum.card_bitVec]
  rfl

theorem pack_replicate_false (n : Nat) : pack (List.replicate n false) = List.replicate ((n + 7) / 8) 0 := by
  refine List.eq_replicate_iff.mpr ⟨by rw [pack_length, List.length_replicate], fun b hb => ?_⟩
  obtain ⟨k, -, rfl⟩ := List.mem_map.mp hb
  have hbit (i : Nat) : (List.replicate n false).getD i false = false := by
    rw [List.getD_eq_getElem?_getD, List.getElem?_replicate]; split <;> rfl
  simp only [packByte, hbit]
  decide

theorem codeWords_replicate {t : Tree} {b : Bool} (h : t.table a = some [b]) (n : Nat) :
    codeWords t (List.replicate n a) = List.replicate n b := by
  induction n with
  | zero => rfl
  | succ n ih => rw [List.replicate_succ, List.replicate_succ, ← ih, codeWords, List.flatMap_cons, h]; rfl

end Sys2Proof.Machine
end

section
/-! PROOFS. HE_COMPRESS as its steps: the first scan and the build, which write registers and the cursor of RAWIN alone,
and the steps that write the file (43_huffman_encoder.md R171, R173). -/

namespace Sys2Proof.Machine

section Pieces
variable {α β : Type} {x : Flow α} {f g : α → State → Flow β} {P : α → State → Prop} {Q : State → Prop}
  {s : State}

/-- Two continuations that agree wherever the first line runs on. -/
theorem Flow.Post.bind_congr (hx : x.Post P Q) (h : ∀ a s, P a s → f a s = g a s) : x.bind f = x.bind g := by
  cases x with
  | ret a s => exact h a s hx
  | raise e s => rfl
  | refuse r s => rfl

theorem Flow.bind_eq_ret {b : β} (h : x.bind f = .ret b s) : ∃ a u, x = .ret a u ∧ f a u = .ret b s := by
  cases x with
  | ret a u => exact ⟨a, u, rfl, h⟩
  | raise e u => cases h
  | refuse r u => cases h

theorem Flow.Post.of_ret {a : α} (hx : x.Post P Q) (h : x = .ret a s) : P a s := by rw [h] at hx; exact hx

end Pieces

variable {s u : State} {t : Tree}

/-! ## The first scan and the build -/

/-- The state in which the first scan ends: what it has counted, and the cursor of RAWIN (R171 step 1). -/
def State.inputCounted (s : State) (freq : Vector Word32 256) (len : Word32) (pos : Nat) : State :=
  ((s.setFreq freq).setHeLen len).setRawIn ⟨s.rawIn.data, pos⟩

theorem State.inputCounted_freq (s : State) (freq : Vector Word32 256) (len : Word32) (pos : Nat) :
    (s.inputCounted freq len pos).freq = freq := rfl

theorem State.inputCounted_eq (s : State) (freq : Vector Word32 256) (len : Word32) (pos : Nat) :
    s.inputCounted freq len pos = { s with freq := freq, heLen := len, rawIn := ⟨s.rawIn.data, pos⟩ } := rfl

/-- The state behind the first scan of the whole input. -/
def State.allCounted (s : State) : State :=
  s.inputCounted (frequencies s.rawIn.data) (BitVec.ofNat 32 s.rawIn.data.length) s.rawIn.data.length

theorem State.allCounted_freq (s : State) : s.allCounted.freq = frequencies s.rawIn.data := by
  rw [allCounted, inputCounted_freq]

theorem State.allCounted_params (s : State) : s.allCounted.params = s.params := by
  rw [allCounted, inputCounted_eq]

/-- The state in which an input of 2^32 symbols or more ends the command (R173 (a)). -/
def State.inputTooLong (s : State) : State :=
  s.inputCounted (frequencies (s.rawIn.data.take (2 ^ 32 - 1))) (BitVec.allOnes 32) (2 ^ 32)

/-- The tree of the whole input (R171 step 2). -/
def State.inputTree (s : State) : Tree := buildTree (frequencies s.rawIn.data)

/-- The state behind the first scan and the build (R171 steps 1 and 2). -/
def State.treeReady (s : State) : State := s.allCounted.clearCode.setTree (some s.inputTree)

theorem State.inputTooLong_eq (s : State) : s.inputTooLong = { s with
    freq := frequencies (s.rawIn.data.take (2 ^ 32 - 1)), heLen := BitVec.allOnes 32
    rawIn := ⟨s.rawIn.data, 2 ^ 32⟩ } := s.inputCounted_eq _ _ _

theorem State.clearCode_setTree_eq (s : State) (t : Tree) :
    s.clearCode.setTree (some t) = { s with tree := some t, code := Vector.replicate 256 none } := rfl

theorem State.treeReady_eq (s : State) : s.treeReady = { s with
    freq := frequencies s.rawIn.data, heLen := BitVec.ofNat 32 s.rawIn.data.length, tree := some s.inputTree
    code := Vector.replicate 256 none, rawIn := ⟨s.rawIn.data, s.rawIn.data.length⟩ } := by
  rw [treeReady, allCounted, inputCounted_eq, clearCode_setTree_eq]

/-- The first scan begins with the registers cleared and the input rewound; it counts `l` from there. -/
theorem scanned_cleared (s : State) (l : List Byte) : scanned (((freqCleared s).setHeLen 0).rawInRewind) l =
    s.inputCounted (frequencies l) (BitVec.ofNat 32 l.length) l.length := by
  have hfreq : (((freqCleared s).setHeLen 0).rawInRewind).freq = Vector.replicate 256 0 := rfl
  have hlen : (((freqCleared s).setHeLen 0).rawInRewind).heLen + BitVec.ofNat 32 l.length = BitVec.ofNat 32 l.length :=
    BitVec.zero_add _
  have hpos : (((freqCleared s).setHeLen 0).rawInRewind).rawIn.pos + l.length = l.length := Nat.zero_add _
  rw [scanned, hfreq, ← frequencies_eq, hlen, hpos]
  generalize frequencies l = freq
  rfl

theorem scanInput_ret (h : s.rawIn.data.length < 2 ^ 32) : scanInput s = .ret () s.allCounted := by
  refine (scan_run s.rawIn.data (s := ((freqCleared s).setHeLen 0).rawInRewind) rfl ?_).trans ?_
  · exact (Nat.zero_add _).trans_lt h
  · rw [scanned_cleared, State.allCounted]

theorem scanInput_long (h : 2 ^ 32 ≤ s.rawIn.data.length) : scanInput s = .raise .inputTooLong s.inputTooLong := by
  refine (scan_long s.rawIn.data (2 ^ 32 - 1) (s := ((freqCleared s).setHeLen 0).rawInRewind) rfl (Nat.zero_add _)
    (by omega)).trans ?_
  have hlen : BitVec.ofNat 32 (s.rawIn.data.take (2 ^ 32 - 1)).length = BitVec.allOnes 32 := by
    rw [List.length_take_of_le (by omega)]; rfl
  have hpos : (((freqCleared s).setHeLen 0).rawInRewind).rawIn.pos + (2 ^ 32 - 1) + 1 = 2 ^ 32 :=
    show 0 + (2 ^ 32 - 1) + 1 = 2 ^ 32 by decide
  rw [scanned_cleared, hlen, hpos, State.inputTooLong]
  generalize frequencies _ = freq
  rfl

theorem notIdle_ret (h : s.bpStatus ≠ .idle) : notIdle s = .ret () s := by
  unfold notIdle
  split
  · exact absurd ‹_› h
  · rfl
  · rfl

theorem build_allCounted (h : 2 * (symbolsOf (frequencies s.rawIn.data)).length ≤ s.params.maxNodes + 1) :
    build s.allCounted = .ret () s.treeReady := by
  rw [build, s.allCounted_freq, s.allCounted_params, if_neg (Nat.not_lt.mpr h), State.treeReady, State.inputTree]

theorem build_allCounted_refuse (h : s.params.maxNodes + 1 < 2 * (symbolsOf (frequencies s.rawIn.data)).length) :
    build s.allCounted = .refuse .treeStoreTooSmall s.allCounted := by
  rw [build, s.allCounted_freq, s.allCounted_params, if_pos h]

/-! ## The steps that write the file -/

/-- Steps 3 to 7 of R171: the tree, the header, the code words by the tree's table, the close. -/
def writeFile (t : Tree) (n : Word32) (s : State) : Flow Unit :=
  (writeBits t.ser s).bind fun _ s =>
  (writeLength n s).bind fun _ s =>
  (encodeInput (s.setCode t.codeTable)).bind fun _ s => bpClose s

/-- Where the tree is stored and the count stands in `he_len`, what follows the build is the writing of the file: none
of its lines changes either of them. -/
theorem serialize_bind_eq_writeFile (ht : s.tree = some t) :
    ((serialize s).bind fun _ u => (writeLength u.heLen u).bind fun _ v => (makeCodeTable v).bind fun _ w =>
      (encodeInput w).bind fun _ z => bpClose z) = writeFile t s.heLen s := by
  rw [serialize_tree ht]
  refine (writeBits_only t.ser s).bind_congr fun _ u hu => ?_
  rw [hu.heLen]
  refine (writeLength_only s.heLen u).bind_congr fun _ v hv => ?_
  rw [makeCodeTable, theTree_some (hv.tree.trans (hu.tree.trans ht))]
  rfl

theorem compress_idle (h : s.bpStatus = .idle) : compress s = .refuse .writeChannelIdle s := by
  rw [compress, notIdle, h]; rfl

/-- An input too long ends the command in the first scan (R173 (a)). -/
theorem compress_long (ho : s.bpStatus ≠ .idle) (h : 2 ^ 32 ≤ s.rawIn.data.length) :
    compress s = .raise .inputTooLong s.inputTooLong := by
  rw [compress, notIdle_ret ho, Flow.bind_ret, scanInput_long h, Flow.bind_raise]

section Fits
variable (ho : s.bpStatus ≠ .idle) (h : s.rawIn.data.length < 2 ^ 32)
include ho h

/-- A tree that the store has no room for is refused by the build (R143). -/
theorem compress_full (hfull : s.params.maxNodes + 1 < 2 * (symbolsOf (frequencies s.rawIn.data)).length) :
    compress s = .refuse .treeStoreTooSmall s.allCounted := by
  rw [compress, notIdle_ret ho, Flow.bind_ret, scanInput_ret h, Flow.bind_ret,
    build_allCounted_refuse hfull, Flow.bind_refuse]

/-- Otherwise the command goes on to write the file. -/
theorem compress_eq_writeFile (hfits : 2 * (symbolsOf (frequencies s.rawIn.data)).length ≤ s.params.maxNodes + 1) :
    compress s = writeFile s.inputTree (BitVec.ofNat 32 s.rawIn.data.length) s.treeReady := by
  rw [compress, notIdle_ret ho, Flow.bind_ret, scanInput_ret h, Flow.bind_ret, build_allCounted hfits,
    Flow.bind_ret]
  exact serialize_bind_eq_writeFile (s := s.treeReady) rfl

end Fits

/-- The ways HE_COMPRESS can go: refused on an IDLE channel, ended in the first scan, refused by the build, or the
writing of the file (R171). -/
theorem compress_cases (s : State) :
    (s.bpStatus = .idle ∧ compress s = .refuse .writeChannelIdle s) ∨
    (2 ^ 32 ≤ s.rawIn.data.length ∧ compress s = .raise .inputTooLong s.inputTooLong) ∨
    (s.params.maxNodes + 1 < 2 * (symbolsOf (frequencies s.rawIn.data)).length ∧
      compress s = .refuse .treeStoreTooSmall s.allCounted) ∨
    (s.bpStatus ≠ .idle ∧ s.rawIn.data.length < 2 ^ 32 ∧
      compress s = writeFile s.inputTree (BitVec.ofNat 32 s.rawIn.data.length) s.treeReady) := by
  by_cases hidle : s.bpStatus = .idle
  · exact .inl ⟨hidle, compress_idle hidle⟩
  rcases Nat.lt_or_ge s.rawIn.data.length (2 ^ 32) with hshort | hlong
  · rcases Nat.lt_or_ge (s.params.maxNodes + 1) (2 * (symbolsOf (frequencies s.rawIn.data)).length) with hfull | hfits
    · exact .inr (.inr (.inl ⟨hfull, compress_full hidle hshort hfull⟩))
    · exact .inr (.inr (.inr ⟨hidle, hshort, compress_eq_writeFile hidle hshort hfits⟩))
  · exact .inr (.inl ⟨hlong, compress_long hidle hlong⟩)

end Sys2Proof.Machine
end

section
/-! PROOFS. The steps of HE_COMPRESS that write the file: how they end, when they are refused, and what the channel and
the registers hold when they have run (43_huffman_encoder.md R171 to R176). -/

namespace Sys2Proof.Machine

variable {s u : State} {t : Tree} {n : Word32} {e : Status} {r : Refusal} {base : List Byte} {run : Bits}

/-! ## Errors -/

theorem writeFile_failed (h : s.bpStatus = .failed) : writeFile t n s = .raise .writeFailure s := by
  rw [writeFile, writeBits_failed h t.ser_ne_nil, Flow.bind_raise]

/-- A write that fails leaves the channel FAILED, a close that fails leaves it released (R102, R103, R105). -/
theorem writeFile_raise (h : writeFile t n s = .raise e u) : WriteFails e u ∨ CloseFails e u := by
  have hraises : (writeFile t n s).Raises fun e u => WriteFails e u ∨ CloseFails e u :=
    ((writeBits_raises s t.ser).mono fun _ _ => .inl).bind fun _ v =>
    ((writeLength_raises v n).mono fun _ _ => .inl).bind fun _ w =>
    ((encodeSymbols_raises (w.setCode t.codeTable).rawInRewind _).mono fun _ _ => .inl).bind fun _ z =>
      (bpClose_raises z).mono fun _ _ => .inr
  rw [h] at hraises
  exact hraises

/-- The errors of HE_COMPRESS (R173). -/
theorem compress_raise (h : compress s = .raise e u) :
    (e = .inputTooLong ∧ 2 ^ 32 ≤ s.rawIn.data.length ∧ u = s.inputTooLong) ∨ WriteFails e u ∨ CloseFails e u := by
  rcases compress_cases s with ⟨-, hc⟩ | ⟨hlong, hc⟩ | ⟨-, hc⟩ | ⟨-, -, hc⟩
  · cases hc.symm.trans h
  · rw [hc] at h
    obtain ⟨rfl, rfl⟩ := Flow.raise.inj h
    exact .inl ⟨rfl, hlong, rfl⟩
  · cases hc.symm.trans h
  · exact .inr (writeFile_raise (hc.symm.trans h))

/-- HE_COMPRESS runs to its end only by writing the file of an input that fits (R171). -/
theorem compress_ret (h : compress s = .ret () u) : s.rawIn.data.length < 2 ^ 32 ∧
    writeFile s.inputTree (BitVec.ofNat 32 s.rawIn.data.length) s.treeReady = .ret () u := by
  rcases compress_cases s with ⟨-, hc⟩ | ⟨-, hc⟩ | ⟨-, hc⟩ | ⟨-, hshort, hc⟩
  · cases hc.symm.trans h
  · cases hc.symm.trans h
  · cases hc.symm.trans h
  · exact ⟨hshort, hc.symm.trans h⟩

/-- A close that runs to its end leaves the channel released and its bytes in storage (R105). -/
theorem bpClose_ret (h : bpClose s = .ret () u) :
    u.bpStatus = .idle ∧ u.sink.durable = true ∧ u.sink.attached = false := by
  rcases hs : s.bpStatus with _ | _ | _ <;> simp only [bpClose, hs] at h
  · cases h
  · obtain ⟨_, v, -, hclose⟩ := Flow.bind_eq_ret h
    rw [closeStorage_ret hclose]
    exact ⟨rfl, rfl, rfl⟩
  · cases h

/-- The four lines of the writing, where it runs to its end. -/
theorem writeFile_ret (h : writeFile t n s = .ret () u) : ∃ v w z, writeBits t.ser s = .ret () v ∧
    writeLength n v = .ret () w ∧ encodeInput (w.setCode t.codeTable) = .ret () z ∧ bpClose z = .ret () u := by
  obtain ⟨_, v, hv, h⟩ := Flow.bind_eq_ret h
  obtain ⟨_, w, hw, h⟩ := Flow.bind_eq_ret h
  obtain ⟨_, z, hz, h⟩ := Flow.bind_eq_ret h
  exact ⟨v, w, z, hv, hw, hz, h⟩

/-! ## Refusals -/

section Stops
variable {α : Type} {x : Flow α} {P P' : α → State → Prop} {Q : State → Prop} {R : Refusal → State → Prop}

/-- What holds wherever a line runs on, of its refusals and of its frame together. -/
theorem Flow.Stops.and_post (hx : x.Stops P R) (hp : x.Post P' Q) : x.Stops (fun a s => P a s ∧ P' a s) R := by
  cases x with
  | ret a s => exact ⟨hx, hp⟩
  | raise e s => trivial
  | refuse r s => exact hx

end Stops

theorem rawInRead_bitsIn (s : State) : BitsIn s s.rawInRead.2 0 := by
  rcases s.rawInRead_cases with ⟨b, -, hr⟩ | ⟨-, hr⟩ <;> rw [hr]
  · exact ⟨rfl, rfl, rfl, .inr le_rfl⟩
  · exact BitsIn.refl s

theorem rawInRead_code (s : State) : s.rawInRead.2.code = s.code := by
  rcases s.rawInRead_cases with ⟨b, -, hr⟩ | ⟨-, hr⟩ <;> rw [hr]
  rfl

/-- On an OPEN channel the second scan is refused only where the counter is full: the table has a code for each of its
symbols (R175), which is written bit by bit. -/
theorem encodeSymbols_stops (l : List Byte) (ho : s.bpStatus = .opened) (hcode : s.code = t.codeTable)
    (hsym : ∀ a ∈ l, a ∈ t.symbols) :
    (encodeSymbols l s).Stops (fun _ u => BitsIn s u (codeWords t l).length)
      (fun r _ => r = .byteCounterFull ∧
        8 * s.params.counterMax + s.bpFree + 1 ≤ 8 * s.bpBytes + (codeWords t l).length) := by
  induction l generalizing s with
  | nil => exact BitsIn.refl s
  | cons a l ih =>
    obtain ⟨p, hp⟩ : ∃ p, t.table a = some p := Option.ne_none_iff_exists'.mp
      fun hnone => (t.table_none_iff a).mp hnone (hsym a List.mem_cons_self)
    have hentry : s.codeAt a = some p := by rw [State.codeAt, hcode, Tree.codeTable_getElem, hp]
    have hlen : (codeWords t (a :: l)).length = p.length + (codeWords t l).length := by simp [codeWords, hp]
    have hread := rawInRead_bitsIn s
    have hplaces := hread.places
    have hwrite := (writeBits_stops p (hread.status.trans ho)).and_post (writeBits_only p s.rawInRead.2)
    rw [hread.params] at hwrite
    simp only [encodeSymbols, hentry, hlen]
    refine Flow.Stops.bind (hwrite.mono (fun _ _ h => h) fun _ _ h => ⟨h.1, by omega⟩) fun _ w ⟨hw, honly⟩ => ?_
    have hsw := hread.trans hw
    have hplaces' := hsw.places
    have hrest := ih (hsw.status.trans ho) (honly.code.trans ((rawInRead_code s).trans hcode))
      fun b hb => hsym b (List.mem_cons_of_mem a hb)
    rw [hsw.params] at hrest
    refine hrest.mono (fun _ z hz => ?_) fun _ _ h => ⟨h.1, by omega⟩
    rw [← Nat.zero_add p.length]
    exact hsw.trans hz

/-- Step 6 of R171, from the state in which the table has been stored. -/
theorem encodeInput_stops {code : Vector (Option Bits) 256} (hcode : code = t.codeTable) (ho : s.bpStatus = .opened)
    (hsym : ∀ a ∈ s.rawIn.data, a ∈ t.symbols) :
    (encodeInput (s.setCode code)).Stops (fun _ u => BitsIn s u (codeWords t s.rawIn.data).length)
      (fun r _ => r = .byteCounterFull ∧
        8 * s.params.counterMax + s.bpFree + 1 ≤ 8 * s.bpBytes + (codeWords t s.rawIn.data).length) :=
  (encodeSymbols_stops (s := (s.setCode code).rawInRewind) s.rawIn.data ho hcode hsym).mono
    (fun _ _ h => ⟨h.status, h.params, h.places, h.room⟩) fun _ _ h => h

/-- On an OPEN channel the writing is refused only where its bytes fill the counter (R107). -/
theorem writeFile_refuse (h : writeFile t n s = .refuse r u) (ho : s.bpStatus = .opened)
    (hsym : ∀ a ∈ s.rawIn.data, a ∈ t.symbols) : r = .byteCounterFull ∧ s.params.counterMax <
      s.bpBytes + ((t.size + 7) / 8 + 5 + ((codeWords t s.rawIn.data).length + 7) / 8 + 1) := by
  suffices hstops : (writeFile t n s).Stops (fun _ _ => True) fun r _ => r = .byteCounterFull ∧
      s.params.counterMax < s.bpBytes + ((t.size + 7) / 8 + 5 + ((codeWords t s.rawIn.data).length + 7) / 8 + 1) by
    rw [h] at hstops; exact hstops
  have hser := (writeBits_stops t.ser ho).and_post (writeBits_only t.ser s)
  rw [t.ser_length] at hser
  refine Flow.Stops.bind (hser.mono (fun _ _ h => h) fun _ _ h => ⟨h.1, by omega⟩) fun _ v ⟨hv, hsv⟩ => ?_
  have hvbytes := hv.bytes
  have hlength := (writeLength_stops n (hv.status.trans ho)).and_post (writeLength_only n v)
  rw [hv.params] at hlength
  refine Flow.Stops.bind (hlength.mono (fun _ _ h => h) fun _ _ h => ⟨h.1, by omega⟩) fun _ w ⟨hw, hvw⟩ => ?_
  obtain ⟨hwbytes, hwparams, hwopen⟩ := hw
  have hdata : w.rawIn.data = s.rawIn.data := by rw [hvw.rawIn, hsv.rawIn]
  have hencode := encodeInput_stops rfl hwopen (hdata ▸ hsym)
  rw [hdata, hwparams] at hencode
  refine Flow.Stops.bind (hencode.mono (fun _ _ h => h) fun _ _ h => ⟨h.1, by omega⟩) fun _ z hz => ?_
  have hzbytes := hz.bytes
  refine (bpClose_stops z).mono (fun _ _ h => h) fun r _ h => ?_
  rcases h with ⟨-, hidle⟩ | ⟨hr, -, hfull⟩
  · cases hidle.symm.trans (hz.status.trans hwopen)
  · rw [hz.params, hwparams] at hfull
    exact ⟨hr, by omega⟩

theorem mem_symbols_inputTree (h : s.rawIn.data.length < 2 ^ 32) {a : Byte} (ha : a ∈ s.rawIn.data) :
    a ∈ s.inputTree.symbols := by
  rw [State.inputTree]; exact mem_symbols_buildTree h ha

theorem writesAtMost_heCompress (s : State) : writesAtMost .heCompress s =
    (s.inputTree.size + 7) / 8 + 5 + ((codeWords s.inputTree s.rawIn.data).length + 7) / 8 + 1 := by
  rw [State.inputTree, writesAtMost]

/-- The refusals of HE_COMPRESS (R171, R143, R107). -/
theorem compress_refuse (h : compress s = .refuse r u) : (r = .writeChannelIdle ∧ s.bpStatus = .idle) ∨
    (r = .treeStoreTooSmall ∧ s.params.maxNodes + 1 < 2 * (symbolsOf (frequencies s.rawIn.data)).length) ∨
    (r = .byteCounterFull ∧ s.params.counterMax < s.bpBytes + writesAtMost .heCompress s) := by
  rcases compress_cases s with ⟨hidle, hc⟩ | ⟨-, hc⟩ | ⟨hfull, hc⟩ | ⟨hidle, hshort, hc⟩
  · rw [hc] at h
    obtain ⟨rfl, -⟩ := Flow.refuse.inj h
    exact .inl ⟨rfl, hidle⟩
  · cases hc.symm.trans h
  · rw [hc] at h
    obtain ⟨rfl, -⟩ := Flow.refuse.inj h
    exact .inr (.inl ⟨rfl, hfull⟩)
  · have hwrite := hc.symm.trans h
    rcases hs : s.bpStatus with _ | _ | _
    · exact absurd hs hidle
    · have hcounter := writeFile_refuse hwrite (by rw [s.treeReady_eq]; exact hs)
        (by rw [s.treeReady_eq]; exact fun a ha => mem_symbols_inputTree hshort ha)
      rw [s.treeReady_eq] at hcounter
      rw [writesAtMost_heCompress]
      exact .inr (.inr hcounter)
    · cases (writeFile_failed (by rw [s.treeReady_eq]; exact hs)).symm.trans hwrite

/-! ## What the channel and the registers hold -/

theorem OnlyPacker.onlyEncodes (h : OnlyPacker s u) : OnlyEncodes s u := by
  have hs : s.setRawIn u.rawIn = s := by rw [h.rawIn]; rfl
  exact ⟨by rw [hs]; exact h, by rw [h.rawIn]⟩

theorem OnlyPacker.setCode (h : OnlyPacker s u) (code : Vector (Option Bits) 256) :
    OnlyPacker (s.setCode code) (u.setCode code) :=
  ⟨h.buStatus, h.buBuf, h.buAvail, h.buBytes, h.freq, h.tree, rfl, h.heLen, h.hdRemaining, h.src, h.rawIn, h.rawOut,
    h.result, h.params, h.inbox⟩

theorem OnlyPacker.setRawIn (h : OnlyPacker s u) (rawIn : RawIn) : OnlyPacker (s.setRawIn rawIn) (u.setRawIn rawIn) :=
  ⟨h.buStatus, h.buBuf, h.buAvail, h.buBytes, h.freq, h.tree, h.code, h.heLen, h.hdRemaining, h.src, rfl, h.rawOut,
    h.result, h.params, h.inbox⟩

theorem OnlyEncodes.trans {v : State} (h : OnlyEncodes s u) (k : OnlyEncodes u v) : OnlyEncodes s v :=
  ⟨OnlyPacker.trans (h.packer.setRawIn v.rawIn) k.packer, k.data.trans h.data⟩

/-- A state that differs in the packer's registers, SINK, the host's script and RAWIN alone. -/
theorem OnlyEncodes.eq (h : OnlyEncodes s u) : u = { s with
    bpStatus := u.bpStatus, bpBuf := u.bpBuf, bpFree := u.bpFree, bpBytes := u.bpBytes, sink := u.sink
    rawIn := u.rawIn, host := u.host } := by
  obtain ⟨h, -⟩ := h
  cases u
  cases h
  simp_all

section Encode
variable {code : Vector (Option Bits) 256} (hcode : code = t.codeTable)

include hcode in
theorem codeAt_rawInRewind_setCode (a : Byte) : (s.setCode code).rawInRewind.codeAt a = t.table a := by
  rw [← codeTable_all s t a, ← hcode]; rfl

theorem Holds.rawInRewind_setCode (h : Holds base run s) (code : Vector (Option Bits) 256) :
    Holds base run (s.setCode code).rawInRewind := ⟨h.status, h.data, h.free, h.buf, h.bytes⟩

include hcode

/-- Step 6 of R171, where it runs to its end: the code words are written and the input is at its end. -/
theorem Holds.encodeInput (h : Holds base run s)
    (hw : encodeInput (s.setCode code) = .ret () u) : Holds base (run ++ codeWords t s.rawIn.data) u ∧
      u.rawIn = ⟨s.rawIn.data, s.rawIn.data.length⟩ ∧ OnlyEncodes (s.setCode code) u := by
  obtain ⟨hholds, hpos, honly⟩ :=
    (h.rawInRewind_setCode code).encodeSymbols t s.rawIn.data rfl (codeAt_rawInRewind_setCode hcode) hw
  have hdata : u.rawIn.data = s.rawIn.data := honly.data
  have hend : u.rawIn.pos = s.rawIn.data.length := hpos.trans (Nat.zero_add _)
  refine ⟨hholds, ?_, honly.packer, hdata⟩
  calc u.rawIn = ⟨u.rawIn.data, u.rawIn.pos⟩ := rfl
    _ = ⟨s.rawIn.data, s.rawIn.data.length⟩ := by rw [hdata, hend]

/-- The second scan of the input, on a storage that never fails. -/
theorem Holds.encodeInput_total (h : Holds base run s) (hn : s.host.NeverFails)
    (hsym : ∀ a ∈ s.rawIn.data, a ∈ t.symbols)
    (hc : base.length + (run.length + (codeWords t s.rawIn.data).length + 7) / 8 ≤ s.params.counterMax + 1) :
    ∃ u, Machine.encodeInput (s.setCode code) = .ret () u ∧ u.host.NeverFails := by
  obtain ⟨u, hu, -, hun, -⟩ := encodeSymbols_total t s.rawIn.data (h.rawInRewind_setCode code) rfl
    (codeAt_rawInRewind_setCode hcode) hsym hn hc
  exact ⟨u, hu, hun⟩

end Encode

/-- What the writing leaves, where it runs to its end (R172, R176). -/
structure FileWritten (t : Tree) (file : List Byte) (s u : State) : Prop where
  closed : Closed file u
  free : u.bpFree = 8
  buf : u.bpBuf = 0
  rawIn : u.rawIn = ⟨s.rawIn.data, s.rawIn.data.length⟩
  only : OnlyEncodes (s.setCode t.codeTable) u

/-- The tree's bits go on behind the run that the channel has taken; the header is aligned; the code words follow. -/
theorem Holds.writeFile (h : Holds base run s) (hw : writeFile t n s = .ret () u) :
    FileWritten t (base ++ pack (run ++ t.ser) ++ be32 n ++ pack (codeWords t s.rawIn.data)) s u := by
  obtain ⟨v, w, z, hv, hw, hz, hu⟩ := writeFile_ret hw
  have hsw : OnlyPacker s w := ((writeBits_only t.ser s).of_ret hv).trans ((writeLength_only n v).of_ret hw)
  have hzu : OnlyPacker z u := (bpClose_only z).of_ret hu
  obtain ⟨hholds, hend, hwz⟩ := ((h.writeBits hv).writeLength hw).encodeInput rfl hz
  rw [List.nil_append, hsw.rawIn] at hholds
  obtain ⟨hclosed, hfree, hbuf⟩ := hholds.close hu
  exact ⟨hclosed, hfree, hbuf, by rw [hzu.rawIn, hend, hsw.rawIn],
    (hsw.setCode _).onlyEncodes.trans (hwz.trans hzu.onlyEncodes)⟩

/-- On a storage that never fails the writing runs to its end, if the counter has room for its bytes. -/
theorem Holds.writeFile_total (h : Holds base run s) (hn : s.host.NeverFails) (n : Word32)
    (hsym : ∀ a ∈ s.rawIn.data, a ∈ t.symbols)
    (hc : (base ++ pack (run ++ t.ser) ++ be32 n ++ pack (codeWords t s.rawIn.data)).length ≤ s.params.counterMax) :
    ∃ u, Machine.writeFile t n s = .ret () u ∧ u.host.NeverFails := by
  simp only [List.length_append, be32_length, pack_length] at hc
  obtain ⟨v, hv, hholds, hn, -, hsv⟩ := h.writeBits_total t.ser hn (by omega)
  obtain ⟨w, hw, hholds, hn, -, hvw⟩ := hholds.writeLength_total n hn (by
    rw [hsv.params, pack_length, List.length_append]; omega)
  have hsw := hsv.trans hvw
  obtain ⟨z, hz, hn⟩ := hholds.encodeInput_total rfl hn (hsw.rawIn ▸ hsym) (by
    rw [hsw.params, hsw.rawIn]; simp only [List.length_append, be32_length, pack_length, List.length_nil]; omega)
  obtain ⟨hholds, -, hwz⟩ := hholds.encodeInput rfl hz
  rw [List.nil_append, hsw.rawIn] at hholds
  obtain ⟨u, hu, -, -, -, hn, -⟩ := hholds.close_total hn (by
    rw [hwz.packer.params, State.setRawIn_params, State.setCode_params, hsw.params]
    simp only [List.length_append, be32_length, pack_length]; omega)
  exact ⟨u, by rw [Machine.writeFile, hv, Flow.bind_ret, hw, Flow.bind_ret, hz, Flow.bind_ret, hu], hn⟩

/-! ## The command -/

theorem Holds.treeReady (h : Holds base run s) : Holds base run s.treeReady := by
  rw [s.treeReady_eq]
  exact ⟨h.status, h.data, h.free, h.buf, h.bytes⟩

/-- HE_COMPRESS that runs to its end has written the file of its input behind what the channel held (R172, R176). -/
theorem Holds.compress (h : Holds base run s) (hw : compress s = .ret () u) :
    FileWritten s.inputTree (base ++ pack (run ++ s.inputTree.ser) ++ be32 (BitVec.ofNat 32 s.rawIn.data.length) ++
      pack (codeWords s.inputTree s.rawIn.data)) s.treeReady u := by
  have hwritten := h.treeReady.writeFile (compress_ret hw).2
  rwa [show s.treeReady.rawIn.data = s.rawIn.data by rw [s.treeReady_eq]] at hwritten

/-- The state in which HE_COMPRESS has written its file, field by field (R172). -/
theorem FileWritten.eq {file : List Byte} (h : FileWritten s.inputTree file s.treeReady u) : u = { s with
    bpStatus := .idle, bpBuf := 0, bpFree := 8, bpBytes := file.length, freq := frequencies s.rawIn.data
    tree := some s.inputTree, code := s.inputTree.codeTable, heLen := BitVec.ofNat 32 s.rawIn.data.length
    sink := ⟨file, false, true⟩, rawIn := ⟨s.rawIn.data, s.rawIn.data.length⟩, host := u.host } := by
  obtain ⟨⟨hstatus, hdata, hbytes, hdurable, hattached⟩, hfree, hbuf, hrawIn, honly⟩ := h
  have hsink : u.sink = ⟨file, false, true⟩ := by rw [← hdata, ← hattached, ← hdurable]
  have heq := honly.eq
  rw [hstatus, hbytes, hfree, hbuf, hrawIn, hsink, s.treeReady_eq] at heq
  refine heq.trans ?_
  generalize frequencies _ = freq, s.inputTree.codeTable = code
  rfl

/-- On a storage that never fails HE_COMPRESS runs to its end, if the input, the store and the counter allow it. -/
theorem Holds.compress_total (h : Holds base run s) (hn : s.host.NeverFails) (hshort : s.rawIn.data.length < 2 ^ 32)
    (hfits : 2 * (symbolsOf (frequencies s.rawIn.data)).length ≤ s.params.maxNodes + 1)
    (hc : (base ++ pack (run ++ s.inputTree.ser) ++ be32 (BitVec.ofNat 32 s.rawIn.data.length) ++
      pack (codeWords s.inputTree s.rawIn.data)).length ≤ s.params.counterMax) :
    ∃ u, Machine.compress s = .ret () u ∧ u.host.NeverFails := by
  have hopen : s.bpStatus ≠ .idle := by rw [h.status]; decide
  rw [compress_eq_writeFile hopen hshort hfits]
  have hready := h.treeReady
  have heq := s.treeReady_eq
  exact hready.writeFile_total (by rw [heq]; exact hn) _
    (by rw [heq]; exact fun a ha => mem_symbols_inputTree hshort ha) (by rw [heq]; exact hc)

theorem exec_heCompress_ret (h : compress s = .ret () u) :
    exec .heCompress s = .next (u.setResult (some ⟨.ok, .none⟩)) := by
  simp [exec, execHeCompress, h]

theorem exec_heCompress_raise (h : compress s = .raise e u) :
    exec .heCompress s = .next (u.setResult (some ⟨e, .none⟩)) := by
  simp [exec, execHeCompress, h]

theorem exec_heCompress_refuse (h : compress s = .refuse r u) : exec .heCompress s = .refused r := by
  simp [exec, execHeCompress, h]

/-- HE_COMPRESS returned OK: its lines ran to their end. -/
theorem exec_heCompress_ok {t : State} (he : exec .heCompress s = .next t) (hr : t.result = some ⟨.ok, .none⟩) :
    ∃ u, compress s = .ret () u ∧ t = u.setResult (some ⟨.ok, .none⟩) := by
  have hraises : (compress s).Raises fun e _ => e ≠ .ok := by
    cases hc : compress s with
    | ret _ u => trivial
    | raise e u => rcases compress_raise hc with ⟨rfl, -⟩ | ⟨rfl, -⟩ | ⟨rfl, -⟩ <;> exact Status.noConfusion
    | refuse r u => trivial
  obtain ⟨_, u, hu, ht⟩ := hraises.returned (fun _ h => h rfl) he hr
  exact ⟨u, hu, ht⟩

end Sys2Proof.Machine
end

section
/-! PROOFS. The statements of 43_huffman_encoder.md. -/

namespace Sys2Proof.Machine

/-- Settles O49: what the channel holds (`Holds`) goes through the lines that write the file (`Holds.writeFile`), and on
a storage that never fails none of them stops (`Holds.writeFile_total`). -/
theorem compressWritesTheFile : Obligations.CompressWritesTheFile := by
  intro s₀ s run segments before last freq t file hfresh hrun
  have hholds : Holds before last s := hfresh.holds.channelCommands segments hrun
  have hwritten {u : State} (hu : compress s = .ret () u) : FileWritten s.inputTree file s.treeReady u :=
    hholds.compress hu
  refine ⟨fun u he hr => ?_, fun hn hshort hfits hcounter => ?_⟩
  · obtain ⟨w, hw, rfl⟩ := exec_heCompress_ok he hr
    rw [(hwritten hw).eq]
    exact ⟨(compress_ret hw).1, rfl, rfl, rfl, rfl, rfl, rfl, rfl, rfl⟩
  · obtain ⟨w, hw, hnw⟩ := hholds.compress_total hn hshort hfits hcounter
    refine ⟨w.host, hnw, ?_⟩
    rw [exec_heCompress_ret hw, (hwritten hw).eq]
    rfl

/-- Settles O50: the scan stops at the symbol no count is left for (`scanInput_long`), before anything is written. -/
theorem compressRefusesLongInputs : Obligations.CompressRefusesLongInputs := by
  intro s hopen hlong
  rw [exec_heCompress_raise (compress_long hopen hlong), s.inputTooLong_eq]
  rfl

/-- Settles O51: the close that ends the command leaves the channel released and durable (`bpClose_ret`); an error is that
of the first scan, of a write or of the close (`compress_raise`). -/
theorem compressEndsInThreeWays : Obligations.CompressEndsInThreeWays := by
  intro s t he
  cases hc : compress s with
  | ret _ u =>
    rw [exec_heCompress_ret hc] at he
    cases he
    obtain ⟨_, _, _, _, _, _, hclose⟩ := writeFile_ret (compress_ret hc).2
    obtain ⟨hidle, hdurable, hreleased⟩ := bpClose_ret hclose
    exact .inl ⟨rfl, hidle, hdurable, hreleased⟩
  | raise e u =>
    rw [exec_heCompress_raise hc] at he
    cases he
    rcases compress_raise hc with ⟨rfl, hlong, rfl⟩ | ⟨rfl, hfailed⟩ | ⟨rfl, hreleased⟩
    · exact .inr (.inl (by simpa [s.inputTooLong_eq] using hlong))
    · exact .inr (.inr ⟨rfl, .inl hfailed⟩)
    · exact .inr (.inr ⟨rfl, .inr hreleased⟩)
  | refuse r u => rw [exec_heCompress_refuse hc] at he; cases he

/-- Settles O52: the opening test refuses; on a FAILED channel the file's first bit fails (`writeFile_failed`). -/
theorem compressOnAChannelNotOpen : Obligations.CompressOnAChannelNotOpen := by
  intro s
  refine ⟨fun hidle => ?_, fun hfailed hshort hfits => ?_⟩
  · exact exec_heCompress_refuse (compress_idle hidle)
  · have hopen : s.bpStatus ≠ .idle := by rw [hfailed]; decide
    have hready : s.treeReady.bpStatus = .failed := by rw [s.treeReady_eq]; exact hfailed
    have hc := (compress_eq_writeFile hopen hshort hfits).trans (writeFile_failed hready)
    rw [exec_heCompress_raise hc, s.treeReady_eq, State.inputTree]
    rfl

/-- Settles O19: the refusals of HE_COMPRESS are three others (`compress_refuse`), since each symbol of the input has a
leaf in the tree, and so a code (`encodeSymbols_stops`). -/
theorem tableMissIsUnreachable : Obligations.TableMissIsUnreachable := by
  intro s he
  cases hc : compress s with
  | ret _ u => rw [exec_heCompress_ret hc] at he; cases he
  | raise e u => rw [exec_heCompress_raise hc] at he; cases he
  | refuse r u =>
    rw [exec_heCompress_refuse hc] at he
    cases he
    rcases compress_refuse hc with ⟨h, -⟩ | ⟨h, -⟩ | ⟨h, -⟩ <;> cases h

/-- Settles O53: the trees of no symbol and of one are placeholders with one-bit codes; a tree of 256 leaves has 2559
bits. -/
theorem edgeInputsHaveTheStatedFiles : Obligations.EdgeInputsHaveTheStatedFiles := by
  refine ⟨?_, fun a n hn hl => ⟨?_, ?_⟩, fun l hl hall => ?_⟩
  · have hnone : buildTree (frequencies []) = placeholder 0 := by rw [buildTree, symbolsOf_frequencies_nil]; rfl
    rw [hnone]; rfl
  · obtain ⟨-, -, hcode, -⟩ := placeholderTreesHaveOneBitCodes a
    have hone : buildTree (frequencies (List.replicate n a)) = placeholder a := by
      rw [buildTree, symbolsOf_frequencies_replicate hn hl]; rfl
    rw [hone, fileOf, List.length_replicate, codeWords_replicate hcode, pack_replicate_false]
  · obtain ⟨-, hsize, -⟩ := placeholderTreesHaveOneBitCodes a
    rw [pack_length, Tree.ser_length, hsize]
  · have hleaves := buildTree_leaves (frequencies l)
    rw [symbolsOf_frequencies_length_of_all hl hall] at hleaves
    have hsize := (buildTree (frequencies l)).size_eq
    rw [pack_length, Tree.ser_length]
    omega

end Sys2Proof.Machine
end

section
/-! PROOFS. How TS_DESERIALIZE, BU_READ_LENGTH and HD_DECOMPRESS end: the statuses they raise, and that what they do
does not depend on the recorded result (41_bit_unpacker.md R123, 42_canonical_tree_serializer.md R153,
44_huffman_decoder.md R186). -/

namespace Sys2Proof.Machine

/-! ## Pieces of pseudocode -/

section Pieces
variable {α : Type} {x : Flow α} {P : α → State → Prop} {Q : Status → State → Prop} {r : Option Result} {e : Status}
  {u : State}

/-- A piece that leaves nothing where it would end the command does not end it. -/
theorem Flow.Post.raises (hx : x.Post P fun _ => False) : x.Raises Q := by
  cases x with
  | ret a s => trivial
  | raise e s => exact hx.elim
  | refuse q s => trivial

/-- With `Flow.Raises.raised`: a command that returned an error did so at the line where its pseudocode stops. -/
theorem Flow.raises_self (x : Flow α) : x.Raises fun e u => x = .raise e u := by
  cases x with
  | ret a s => trivial
  | raise e s => exact rfl
  | refuse q s => trivial

theorem Flow.withResult_eq_raise (h : x.withResult r = .raise e u) : ∃ w, x = .raise e w ∧ u = w.setResult r := by
  cases x with
  | ret a s => cases h
  | raise e s => cases h; exact ⟨s, rfl, rfl⟩
  | refuse q s => cases h

end Pieces

/-! ## The statuses raised -/

/-- The status is an error. -/
def IsError (e : Status) (_ : State) : Prop := e ≠ .ok

theorem not_isError_ok (u : State) : ¬ IsError .ok u := fun h => h rfl

theorem readSymbol_raises (k : Nat) (acc : Byte) (s : State) : (readSymbol k acc s).Raises IsError := by
  induction k generalizing acc s with
  | zero => trivial
  | succ k ih =>
    refine (readBit_only s).raises.bind fun b u => ?_
    cases b with
    | none => exact Status.noConfusion
    | some b => exact ih _ u

theorem parse_raises (fuel count : Nat) (s : State) : (parse fuel count s).Raises IsError := by
  induction fuel generalizing count s with
  | zero => exact Status.noConfusion
  | succ fuel ih =>
    refine (readBit_only s).raises.bind fun tag u => ?_
    cases tag with
    | none => exact Status.noConfusion
    | some tag =>
      dsimp only
      split
      · exact Status.noConfusion
      · split
        · exact (readSymbol_raises 8 0 u).bind fun _ _ => trivial
        · exact (ih _ u).bind fun l v => (ih _ v).bind fun _ _ => trivial

theorem deserialize_raises (s : State) : (deserialize s).Raises IsError :=
  (buReadable_only s).raises.bind fun _ _ => (parse_raises _ 0 _).bind fun _ _ => trivial

theorem takeLengthBytes_raises (k : Nat) (n : Word32) (s : State) : (takeLengthBytes k n s).Raises IsError := by
  induction k generalizing n s with
  | zero => trivial
  | succ k ih =>
    unfold takeLengthBytes
    split
    · trivial
    · split
      · exact ih _ _
      · exact Status.noConfusion

theorem readLength_raises (s : State) : (readLength s).Raises IsError :=
  (buReadable_only s).raises.bind fun _ _ => takeLengthBytes_raises 4 0 _

theorem decodeOne_raises (t : Tree) (s : State) : (decodeOne t s).Raises IsError := by
  induction t generalizing s with
  | leaf a => trivial
  | internal l r ihl ihr =>
    refine (readBit_only s).raises.bind fun b u => ?_
    match b with
    | none => exact Status.noConfusion
    | some false => exact ihl u
    | some true => exact ihr u

theorem decodeSymbols_raises (t : Tree) (k : Nat) (s : State) : (decodeSymbols t k s).Raises IsError := by
  induction k generalizing s with
  | zero => trivial
  | succ k ih =>
    refine (decodeOne_raises t s).bind fun a u => ?_
    split
    · exact ih _
    · exact Status.noConfusion

theorem decompress_raises (s : State) : (decompress s).Raises IsError :=
  (deserialize_raises s).bind fun t u => (readLength_raises u).bind fun _ _ => decodeSymbols_raises t _ _

/-! ## The recorded result is not read -/

theorem takeLengthBytes_cons (k : Nat) (n : Word32) {s : State} {b : Byte} {rest : List Byte}
    (hc : s.buBytes < s.params.counterMax) (hu : s.untaken = b :: rest) :
    takeLengthBytes (k + 1) n s = takeLengthBytes k (appendByte n b) (s.taken 1) := by
  rw [Nat.add_comm]
  exact takeLengthBytes_append [b] rest k n hu hc

theorem takeLengthBytes_setResult (k : Nat) (n : Word32) (s : State) (r : Option Result) :
    takeLengthBytes k n (s.setResult r) = (takeLengthBytes k n s).withResult r := by
  induction k generalizing n s with
  | zero => rfl
  | succ k ih =>
    rcases Nat.lt_or_ge s.buBytes s.params.counterMax with hc | hc
    · cases hu : s.untaken with
      | nil => rw [takeLengthBytes_end k n hc hu, takeLengthBytes_end k n (s := s.setResult r) hc hu]; rfl
      | cons b rest =>
        rw [takeLengthBytes_cons k n hc hu, takeLengthBytes_cons k n (s := s.setResult r) hc hu]
        exact ih (appendByte n b) (s.taken 1)
    · rw [takeLengthBytes_full k n hc, takeLengthBytes_full k n (s := s.setResult r) hc]; rfl

theorem readLength_setResult (s : State) (r : Option Result) :
    readLength (s.setResult r) = (readLength s).withResult r := by
  cases ho : s.buStatus with
  | idle => rw [readLength, readLength, buReadable_idle ho, buReadable_idle (s := s.setResult r) ho]; rfl
  | opened =>
    rw [readLength_opened ho, readLength_opened (s := s.setResult r) ho]
    exact takeLengthBytes_setResult 4 0 (s.setBuBuffer 0 0) r

/-! ## What the commands answer -/

section Ends
variable {s u : State} {e : Status}

theorem exec_hdDecompress_ret (h : decompress s = .ret () u) :
    exec .hdDecompress s = .next (u.setResult (some ⟨.ok, .none⟩)) := by
  simp [exec, execHdDecompress, h]

theorem exec_hdDecompress_raise (h : decompress s = .raise e u) :
    exec .hdDecompress s = .next (u.setResult (some ⟨e, .none⟩)) := by
  simp [exec, execHdDecompress, h]

end Ends

end Sys2Proof.Machine
end

section
/-! PROOFS. HD_DECOMPRESS on a stream that holds a tree, a header and paths of the tree: where it stands when its loop
begins and behind a run of paths (44_huffman_decoder.md R186 to R190). -/

namespace Sys2Proof.Machine

variable {s u : State} {t : Tree} {n : Word32} {rest out : List Byte} {pad x : Bits}

/-- HD_DECOMPRESS, begun in `s` on a stream with tree `t` and header `n`, is in its loop and has emitted `out` (R186
step 3). -/
structure Decoding (s : State) (t : Tree) (n : Word32) (out : List Byte) (u : State) : Prop where
  reading : Reading u
  tree : u.tree = some t
  code : u.code = Vector.replicate 256 none
  rawOut : u.rawOut = s.rawOut ++ out
  remaining : u.hdRemaining = n - BitVec.ofNat 32 out.length
  host : u.host = s.host.after out.length
  srcData : u.src.data = s.src.data
  params : u.params = s.params

/-! ## The tree and the header -/

/-- The bits of a tree, fewer than eight bits of padding and a header in front of the cursor bring HD_DECOMPRESS to its
loop, on a byte boundary behind the header (R186 steps 1 and 2). -/
theorem Reading.decompress_header (h : Reading s) (hn : t.nodes ≤ s.params.maxNodes) (hpad : pad.length < 8)
    (hsuf : be32 n ++ rest <:+ s.src.data) (hu : s.unread = t.ser ++ (pad ++ streamBits (be32 n ++ rest))) :
    ∃ u, decompress s = decodeSymbols t n.toNat u ∧ Decoding s t n [] u ∧ u.untaken = rest ∧ u.buAvail = 0 := by
  obtain ⟨v, hparse, hrest, hv, hsv, havail⟩ :=
    parse_ser t (s.params.maxNodes + 1) 0 _ h.forgotten hu (by omega) ((Nat.zero_add _).trans_le hn)
  have haligned : v.untaken = be32 n ++ rest :=
    untaken_of_unread havail hpad hrest (by rw [hsv.srcData]; exact hsuf) hv.cursor
  have hv' : Reading (v.setTree (some t)) := ⟨hv.status, hv.avail, hv.counts, hv.cursor, hv.room⟩
  obtain ⟨w, hlength, huntaken, hw0, -, hw, hvw⟩ := readLength_total hv' n rest haligned
  refine ⟨w.setHdRemaining n, ?_, ⟨⟨hw.status, hw.avail, hw.counts, hw.cursor, hw.room⟩, hvw.tree,
    hvw.code.trans hsv.code, ?_, (BitVec.sub_zero n).symm, hvw.host.trans hsv.host, hvw.srcData.trans hsv.srcData,
    hvw.params.trans hsv.params⟩, huntaken, hw0⟩
  · rw [decompress, deserialize_opened h.status, hparse, Flow.bind_ret, Flow.bind_ret, hlength, Flow.bind_ret]
  · exact (hvw.rawOut.trans hsv.rawOut).trans (List.append_nil _).symm

/-- A byte-aligned OPEN channel in front of the bytes of a tree, padding and a header. -/
theorem decompress_aligned {treeBytes : List Byte} (ho : s.buStatus = .opened) (h0 : s.buAvail = 0) (hc : s.CursorsOk)
    (hk : s.CountsAreTrue) (hroom : s.src.data.length ≤ s.params.counterMax) (hn : t.nodes ≤ s.params.maxNodes)
    (hu : s.untaken = treeBytes ++ be32 n ++ rest) (hser : streamBits treeBytes = t.ser ++ pad)
    (hpad : pad.length < 8) :
    ∃ u, decompress s = decodeSymbols t n.toNat u ∧ Decoding s t n [] u ∧ u.untaken = rest ∧ u.buAvail = 0 := by
  have hreading : Reading s := ⟨ho, by omega, hk.2 ho, hc.1, hroom⟩
  rw [List.append_assoc] at hu
  refine hreading.decompress_header hn hpad ?_ ?_
  · exact (List.suffix_append treeBytes _).trans (hu ▸ List.drop_suffix _ _)
  · rw [unread_empty h0, hu, streamBits_append, hser, List.append_assoc]

/-! ## The loop -/

/-- The loop goes through a list of paths of the tree (R187). -/
theorem Decoding.steps {steps : List (Byte × Bits)} (h : Decoding s t n [] u) (k : Nat)
    (hu : u.unread = steps.flatMap (·.2) ++ x) (hs : ∀ e ∈ steps, e ∈ t.paths) (ho : s.host.OkFor steps.length) :
    ∃ v, decodeSymbols t (steps.length + k) u = decodeSymbols t k v ∧ Decoding s t n (steps.map (·.1)) v ∧
      v.unread = x := by
  have hzero : u.hdRemaining = n := h.remaining.trans (BitVec.sub_zero n)
  obtain ⟨v, hv, hrest, hreading, hout, hremaining, hhost, honly⟩ :=
    decodeSymbols_paths t steps k x h.reading hu hs (by rw [h.host]; exact ho)
  refine ⟨v, hv, ⟨hreading, honly.tree.trans h.tree, honly.code.trans h.code, ?_, ?_, ?_,
    honly.srcData.trans h.srcData, honly.params.trans h.params⟩, hrest⟩
  · rw [hout, h.rawOut, List.append_nil]
  · rw [hremaining, hzero, List.length_map]
  · rw [hhost, h.host, List.length_map]; rfl

/-- Counting down one symbol and then `k` more. -/
theorem sub_ofNat_succ (n : Word32) (k : Nat) : n - BitVec.ofNat 32 (k + 1) = n - 1 - BitVec.ofNat 32 k := by
  rw [BitVec.sub_sub, Nat.add_comm, BitVec.ofNat_add]; rfl

/-- The tree that is a single leaf is decoded without a read (R188). -/
theorem decodeSymbols_leaf (a : Byte) (k : Nat) (ho : s.host.OkFor k) : decodeSymbols (.leaf a) k s = .ret ()
    { s with rawOut := s.rawOut ++ List.replicate k a, hdRemaining := s.hdRemaining - BitVec.ofNat 32 k
             host := s.host.after k } := by
  induction k generalizing s with
  | zero => simp [decodeSymbols, HostScript.after]
  | succ k ih =>
    obtain ⟨hanswer, hrest⟩ := ho
    rw [decodeSymbols, decodeOne, Flow.bind_ret, State.rawOutWrite_ok hanswer]
    refine (ih hrest).trans ?_
    rw [sub_ofNat_succ, List.replicate_succ, List.append_cons s.rawOut a (List.replicate k a)]
    rfl

/-- The loop stops where the stream ends inside a path (R190 (c)). -/
theorem Decoding.truncated (h : Decoding s t n out u) (k : Nat) {a : Byte} {p : Bits} (hp : (a, p) ∈ t.paths)
    (hpre : x <+: p) (hne : x ≠ p) (hroom : s.src.data.length < s.params.counterMax) (hu : u.unread = x) :
    ∃ v, decodeSymbols t (k + 1) u = .raise .truncatedStream v ∧ v.unread = [] ∧ OnlyUnpacker u v := by
  obtain ⟨v, hv, hnil, honly⟩ :=
    decodeOne_end t hp hpre hne h.reading (by rw [h.srcData, h.params]; exact hroom) hu
  exact ⟨v, by rw [decodeSymbols, hv, Flow.bind_raise], hnil, honly⟩

theorem State.rawOutWrite_fail {l : List Byte} {d : Bool} (h : s.host.answer = .fail l d) (b : Byte) :
    s.rawOutWrite b = (false, s.drawn.setRawOut l) := by
  simp [State.rawOutWrite, State.answer, h]

/-- The loop stops where RAWOUT does not take the symbol (R190 (d)). -/
theorem Decoding.writeFails (h : Decoding s t n out u) (k : Nat) {e : Byte × Bits} (he : e ∈ t.paths)
    {l : List Byte} {d : Bool} (hfail : (s.host.after out.length).answer = .fail l d) (hu : u.unread = e.2 ++ x) :
    ∃ v, decodeSymbols t (k + 1) u = .raise .writeFailure v ∧ v.rawOut = l ∧ v.unread = x ∧
      v.hdRemaining = u.hdRemaining ∧ v.tree = u.tree ∧ v.buStatus = u.buStatus := by
  obtain ⟨v, hv, hrest, -, honly⟩ := decodeOne_path t he x h.reading hu
  have hanswer : v.host.answer = .fail l d := by rw [honly.host, h.host]; exact hfail
  refine ⟨v.drawn.setRawOut l, ?_, rfl, hrest, honly.hdRemaining, honly.tree, honly.buStatus⟩
  rw [decodeSymbols, hv, Flow.bind_ret, State.rawOutWrite_fail hanswer]

/-! ## On every stream -/

/-- The loop counts down once a symbol (R186 step 3). -/
theorem decodeSymbols_only (t : Tree) (k : Nat) (s : State) : (decodeSymbols t k s).Post
    (fun _ u => OnlyDecodes s u ∧ u.hdRemaining = s.hdRemaining - BitVec.ofNat 32 k) (OnlyDecodes s) := by
  induction k generalizing s with
  | zero => exact ⟨(OnlyUnpacker.refl s).decodes, (BitVec.sub_zero _).symm⟩
  | succ k ih =>
    refine ((decodeOne_only t s).mono (fun _ _ h => h) fun _ h => h.decodes).bind fun a u hu => ?_
    rcases u.rawOutWrite_cases a with hw | ⟨l, hw⟩ <;> rw [hw]
    · have hcounted {v : State} (hv : OnlyDecodes ((u.drawn.setRawOut (u.rawOut ++ [a])).setHdRemaining
          (u.hdRemaining - 1)) v) : OnlyDecodes s v :=
        hu.decodes.trans ⟨hv.tree, hv.code, hv.buStatus, hv.srcData, hv.params⟩
      refine (ih _).mono (fun _ v hv => ⟨hcounted hv.1, ?_⟩) fun v hv => hcounted hv
      rw [hv.2, sub_ofNat_succ, ← hu.hdRemaining]
      rfl
    · exact ⟨hu.tree, hu.code, hu.buStatus, hu.srcData, hu.params⟩

/-- The channel is OPEN and the code table empty. -/
structure OpenWithoutCode (u : State) : Prop where
  status : u.buStatus = .opened
  code : u.code = Vector.replicate 256 none

theorem OpenWithoutCode.of_onlyUnpacker (h : OpenWithoutCode s) (k : OnlyUnpacker s u) : OpenWithoutCode u :=
  ⟨k.buStatus.trans h.status, k.code.trans h.code⟩

theorem OpenWithoutCode.of_onlyDecodes (h : OpenWithoutCode s) (k : OnlyDecodes s u) : OpenWithoutCode u :=
  ⟨k.buStatus.trans h.status, k.code.trans h.code⟩

/-- TS_DESERIALIZE stores the tree it answers, and no tree where it fails (R153). -/
theorem deserialize_leaves (s : State) : (deserialize s).Post (fun t u => OpenWithoutCode u ∧ u.tree = some t)
    (fun u => OpenWithoutCode u ∧ u.tree = none) :=
  (deserialize_post (R := fun _ => True) trivial (fun _ _ => trivial)
    (fun u fuel count _ => (parse_only fuel count u).mono (fun _ _ _ => trivial) fun _ _ => trivial)
    fun _ _ _ _ _ => trivial).mono
    (fun _ _ ⟨_, htree, hcode, _, hopen⟩ => ⟨⟨hopen, hcode⟩, htree⟩)
    fun _ ⟨_, htree, hcode, hopen⟩ => ⟨⟨hopen, hcode⟩, htree⟩

/-- HD_DECOMPRESS leaves the channel open and the code table empty; when it runs to its end nothing remains, and there
is a tree (R186, R190, R193). -/
theorem decompress_leaves (s : State) : (decompress s).Post
    (fun _ u => OpenWithoutCode u ∧ u.hdRemaining = 0 ∧ ∃ t, u.tree = some t) OpenWithoutCode := by
  refine ((deserialize_leaves s).mono (fun _ _ h => h) fun _ h => h.1).bind fun t u ⟨hu, htree⟩ => ?_
  refine ((readLength_only u).mono (fun _ _ h => h) fun _ h => hu.of_onlyUnpacker h).bind fun n v huv => ?_
  have hv : OpenWithoutCode (v.setHdRemaining n) :=
    ⟨(hu.of_onlyUnpacker huv).status, (hu.of_onlyUnpacker huv).code⟩
  refine (decodeSymbols_only t n.toNat (v.setHdRemaining n)).mono (fun _ w ⟨honly, hremaining⟩ => ?_)
    fun _ honly => hv.of_onlyDecodes honly
  exact ⟨hv.of_onlyDecodes honly, hremaining.trans (by simp), t, honly.tree.trans (huv.tree.trans htree)⟩

end Sys2Proof.Machine
end

section
/-! PROOFS. What a successful HE_COMPRESS has left for HD_DECOMPRESS to read (44_huffman_decoder.md R191). -/

namespace Sys2Proof.Machine

variable {s u : State}

/-- A tree that the store has room for by its symbols has room by its nodes (R143, D18). -/
theorem buildTree_nodes_le {freq : Vector Word32 256} {p : Params} (hp : p.wf = true)
    (hfits : 2 * (symbolsOf freq).length ≤ p.maxNodes + 1) : (buildTree freq).nodes ≤ p.maxNodes := by
  have hleaves := buildTree_leaves freq
  have hnodes := (buildTree freq).nodes_eq
  simp only [Params.wf, Bool.and_eq_true, beq_iff_eq, decide_eq_true_eq] at hp
  omega

/-- A HE_COMPRESS that ran to its end had room in the store for the tree (R171, R143). -/
theorem inputTree_nodes_le (hp : s.params.wf = true) (h : compress s = .ret () u) :
    s.inputTree.nodes ≤ s.params.maxNodes := by
  have hopen : s.bpStatus ≠ .idle := fun hidle => by cases (compress_idle hidle).symm.trans h
  refine buildTree_nodes_le hp (Nat.not_lt.mp fun hfull => ?_)
  cases (compress_full hopen (compress_ret h).1 hfull).symm.trans h

/-- On a fresh channel it has written the file of the input, which the byte counter has counted (R80, R107, R172). -/
theorem State.FreshWrite.compress (hf : s.FreshWrite) (h : compress s = .ret () u) :
    u.sink.data = fileOf s.inputTree s.rawIn.data ∧ u.tree = some s.inputTree ∧
      (fileOf s.inputTree s.rawIn.data).length ≤ s.params.counterMax := by
  have hwritten := hf.holds.compress h
  rw [List.nil_append, List.nil_append, ← fileOf] at hwritten
  have hcount : BpCountFits u := (compress_fits (by rw [BpCountFits, hf.bytes]; exact Nat.zero_le _)).of_ret h
  rw [BpCountFits, hwritten.closed.bytes, hwritten.eq] at hcount
  exact ⟨hwritten.closed.data, by rw [hwritten.eq], hcount⟩

section File
variable {t : Tree} {syms : List Byte}

/-- A fresh read channel on a file: the bits of the tree, its padding, the header and the code words are unread (R80). -/
theorem State.FreshRead.unread_fileOf (hf : s.FreshRead) (hdata : s.src.data = fileOf t syms) :
    ∃ pad : Bits, pad.length < 8 ∧ s.unread =
      t.ser ++ (pad ++ streamBits (be32 (BitVec.ofNat 32 syms.length) ++ pack (codeWords t syms))) := by
  refine ⟨List.replicate (8 * ((t.ser.length + 7) / 8) - t.ser.length) false, ?_, ?_⟩
  · rw [List.length_replicate]; omega
  · rw [hf.unread, hdata, fileOf, List.append_assoc, streamBits_append, streamBits_pack, List.append_assoc]

/-- HD_DECOMPRESS on a file gives its symbols, if each has a leaf in the tree (R191): its code words are paths. -/
theorem State.FreshRead.decompress_fileOf (hf : s.FreshRead) (hdata : s.src.data = fileOf t syms)
    (hroom : s.src.data.length ≤ s.params.counterMax) (hn : t.nodes ≤ s.params.maxNodes)
    (hshort : syms.length < 2 ^ 32) (hsyms : ∀ a ∈ syms, a ∈ t.symbols) (hokFor : s.host.OkFor syms.length) :
    ∃ u, decompress s = .ret () u ∧ Decoding s t (BitVec.ofNat 32 syms.length) syms u := by
  obtain ⟨pad, hpad, hunread⟩ := hf.unread_fileOf hdata
  have hsuf : be32 (BitVec.ofNat 32 syms.length) ++ pack (codeWords t syms) <:+ s.src.data := by
    rw [hdata, fileOf, List.append_assoc]; exact List.suffix_append _ _
  obtain ⟨v, hloop, hdecoding, huntaken, havail⟩ := (hf.reading hroom).decompress_header hn hpad hsuf hunread
  obtain ⟨steps, hsteps, rfl, hbits⟩ := codeWords_paths t syms hsyms
  rw [List.length_map] at hshort hokFor hloop
  obtain ⟨w, hw, hdone, -⟩ :=
    hdecoding.steps 0 (by rw [unread_empty havail, huntaken, streamBits_pack, hbits]) hsteps hokFor
  rw [BitVec.toNat_ofNat, Nat.mod_eq_of_lt hshort] at hloop
  exact ⟨w, hloop.trans hw, hdone⟩

end File

end Sys2Proof.Machine
end

section
/-! PROOFS. The statements of 44_huffman_decoder.md. -/

namespace Sys2Proof.Machine

/-- Settles O54: the tree and the header are read (`decompress_aligned`), then the loop goes through the paths
(`Decoding.steps`). -/
theorem decompressEmitsTheSymbols : Obligations.DecompressEmitsTheSymbols := by
  intro s t treeBytes rest steps pad tail n ho h0 hc hk hroom hn hokFor hu hser hpad hrest hsteps hlen
  obtain ⟨u, hloop, hdecoding, huntaken, havail⟩ := decompress_aligned ho h0 hc hk hroom hn hu hser hpad
  obtain ⟨v, hv, hdone, htail⟩ :=
    hdecoding.steps 0 (by rw [unread_empty havail, huntaken, hrest]) hsteps hokFor
  rw [Nat.add_zero, hlen] at hv
  refine ⟨_, exec_hdDecompress_ret (hloop.trans hv), rfl, hdone.rawOut, ?_, hdone.tree, clearCode_all v hdone.code,
    hdone.reading.status, htail⟩
  exact hdone.remaining.trans (by rw [List.length_map, hlen]; simp)

/-- Settles O55: behind the header the loop only writes (`decodeSymbols_leaf`). -/
theorem decompressOfASingleLeaf : Obligations.DecompressOfASingleLeaf := by
  intro s a treeBytes rest pad n ho h0 hc hk hroom hn hokFor hu hser hpad
  obtain ⟨u, hloop, hdecoding, huntaken, havail⟩ :=
    decompress_aligned (t := .leaf a) ho h0 hc hk hroom hn hu hser hpad
  have hhost : u.host = s.host := hdecoding.host
  rw [decodeSymbols_leaf a n.toNat (by rw [hhost]; exact hokFor)] at hloop
  refine ⟨_, exec_hdDecompress_ret hloop, rfl, ?_, ?_, havail, huntaken⟩
  · exact congrArg (· ++ _) (hdecoding.rawOut.trans (List.append_nil _))
  · exact (congrArg (· - _) hdecoding.remaining).trans (by simp)

/-- Settles O56: an error of a sub-command is the composite command's own, and neither sub-command writes RAWOUT or
`hd_remaining` (R29, R48); the result that BU_READ_LENGTH finds recorded makes no difference. -/
theorem decompressStopsAtTheFirstError : Obligations.DecompressStopsAtTheFirstError := by
  intro s u he
  have hrawOut : u.rawOut = s.rawOut := (exec_streamFrame he).rawOut rfl
  have hremaining : u.hdRemaining = s.hdRemaining := (exec_registerFrame he).hdRemaining rfl
  constructor
  · intro e hne hr
    obtain ⟨w, hw, rfl⟩ := (Flow.raises_self (deserialize s)).raised he hr hne
    have hleaves := deserialize_leaves s
    rw [hw] at hleaves
    exact ⟨exec_hdDecompress_raise (by rw [decompress, hw, Flow.bind_raise]), hleaves.2, hrawOut, hremaining⟩
  · intro v hok hlength hr
    obtain ⟨t, w, hw, rfl⟩ := (deserialize_raises s).returned not_isError_ok he hok
    obtain ⟨_, hread, rfl⟩ := (Flow.raises_self _).raised hlength hr (by decide)
    rw [readLength_setResult] at hread
    obtain ⟨z, hz, rfl⟩ := Flow.withResult_eq_raise hread
    have hdecompress : decompress s = .raise .truncatedStream z := by
      rw [decompress, hw, Flow.bind_ret, hz, Flow.bind_raise]
    exact ⟨by rw [exec_hdDecompress_raise hdecompress]; rfl, (exec_registerFrame hlength).tree rfl,
      ((exec_streamFrame hlength).rawOut rfl).trans hrawOut,
      ((exec_registerFrame hlength).hdRemaining rfl).trans hremaining⟩

/-- Settles O57: the loop goes through the paths and stops inside the next one (`Decoding.truncated`). -/
theorem decompressReportsTruncation : Obligations.DecompressReportsTruncation := by
  intro s t treeBytes rest steps pad part p a n ho h0 hc hk hroom hn hokFor hu hser hpad hrest hsteps hlen hp hpre hne
  obtain ⟨k, hlen⟩ := Nat.exists_eq_add_of_lt hlen
  obtain ⟨u, hloop, hdecoding, huntaken, havail⟩ := decompress_aligned ho h0 hc hk hroom.le hn hu hser hpad
  obtain ⟨v, hv, hreached, hpart⟩ :=
    hdecoding.steps (k + 1) (by rw [unread_empty havail, huntaken, hrest]) hsteps hokFor
  obtain ⟨w, hw, hnil, honly⟩ := hreached.truncated k hp hpre hne hroom hpart
  rw [hlen, Nat.add_assoc, hv, hw] at hloop
  exact ⟨_, exec_hdDecompress_raise hloop, rfl, honly.rawOut.trans hreached.rawOut,
    honly.hdRemaining.trans (hreached.remaining.trans (by rw [List.length_map])), honly.tree.trans hreached.tree,
    honly.buStatus.trans hreached.reading.status, hnil⟩

/-- Settles O58: the loop goes through the first paths and stops at the write that fails (`Decoding.writeFails`). -/
theorem decompressReportsWriteFailure : Obligations.DecompressReportsWriteFailure := by
  intro s t treeBytes rest steps e pad tail n l d ho h0 hc hk hroom hn hokFor hfail hu hser hpad hrest hsteps hlen
  obtain ⟨k, hlen⟩ := Nat.exists_eq_add_of_lt hlen
  obtain ⟨u, hloop, hdecoding, huntaken, havail⟩ := decompress_aligned ho h0 hc hk hroom hn hu hser hpad
  rw [List.flatMap_append, List.append_assoc, List.flatMap_singleton] at hrest
  obtain ⟨v, hv, hreached, hnext⟩ := hdecoding.steps (k + 1) (by rw [unread_empty havail, huntaken, hrest])
    (fun x hx => hsteps x (List.mem_append_left _ hx)) hokFor
  obtain ⟨w, hw, hrawOut, htail, hremaining, htree, hstatus⟩ := hreached.writeFails k
    (hsteps e (List.mem_append_right _ List.mem_cons_self)) (by rw [List.length_map]; exact hfail) hnext
  rw [hlen, Nat.add_assoc, hv, hw] at hloop
  exact ⟨_, exec_hdDecompress_raise hloop, rfl, hrawOut,
    hremaining.trans (hreached.remaining.trans (by rw [List.length_map])), htree.trans hreached.tree,
    hstatus.trans hreached.reading.status, htail⟩

/-- Settles O59: TS_DESERIALIZE has cleared the code table, and no later line writes it or the channel's status
(`decompress_leaves`); none of the lines raises OK. -/
theorem decompressLeavesTheChannelOpen : Obligations.DecompressLeavesTheChannelOpen := by
  intro s t he
  have hleaves := decompress_leaves s
  have hkeeps : (decompress s).Keeps OpenWithoutCode := hleaves.mono (fun _ _ h => h.1) fun _ h => h
  obtain ⟨hopen, hcode⟩ := hkeeps.finish_ret (fun _ _ h => ⟨h.status, h.code⟩) he
  refine ⟨hopen, clearCode_all t hcode, fun hr => ?_⟩
  obtain ⟨_, u, hu, rfl⟩ := (decompress_raises s).returned not_isError_ok he hr
  exact (hleaves.of_ret hu).2

/-- Settles O60: SINK holds the file of the input (`State.FreshWrite.compress`), and HD_DECOMPRESS on a file gives its
symbols (`State.FreshRead.decompress_fileOf`). -/
theorem decompressInvertsCompress : Obligations.DecompressInvertsCompress := by
  intro s t s' hwrite hp he hr hread hparams hdata hempty hokFor
  obtain ⟨u, hu, rfl⟩ := exec_heCompress_ok he hr
  obtain ⟨hsink, htree, hcounted⟩ := hwrite.compress hu
  have hfile : s'.src.data = fileOf s.inputTree s.rawIn.data := hdata.trans hsink
  have hshort := (compress_ret hu).1
  obtain ⟨v, hv, hdone⟩ := hread.decompress_fileOf hfile (by rw [hfile, hparams]; exact hcounted)
    (by rw [hparams]; exact inputTree_nodes_le hp hu) hshort (fun a ha => mem_symbols_inputTree hshort ha) hokFor
  refine ⟨_, exec_hdDecompress_ret hv, rfl, ?_, hdone.remaining.trans (BitVec.sub_self _),
    hdone.tree.trans htree.symm, hdone.reading.status⟩
  exact hdone.rawOut.trans (by rw [hempty, List.nil_append])

end Sys2Proof.Machine
end

section
/-! PROOFS. When a command is refused: each refusal of each command is a row of the refusal table (60_exceptions.md
R214, R215). -/

namespace Sys2Proof.Machine

/-! ## The commands' pieces -/

section Refused
variable {α : Type} {x : Flow α} {g : α → Value} {r : Refusal}

/-- A command that is refused came to a line that is. -/
theorem Flow.finish_refused (he : (x.bind fun a u => .ret (g a) u).finish = .refused r) : ∃ u, x = .refuse r u := by
  cases x with
  | ret a u => cases he
  | raise e u => cases he
  | refuse q u => cases he; exact ⟨u, rfl⟩

theorem Flow.Stops.refused_ret {P : α → State → Prop} {R : Refusal → Prop} (hx : x.Stops P fun r _ => R r)
    (he : (x.bind fun a u => .ret (g a) u).finish = .refused r) : R r := by
  obtain ⟨u, rfl⟩ := Flow.finish_refused he
  exact hx

end Refused

variable {s : State} {i : Instr} {r : Refusal}

/-- A run of bits, in every state of the channel. -/
theorem writeBits_packer (bits : Bits) (s : State) :
    (writeBits bits s).Stops (fun _ _ => True) fun r _ => PackerRefusal s ((bits.length + 7) / 8) r := by
  cases bits with
  | nil => trivial
  | cons b bs =>
    cases hs : s.bpStatus with
    | idle =>
      rw [writeBits, writeBit_idle b hs, Flow.bind_refuse]
      exact .inl ⟨rfl, hs⟩
    | failed =>
      rw [writeBits, writeBit_failed b hs, Flow.bind_raise]
      trivial
    | opened =>
      exact (writeBits_stops (b :: bs) hs).mono (fun _ _ _ => trivial) fun _ _ h => .inr ⟨h.1, hs, by omega⟩

theorem writeBit_packer (b : Bool) (s : State) :
    (writeBit b s).Stops (fun _ _ => True) fun r _ => PackerRefusal s 1 r := by
  cases hs : s.bpStatus with
  | idle => rw [writeBit_idle b hs]; exact .inl ⟨rfl, hs⟩
  | failed => rw [writeBit_failed b hs]; trivial
  | opened => exact (writeBit_stops b hs).mono (fun _ _ _ => trivial) fun _ _ h => .inr ⟨h.1, hs, by omega⟩

theorem emitLeaf_packer (sym : Byte) (s : State) :
    (emitLeaf sym s).Stops (fun _ _ => True) fun r _ => PackerRefusal s 2 r := by
  have h := writeBits_packer (true :: msb8 sym) s
  rw [List.length_cons, msb8_length] at h
  exact h

/-- A length, in every state of the channel. -/
theorem writeLength_packer (n : Word32) (s : State) :
    (writeLength n s).Stops (fun _ _ => True) fun r _ => PackerRefusal s 5 r := by
  cases hs : s.bpStatus with
  | idle => rw [writeLength_idle n hs]; exact .inl ⟨rfl, hs⟩
  | failed => rw [writeLength_failed n hs]; trivial
  | opened => exact (writeLength_stops n hs).mono (fun _ _ _ => trivial) fun _ _ h => .inr ⟨h.1, hs, h.2⟩

theorem theTree_stops (s : State) :
    (theTree s).Stops (fun t u => s.tree = some t ∧ u = s) fun r _ => r = .noTree ∧ s.tree = none := by
  cases h : s.tree with
  | none => rw [theTree_none h]; exact ⟨rfl, rfl⟩
  | some t => rw [theTree_some h]; exact ⟨rfl, rfl⟩

theorem serialize_stops (s : State) : (serialize s).Stops (fun _ _ => True) fun r _ =>
    (r = .noTree ∧ s.tree = none) ∨ PackerRefusal s (writesAtMost .tsSerialize s) r := by
  refine ((theTree_stops s).mono (fun _ _ h => h) fun _ _ => .inl).bind fun t u ⟨ht, hu⟩ => ?_
  have hcount : writesAtMost .tsSerialize s = (t.ser.length + 7) / 8 := by simp [writesAtMost, ht, Tree.ser_length]
  rw [hu, emit_eq_writeBits, hcount]
  exact (writeBits_packer t.ser s).mono (fun _ _ h => h) fun _ _ => .inr

theorem build_stops (s : State) : (build s).Stops (fun _ _ => True) fun r _ =>
    r = .treeStoreTooSmall ∧ s.params.maxNodes + 1 < 2 * (symbolsOf s.freq).length := by
  unfold build
  split
  · exact ⟨rfl, by assumption⟩
  · trivial

theorem buReadable_stops (s : State) :
    (buReadable s).Stops (fun _ u => u = s) fun r _ => r = .readChannelIdle ∧ s.buStatus = .idle := by
  cases h : s.buStatus with
  | idle => rw [buReadable_idle h]; exact ⟨rfl, rfl⟩
  | opened => rw [buReadable_opened h]; exact rfl

theorem buClose_stops (s : State) :
    (buClose s).Stops (fun _ _ => True) fun r _ => r = .readChannelIdle ∧ s.buStatus = .idle :=
  (buReadable_stops s).bind fun _ _ _ => trivial

theorem makeCodeTable_stops (s : State) :
    (makeCodeTable s).Stops (fun _ _ => True) fun r _ => r = .noTree ∧ s.tree = none :=
  (theTree_stops s).bind fun _ _ _ => trivial

/-! ## The rows of the table -/

/-- The refusal `r` of the instruction `i` in the state `s` is a row of R215: one constructor for each situation, with
the commands and the state its row names. -/
inductive RefusalRow (i : Instr) (s : State) : Refusal → Prop
  | writeChannelIdle (hs : s.bpStatus = .idle) (hp : drivesPacker i = true) (hi : i ≠ .bpOpen) :
    RefusalRow i s .writeChannelIdle
  | writeChannelInUse (hs : s.bpStatus ≠ .idle) (hi : i = .bpOpen) : RefusalRow i s .writeChannelInUse
  | readChannelIdle (hs : s.buStatus = .idle) (hi : (drivesUnpacker i = true ∧ i ≠ .buOpen) ∨ i = .buClose) :
    RefusalRow i s .readChannelIdle
  | readChannelInUse (hs : s.buStatus ≠ .idle) (hi : i = .buOpen) : RefusalRow i s .readChannelInUse
  | noTree (hs : s.tree = none) (hi : i = .tsSerialize ∨ i = .tsSize ∨ i = .tsCodetable) : RefusalRow i s .noTree
  | buildTooSmall (hi : i = .tsBuild) (hs : s.params.maxNodes + 1 < 2 * (symbolsOf s.freq).length) :
    RefusalRow i s .treeStoreTooSmall
  | compressTooSmall (hi : i = .heCompress)
    (hs : s.params.maxNodes + 1 < 2 * (symbolsOf (frequencies s.rawIn.data)).length) : RefusalRow i s .treeStoreTooSmall
  | writeCounterFull (hp : drivesPacker i = true) (hi : i ≠ .bpOpen)
    (hs : s.params.counterMax < s.bpBytes + writesAtMost i s) : RefusalRow i s .byteCounterFull
  | readCounterFull (hp : drivesUnpacker i = true) (hi : i ≠ .buOpen)
    (hs : s.params.counterMax < s.buBytes + readsAtMost i s) : RefusalRow i s .byteCounterFull

theorem RefusalRow.of_packer (hp : drivesPacker i = true) (hi : i ≠ .bpOpen)
    (h : PackerRefusal s (writesAtMost i s) r) : RefusalRow i s r := by
  rcases h with ⟨rfl, hidle⟩ | ⟨rfl, -, hfull⟩
  · exact .writeChannelIdle hidle hp hi
  · exact .writeCounterFull hp hi hfull

theorem RefusalRow.of_noTree (hi : i = .tsSerialize ∨ i = .tsSize ∨ i = .tsCodetable)
    (h : r = .noTree ∧ s.tree = none) : RefusalRow i s r := by
  obtain ⟨rfl, hnone⟩ := h
  exact .noTree hnone hi

/-- A command that reads is refused in IDLE, or where the counter has no room for the bytes it may take. -/
theorem RefusalRow.of_unpacker (hp : drivesUnpacker i = true) (hi : i ≠ .buOpen) {k : Nat}
    (h : (r = .readChannelIdle ∧ s.buStatus = .idle) ∨
      (r = .byteCounterFull ∧ s.buStatus = .opened ∧ s.params.counterMax ≤ s.buBytes + k))
    (hk : readsAtMost i s = k + 1) : RefusalRow i s r := by
  rcases h with ⟨rfl, hidle⟩ | ⟨rfl, -, hfull⟩
  · exact .readChannelIdle hidle (.inl ⟨hp, hi⟩)
  · exact .readCounterFull hp hi (by omega)

theorem execBpOpen_refused (he : execBpOpen s = .refused r) : r = .writeChannelInUse ∧ s.bpStatus ≠ .idle := by
  unfold execBpOpen at he
  split at he <;> cases he <;> simp_all

theorem execBuOpen_refused (he : execBuOpen s = .refused r) : r = .readChannelInUse ∧ s.buStatus ≠ .idle := by
  unfold execBuOpen at he
  split at he <;> cases he
  simp_all

theorem execBuReadBit_refused (he : execBuReadBit s = .refused r) : RefusalRow .buReadBit s r := by
  have hread := (readBit_stops s).mono (fun _ _ h => h) (R' := fun r _ => RefusalRow .buReadBit s r)
    fun _ _ h => .of_unpacker rfl nofun h rfl
  refine (Flow.Stops.refused (P := fun _ _ => True) (hread.bind fun b u _ => ?_) he).elim fun _ h => h
  cases b <;> trivial

/-- R215, over all instructions. -/
theorem exec_refusalRow (he : exec i s = .refused r) : RefusalRow i s r := by
  cases i with
  | bpOpen => obtain ⟨rfl, hs⟩ := execBpOpen_refused he; exact .writeChannelInUse hs rfl
  | bpWriteBit b => exact .of_packer rfl nofun ((writeBit_packer b s).refused_ret he)
  | bpWriteLength n => exact .of_packer rfl nofun ((writeLength_packer n s).refused_ret he)
  | bpClose => exact .of_packer rfl nofun ((bpClose_stops s).refused_ret he)
  | buOpen => obtain ⟨rfl, hs⟩ := execBuOpen_refused he; exact .readChannelInUse hs rfl
  | buReadBit => exact execBuReadBit_refused he
  | buReadLength =>
    obtain ⟨hr, hfull⟩ := (readLength_stops s).refused_ret he
    exact .of_unpacker rfl nofun (hr.imp id fun h => ⟨h.1, h.2.1, Nat.le_of_lt_succ (hfull h.1)⟩) rfl
  | buClose =>
    obtain ⟨rfl, hidle⟩ := (buClose_stops s).refused_ret he
    exact .readChannelIdle hidle (.inr rfl)
  | tsBuild => obtain ⟨rfl, hs⟩ := (build_stops s).refused_ret he; exact .buildTooSmall rfl hs
  | tsSerialize =>
    rcases (serialize_stops s).refused_ret he with h | h
    · exact .of_noTree (.inl rfl) h
    · exact .of_packer rfl nofun h
  | tsDeserialize => exact .of_unpacker rfl nofun ((deserialize_stops s).refused_ret he) rfl
  | tsSize => exact .of_noTree (.inr (.inl rfl)) ((theTree_stops s).refused_ret he)
  | tsCodetable => exact .of_noTree (.inr (.inr rfl)) ((makeCodeTable_stops s).refused_ret he)
  | heCompress =>
    obtain ⟨u, hu⟩ := Flow.finish_refused he
    rcases compress_refuse hu with ⟨rfl, hidle⟩ | ⟨rfl, hfull⟩ | ⟨rfl, hfull⟩
    · exact .writeChannelIdle hidle rfl nofun
    · exact .compressTooSmall rfl hfull
    · exact .writeCounterFull rfl nofun hfull
  | hdDecompress => exact .of_unpacker rfl nofun ((decompress_stops s).refused_ret he) rfl
  | tokenInternal => exact .of_packer rfl nofun ((writeBit_packer false s).refused_ret he)
  | tokenLeaf sym => exact .of_packer rfl nofun ((emitLeaf_packer sym s).refused_ret he)
  | lengthHeader n => exact .of_packer rfl nofun ((writeLength_packer n s).refused_ret he)
  | bpBytes | buBytes | tsFreqClear | tsFreqSet | tsCodeGet => cases he

end Sys2Proof.Machine
end

section
/-! PROOFS. With which status a command ends, and with which value: each status comes only from the commands of its row
(60_exceptions.md R200, R201). -/

namespace Sys2Proof.Machine

/-! ## The statuses the pieces raise -/

section Silent
variable {Q : Status → State → Prop} (s : State)

theorem buClose_raises : (buClose s).Raises Q :=
  (buReadable_only s).raises.bind fun _ _ => trivial

theorem makeCodeTable_raises : (makeCodeTable s).Raises Q :=
  (theTree_raises s).bind fun _ _ => trivial

end Silent

section Reads
variable {Q : Status → State → Prop} (htruncated : ∀ u, Q .truncatedStream u)
  (hmalformed : ∀ u, Q .malformedTree u) (hwrite : ∀ u, Q .writeFailure u)

include hmalformed in
/-- The end of the stream among a leaf's symbol bits is `MalformedTree` (R153). -/
theorem readSymbol_raises_of (k : Nat) (acc : Byte) (s : State) : (readSymbol k acc s).Raises Q := by
  induction k generalizing acc s with
  | zero => trivial
  | succ k ih =>
    refine (readBit_only s).raises.bind fun b u => ?_
    cases b with
    | none => exact hmalformed u
    | some b => exact ih _ u

include htruncated hmalformed in
/-- The end of the stream at a tag bit is `TruncatedStream`, a node too many `MalformedTree` (R153, R154). -/
theorem parse_raises_of (fuel count : Nat) (s : State) : (parse fuel count s).Raises Q := by
  induction fuel generalizing count s with
  | zero => exact hmalformed s
  | succ fuel ih =>
    refine (readBit_only s).raises.bind fun tag u => ?_
    cases tag with
    | none => exact htruncated u
    | some tag =>
      dsimp only
      split
      · exact hmalformed u
      · split
        · exact (readSymbol_raises_of hmalformed 8 0 u).bind fun _ _ => trivial
        · exact (ih _ u).bind fun _ v => (ih _ v).bind fun _ _ => trivial

include htruncated hmalformed in
theorem deserialize_raises_of (s : State) : (deserialize s).Raises Q :=
  (buReadable_only s).raises.bind fun _ _ =>
    (parse_raises_of htruncated hmalformed _ 0 _).bind fun _ _ => trivial

include htruncated in
/-- The end of the stream among the bytes of a length is `TruncatedStream` (R123). -/
theorem takeLengthBytes_raises_of (k : Nat) (n : Word32) (s : State) : (takeLengthBytes k n s).Raises Q := by
  induction k generalizing n s with
  | zero => trivial
  | succ k ih =>
    unfold takeLengthBytes
    split
    · trivial
    · split
      · exact ih _ _
      · exact htruncated _

include htruncated in
theorem readLength_raises_of (s : State) : (readLength s).Raises Q :=
  (buReadable_only s).raises.bind fun _ _ => takeLengthBytes_raises_of htruncated 4 0 _

include htruncated in
/-- The end of the stream in a descent is `TruncatedStream` (R187). -/
theorem decodeOne_raises_of (t : Tree) (s : State) : (decodeOne t s).Raises Q := by
  induction t generalizing s with
  | leaf sym => trivial
  | internal l r ihl ihr =>
    refine (readBit_only s).raises.bind fun b u => ?_
    match b with
    | none => exact htruncated u
    | some false => exact ihl u
    | some true => exact ihr u

include htruncated hwrite in
/-- Besides the descent's end, a RawOutWrite that fails is `WriteFailure` (R186). -/
theorem decodeSymbols_raises_of (t : Tree) (k : Nat) (s : State) : (decodeSymbols t k s).Raises Q := by
  induction k generalizing s with
  | zero => trivial
  | succ k ih =>
    refine (decodeOne_raises_of htruncated t s).bind fun sym u => ?_
    split
    · exact ih _
    · exact hwrite _

include htruncated hmalformed hwrite in
theorem decompress_raises_of (s : State) : (decompress s).Raises Q :=
  (deserialize_raises_of htruncated hmalformed s).bind fun t u =>
    (readLength_raises_of htruncated u).bind fun _ _ => decodeSymbols_raises_of htruncated hwrite t _ _

end Reads

/-! ## The rows of the table -/

/-- The status is `OK`, or the row of R201 that it has names the instruction `i`: one constructor for each row. -/
inductive StatusRow (i : Instr) : Status → Prop
  | ok : StatusRow i .ok
  | openFailure (hi : i = .bpOpen ∨ i = .buOpen) : StatusRow i .openFailure
  | writeFailure (hi : (drivesPacker i = true ∧ i ≠ .bpOpen) ∨ i = .hdDecompress) : StatusRow i .writeFailure
  | truncatedStream (hi : i = .buReadLength ∨ i = .tsDeserialize ∨ i = .hdDecompress) : StatusRow i .truncatedStream
  | malformedTree (hi : i = .tsDeserialize ∨ i = .hdDecompress) : StatusRow i .malformedTree
  | inputTooLong (hi : i = .heCompress) : StatusRow i .inputTooLong
  | endOfData (hi : i = .buReadBit) : StatusRow i .endOfData

/-- A result that R200 and R201 allow the instruction `i`: its status is in a row that names `i`, and only `OK` carries
a value. -/
structure ResultInTable (i : Instr) (r : Result) : Prop where
  row : StatusRow i r.status
  value : r.status ≠ .ok → r.value = .none

variable {i : Instr} {s t : State} {e : Status} {r : Refusal}

theorem ResultInTable.ok (i : Instr) (v : Value) : ResultInTable i ⟨.ok, v⟩ := ⟨.ok, fun h => absurd rfl h⟩

theorem StatusRow.result (h : StatusRow i e) : ResultInTable i ⟨e, .none⟩ := ⟨h, fun _ => rfl⟩

/-- A command whose lines raise only statuses of its rows records a result of the table. -/
theorem Flow.Raises.result {x : Flow Value} (hx : x.Raises fun e _ => StatusRow i e) (he : x.finish = .next t) :
    ∃ r, t.result = some r ∧ ResultInTable i r := by
  cases x with
  | ret v u => cases he; exact ⟨_, rfl, .ok i v⟩
  | raise e u => cases he; exact ⟨_, rfl, StatusRow.result hx⟩
  | refuse q u => cases he

theorem Flow.Raises.result_ret {α : Type} {x : Flow α} {g : α → Value} (hx : x.Raises fun e _ => StatusRow i e)
    (he : (x.bind fun a u => .ret (g a) u).finish = .next t) : ∃ r, t.result = some r ∧ ResultInTable i r :=
  (hx.bind (f := fun a u => .ret (g a) u) fun _ _ => trivial).result he

theorem StatusRow.of_writeFails (hp : drivesPacker i = true) (hi : i ≠ .bpOpen) (e : Status) (u : State)
    (h : WriteFails e u) : StatusRow i e := by
  obtain ⟨rfl, -⟩ := h
  exact .writeFailure (.inl ⟨hp, hi⟩)

theorem compress_statusRow (s : State) : (compress s).Raises fun e _ => StatusRow .heCompress e :=
  (Flow.raises_self _).mono fun e u h => by
    rcases compress_raise h with ⟨rfl, -⟩ | ⟨rfl, -⟩ | ⟨rfl, -⟩
    · exact .inputTooLong rfl
    · exact .writeFailure (.inl ⟨rfl, nofun⟩)
    · exact .writeFailure (.inl ⟨rfl, nofun⟩)

theorem execBpOpen_inTable (he : execBpOpen s = .next t) : ∃ r, t.result = some r ∧ ResultInTable .bpOpen r := by
  unfold execBpOpen at he
  split at he <;> cases he
  cases (bpOpened s).1 with
  | false => exact ⟨_, rfl, StatusRow.result (.openFailure (.inl rfl))⟩
  | true => exact ⟨_, rfl, .ok _ _⟩

theorem execBuOpen_inTable (he : execBuOpen s = .next t) : ∃ r, t.result = some r ∧ ResultInTable .buOpen r := by
  unfold execBuOpen at he
  split at he <;> cases he
  cases (buOpened s).1 with
  | false => exact ⟨_, rfl, StatusRow.result (.openFailure (.inr rfl))⟩
  | true => exact ⟨_, rfl, .ok _ _⟩

theorem execBuReadBit_inTable (he : execBuReadBit s = .next t) :
    ∃ r, t.result = some r ∧ ResultInTable .buReadBit r := by
  refine Flow.Raises.result ((readBit_only s).raises.bind fun b u => ?_) he
  cases b with
  | none => exact StatusRow.endOfData rfl
  | some b => trivial

/-- R200 and R201, over all instructions. -/
theorem exec_resultInTable (he : exec i s = .next t) : ∃ r, t.result = some r ∧ ResultInTable i r := by
  cases i with
  | bpOpen => exact execBpOpen_inTable he
  | bpWriteBit b => exact ((writeBit_raises s b).mono (.of_writeFails rfl nofun)).result_ret he
  | bpWriteLength n => exact ((writeLength_raises s n).mono (.of_writeFails rfl nofun)).result_ret he
  | bpClose => exact ((bpClose_raises s).mono fun _ _ h => h.1 ▸ .writeFailure (.inl ⟨rfl, nofun⟩)).result_ret he
  | buOpen => exact execBuOpen_inTable he
  | buReadBit => exact execBuReadBit_inTable he
  | buReadLength => exact (readLength_raises_of (fun _ => .truncatedStream (.inl rfl)) s).result_ret he
  | buClose => exact (buClose_raises s).result_ret he
  | tsBuild => exact (build_raises s).result_ret he
  | tsSerialize => exact ((serialize_raises s).mono (.of_writeFails rfl nofun)).result_ret he
  | tsDeserialize =>
    exact (deserialize_raises_of (fun _ => .truncatedStream (.inr (.inl rfl))) (fun _ => .malformedTree (.inl rfl))
      s).result_ret he
  | tsSize => exact (theTree_raises s).result_ret he
  | tsCodetable => exact (makeCodeTable_raises s).result_ret he
  | heCompress => exact (compress_statusRow s).result_ret he
  | hdDecompress =>
    exact (decompress_raises_of (fun _ => .truncatedStream (.inr (.inr rfl))) (fun _ => .malformedTree (.inr rfl))
      (fun _ => .writeFailure (.inr rfl)) s).result_ret he
  | tokenInternal => exact ((writeBit_raises s false).mono (.of_writeFails rfl nofun)).result_ret he
  | tokenLeaf sym => exact ((writeBits_raises s (true :: msb8 sym)).mono (.of_writeFails rfl nofun)).result_ret he
  | lengthHeader n => exact ((writeLength_raises s n).mono (.of_writeFails rfl nofun)).result_ret he
  | bpBytes | buBytes | tsFreqClear | tsFreqSet | tsCodeGet => cases he; exact ⟨_, rfl, .ok _ _⟩

end Sys2Proof.Machine
end

section
/-! PROOFS. The statements of 60_exceptions.md. -/

namespace Sys2Proof.Machine

/-- Settles O17: each instruction's refusals are those of its pieces (`exec_refusalRow`), and each constructor of
`RefusalRow` is a row of the table. -/
theorem refusalsAreTheTable : Obligations.RefusalsAreTheTable := by
  intro i s r he
  cases exec_refusalRow he with
  | writeChannelIdle hs hp hi => exact .inl ⟨rfl, hs, hp, hi⟩
  | writeChannelInUse hs hi => exact .inr (.inl ⟨rfl, hs, hi⟩)
  | readChannelIdle hs hi => exact .inr (.inr (.inl ⟨rfl, hs, hi⟩))
  | readChannelInUse hs hi => exact .inr (.inr (.inr (.inl ⟨rfl, hs, hi⟩)))
  | noTree hs hi => exact .inr (.inr (.inr (.inr (.inl ⟨rfl, hs, hi⟩))))
  | buildTooSmall hi hs => exact .inr (.inr (.inr (.inr (.inr (.inl ⟨rfl, .inl ⟨hi, hs⟩⟩)))))
  | compressTooSmall hi hs => exact .inr (.inr (.inr (.inr (.inr (.inl ⟨rfl, .inr ⟨hi, hs⟩⟩)))))
  | writeCounterFull hp hi hs => exact .inr (.inr (.inr (.inr (.inr (.inr ⟨rfl, .inl ⟨hp, hi, hs⟩⟩)))))
  | readCounterFull hp hi hs => exact .inr (.inr (.inr (.inr (.inr (.inr ⟨rfl, .inr ⟨hp, hi, hs⟩⟩)))))

/-- Settles O18: each instruction's pieces raise only statuses of its rows (`exec_resultInTable`). -/
theorem statusesAreTheTable : Obligations.StatusesAreTheTable := by
  refine ⟨⟨rfl, rfl, rfl, rfl, rfl, rfl, rfl⟩, fun i s t he => ?_⟩
  obtain ⟨⟨status, value⟩, hr, ⟨hrow, hvalue⟩⟩ := exec_resultInTable he
  refine ⟨_, hr, hvalue, ?_, ?_, ?_, ?_, ?_, ?_⟩ <;> rintro rfl <;> cases hrow <;> assumption

end Sys2Proof.Machine
end

section
/-! PROOFS. A reset that cuts a command: what it leaves in each stream, and that on a storage that never fails it may
stand at every byte the command appends (70_reset_and_hazards.md R230, 93_implementation_defined.md U8). -/

namespace Sys2Proof.Machine

variable {i : Instr} {s t u : State} {x : Item} {c : Cut} {rest : List HostMove} {l : List Byte}

/-! ## The step -/

/-- The step that takes a cut of an item the decoder reads as `i`. -/
theorem step_resetDuring (hs : s.inbox = .resetDuring x c :: rest) (hx : decode x = .ok i) :
    step s = cutCommand i (s.setInbox rest) c (exec i (s.setInbox rest)) := by
  simp only [step, hs, perform, runItemCut, hx]

/-- A cut that the step takes is a possible one of the decoded instruction. -/
theorem step_resetDuring_next (hs : s.inbox = .resetDuring x c :: rest) (h : step s = .next t) :
    ∃ i, decode x = .ok i ∧ cutAdmissible i (s.setInbox rest) c = true ∧ t = cutReset i (s.setInbox rest) c := by
  cases hx : decode x with
  | ok i => exact ⟨i, rfl, cutCommand_next (step_resetDuring hs hx ▸ h)⟩
  | error e => simp [step, hs, perform, runItemCut, hx] at h

/-- A possible cut of a command that ends is taken. -/
theorem step_resetDuring_of_admissible (hx : decode x = .ok i) (he : exec i (s.setInbox rest) = .next u)
    (hc : cutAdmissible i (s.setInbox rest) c = true) :
    step (s.setInbox (.resetDuring x c :: rest)) = .next (cutReset i (s.setInbox rest) c) := by
  have hstep := step_resetDuring (s := s.setInbox (.resetDuring x c :: rest)) rfl hx
  have htaken : cutCommand i (s.setInbox rest) c (exec i (s.setInbox rest)) =
      .next (cutReset i (s.setInbox rest) c) := by
    simp only [he, cutCommand, cutAt, hc, if_true]
  exact hstep.trans htaken

/-! ## The streams a possible cut leaves -/

theorem srcPoint_data {whole : State} {k : Src} (h : srcPoint s whole k = true) : k.data = s.src.data := by
  rcases (srcPoint_iff s whole k).mp h with rfl | ⟨hdata, -⟩
  · rfl
  · exact hdata

theorem rawInPoint_data {k : RawIn} (h : rawInPoint s k = true) : k.data = s.rawIn.data := by
  rcases (rawInPoint_iff s k).mp h with rfl | ⟨-, hdata, -⟩
  · rfl
  · exact hdata

/-- A cut moves no more than the cursors of the two input streams. -/
theorem cutAdmissible_inputs (h : cutAdmissible i s c = true) :
    c.src.data = s.src.data ∧ c.rawIn.data = s.rawIn.data := by
  obtain ⟨-, ⟨hsrc, hsrc'⟩, ⟨hraw, hraw'⟩, -⟩ := (cutAdmissible_iff i s c).mp h
  constructor
  · by_cases hd : drivesUnpacker i = true ∨ switchesUnpacker i = true
    · exact srcPoint_data (hsrc hd)
    · rw [not_or, Bool.not_eq_true, Bool.not_eq_true] at hd
      exact congrArg Src.data (hsrc' hd.1 hd.2)
  · cases hc : compresses i with
    | true => exact rawInPoint_data (hraw hc)
    | false => exact congrArg RawIn.data (hraw' hc)

theorem sinkGiven_prefix (full whole : State) : sinkGiven full whole <+: full.sink.data := List.take_prefix _ _

theorem rawOutGiven_prefix (full whole : State) : rawOutGiven full whole <+: full.rawOut := List.take_prefix _ _

theorem sinkPoint_data {full whole : State} {k : Sink} (h : sinkPoint s full whole k = true) :
    k.data = s.sink.data ∨ k.data = whole.sink.data ∨ (s.sink.data <+: k.data ∧ k.data <+: full.sink.data) := by
  rcases (sinkPoint_iff s full whole k).mp h with rfl | rfl | ⟨-, rfl⟩ | ⟨-, -, -, hfrom, hto⟩
  · exact .inl rfl
  · exact .inr (.inl rfl)
  · exact .inr (.inl rfl)
  · exact .inr (.inr ⟨hfrom, hto.trans (sinkGiven_prefix full whole)⟩)

theorem sinkPoint_durable {full whole : State} {k : Sink} (h : sinkPoint s full whole k = true)
    (hk : k.durable = true) : s.sink.durable = true ∨ whole.sink.durable = true := by
  rcases (sinkPoint_iff s full whole k).mp h with rfl | rfl | ⟨-, rfl⟩ | ⟨-, hd, -⟩
  · exact .inl hk
  · exact .inr hk
  · exact .inr hk
  · exact absurd (hd.symm.trans hk) Bool.false_ne_true

theorem rawOutPoint_data {full whole : State} (h : rawOutPoint s full whole l = true) :
    l = whole.rawOut ∨ (s.rawOut <+: l ∧ l <+: full.rawOut) := by
  rcases (rawOutPoint_iff s full whole l).mp h with hwhole | ⟨hfrom, hto⟩
  · exact .inl hwhole
  · exact .inr ⟨hfrom, hto.trans (rawOutGiven_prefix full whole)⟩

/-- SINK and RAWOUT after a possible cut, where the command leaves `w` and would leave `u` on a storage that never
fails. -/
theorem cutAdmissible_outputs {w : State} (h : cutAdmissible i s c = true)
    (hu : exec i (s.setHost .allOk) = .next u) (hw : exec i s = .next w) :
    (c.sink.data = s.sink.data ∨ c.sink.data = w.sink.data ∨
      (s.sink.data <+: c.sink.data ∧ c.sink.data <+: u.sink.data)) ∧
    (c.sink.durable = true → s.sink.durable = true ∨ w.sink.durable = true) ∧
    (c.rawOut = w.rawOut ∨ (s.rawOut <+: c.rawOut ∧ c.rawOut <+: u.rawOut)) := by
  have hframe := exec_streamFrame hw
  obtain ⟨ru, rfl⟩ := exec_reached hu
  obtain ⟨rw, rfl⟩ := exec_reached hw
  obtain ⟨⟨hsink, hsink'⟩, -, -, ⟨hout, hout'⟩⟩ := (cutAdmissible_iff i s c).mp h
  have hrawOut : c.rawOut = (reachedBy i s).rawOut ∨
      (s.rawOut <+: c.rawOut ∧ c.rawOut <+: (reachedBy i (s.setHost .allOk)).rawOut) := by
    cases hd : decompresses i with
    | true => exact rawOutPoint_data (hout hd)
    | false => exact .inl ((hout' hd).trans (hframe.rawOut hd).symm)
  cases hp : drivesPacker i with
  | true => exact ⟨sinkPoint_data (hsink hp), sinkPoint_durable (hsink hp), hrawOut⟩
  | false =>
    have hs : c.sink = s.sink := hsink' hp
    exact ⟨.inl (congrArg Sink.data hs), fun hd => .inl (hs ▸ hd), hrawOut⟩

/-! ## On a storage that never fails a cut may stand at every appended byte -/

theorem State.setHost_self {h : HostScript} (hs : s.host = h) : s.setHost h = s := by subst hs; rfl

theorem sinkGiven_self (s : State) : sinkGiven s s = s.sink.data := by simp [sinkGiven]

theorem rawOutGiven_self (s : State) : rawOutGiven s s = s.rawOut := by simp [rawOutGiven]

/-- SINK has a point of the command at every list between what it held and what the command leaves. -/
theorem exists_sinkPoint (hfrom : s.sink.data <+: l) (hto : l <+: u.sink.data) :
    ∃ k : Sink, sinkPoint s u u k = true ∧ k.data = l := by
  by_cases hl : s.sink.data.length < l.length
  · exact ⟨⟨l, s.sink.attached, false⟩, (sinkPoint_iff s u u _).mpr
      (.inr (.inr (.inr ⟨rfl, rfl, hl, hfrom, (sinkGiven_self u).symm ▸ hto⟩))), rfl⟩
  · exact ⟨s.sink, (sinkPoint_iff s u u _).mpr (.inl rfl), hfrom.eq_of_length_le (Nat.le_of_not_lt hl)⟩

/-- A cut with the input streams as before is possible where both output streams stand at points of the command. -/
theorem cutAdmissible_of_outputs (hh : s.host = .allOk) {k : Sink}
    (hk : drivesPacker i = true → sinkPoint s (reachedBy i s) (reachedBy i s) k = true)
    (hk' : drivesPacker i = false → k = s.sink)
    (hl : decompresses i = true → rawOutPoint s (reachedBy i s) (reachedBy i s) l = true)
    (hl' : decompresses i = false → l = s.rawOut) : cutAdmissible i s ⟨k, s.src, s.rawIn, l⟩ = true := by
  rw [cutAdmissible_iff, State.setHost_self hh]
  exact ⟨⟨hk, hk'⟩, ⟨fun _ => (srcPoint_iff s _ _).mpr (.inl rfl), fun _ _ => rfl⟩,
    ⟨fun _ => (rawInPoint_iff s _).mpr (.inl rfl), fun _ => rfl⟩, ⟨hl, hl'⟩⟩

/-- A command that does not drive the packer leaves SINK alone, so that there is but one such `l` (R48). -/
theorem exists_cut_of_sink_prefix (hh : s.host = .allOk) (he : exec i s = .next u) (hfrom : s.sink.data <+: l)
    (hto : l <+: u.sink.data) : ∃ c, cutAdmissible i s c = true ∧ c.sink.data = l := by
  have hframe := exec_streamFrame he
  obtain ⟨r, rfl⟩ := exec_reached he
  have hout : decompresses i = true →
      rawOutPoint s (reachedBy i s) (reachedBy i s) (reachedBy i s).rawOut = true :=
    fun _ => (rawOutPoint_iff s _ _ _).mpr (.inl rfl)
  cases hp : drivesPacker i with
  | true =>
    obtain ⟨k, hk, hkl⟩ := exists_sinkPoint hfrom hto
    exact ⟨_, cutAdmissible_of_outputs hh (fun _ => hk) (fun hf => nomatch hp.symm.trans hf) hout hframe.rawOut, hkl⟩
  | false =>
    have hto' : l <+: s.sink.data := congrArg Sink.data (hframe.sink hp) ▸ hto
    exact ⟨_, cutAdmissible_of_outputs hh (fun ht => nomatch hp.symm.trans ht) (fun _ => rfl) hout hframe.rawOut,
      antisymm hfrom hto'⟩

/-- A command but HD_DECOMPRESS leaves RAWOUT alone, so that there is but one such `l` (R48). -/
theorem exists_cut_of_rawOut_prefix (hh : s.host = .allOk) (he : exec i s = .next u) (hfrom : s.rawOut <+: l)
    (hto : l <+: u.rawOut) : ∃ c, cutAdmissible i s c = true ∧ c.rawOut = l := by
  have hframe := exec_streamFrame he
  obtain ⟨r, rfl⟩ := exec_reached he
  refine ⟨_, cutAdmissible_of_outputs hh (fun _ => (sinkPoint_iff s _ _ _).mpr (.inl rfl)) (fun _ => rfl)
    (fun _ => (rawOutPoint_iff s _ _ _).mpr (.inr ⟨hfrom, (rawOutGiven_self _).symm ▸ hto⟩)) (fun hd => ?_), rfl⟩
  have hto' : l <+: s.rawOut := hframe.rawOut hd ▸ hto
  exact antisymm hto' hfrom

end Sys2Proof.Machine
end

section
/-! PROOFS. The statements of 70_reset_and_hazards.md. -/

namespace Sys2Proof.Machine

/-- Settles O8: a cut that the step takes is a possible one, whose streams stand at points of the command
(`cutAdmissible_outputs`), and on a storage that never fails the host may name a cut at every appended byte
(`exists_cut_of_sink_prefix`, `exists_cut_of_rawOut_prefix`). -/
theorem resetCutsACommand : Obligations.ResetCutsACommand := by
  constructor
  · intro s t x c rest hs ht
    obtain ⟨i, hx, hc, rfl⟩ := step_resetDuring_next hs ht
    have hreg := cutReset_registersReset i (s.setInbox rest) c
    obtain ⟨hsrc, hrawIn⟩ := cutAdmissible_inputs hc
    obtain ⟨⟨-, hsink⟩, ⟨-, hsrc'⟩, ⟨-, hrawIn'⟩, ⟨-, hrawOut⟩⟩ := (cutAdmissible_iff _ _ _).mp hc
    exact ⟨hreg.bpStatus, hreg.bpBuf, hreg.bpFree, hreg.bpBytes, hreg.buStatus, hreg.buBuf, hreg.buAvail,
      hreg.buBytes, hreg.freqAt, hreg.tree, hreg.codeAt, hreg.heLen, hreg.hdRemaining, hsrc, hrawIn, i, hx, hsink,
      hsrc', hrawIn', hrawOut, fun _ _ hu hw =>
        cutAdmissible_outputs (s := s.setInbox rest) hc hu hw⟩
  · intro s u x i rest l hh hx he
    constructor
    · intro _ hfrom hto
      obtain ⟨c, hc, hl⟩ := exists_cut_of_sink_prefix (s := s.setInbox rest) hh he hfrom hto
      exact ⟨c, _, step_resetDuring_of_admissible hx he hc, hl⟩
    · intro hfrom hto
      obtain ⟨c, hc, hl⟩ := exists_cut_of_rawOut_prefix (s := s.setInbox rest) hh he hfrom hto
      exact ⟨c, _, step_resetDuring_of_admissible hx he hc, hl⟩

/-- Settles O12: each sub-operation of an instruction keeps the inputs (`exec_sameInputs`). -/
theorem commandsLeaveInputsAlone : Obligations.CommandsLeaveInputsAlone := by
  intro i s t he
  have h := exec_sameInputs he
  exact ⟨h.srcData, h.rawInData, h.inbox⟩

/-- Settles O6: the step looks at the inbox first, and with no move there it is the identity. -/
theorem anEmptyInboxWaits : Obligations.AnEmptyInboxWaits := by
  intro s hs
  simp only [step, hs]

end Sys2Proof.Machine
end
